-- ==== Sys2Proof/Word.lean ====
section
/-! DEFINITION. The word types of HPB3-CE and the one widening the spec uses (00_scope.md R9 to R11). -/

namespace Sys2Proof

/-- A 32-bit unsigned word, the engine's unit of data (00 R7, R10; 20 R78). -/
abbrev Word := BitVec 32

/-- An 8-bit field: the block length `b` and the domain flags `d` (00 R7). -/
abbrev Byte := BitVec 8

/-- A 4-bit index into V or MS (30 R102). -/
abbrev Nibble := BitVec 4

/-- Text outside the engine (tool output, vector files): a list of characters. -/
abbrev Text := List Char

/-- A bit string, most significant bit first (00 R9). -/
abbrev BitString := List Bool

end Sys2Proof
end

