-- ==== Sys2Proof/Config.lean ====
section
/-! DEFINITION. What an implementation or the outside world fixes and the spec leaves OPEN (00_scope.md R8,
92_eei_decisions.md OPEN parameters), and the free values: answers of the external toolchain (45_oracle.md R262) and
clock readings (60_exceptions.md R338). Every constant here has no body, so no proof can see its value. -/

namespace Sys2Proof

/-- One request record, which is also the vector record (10 R44, R51). -/
structure VecRec where
  h : Vector Word 8
  m : Vector Word 16
  t0 : Word
  t1 : Word
  b : Byte
  d : Byte
  deriving DecidableEq, Repr

/-- `BD_SER_WIDTH`, 8 or 32 (20 R80, 92 D16). -/
inductive BdWidth where
  | w8
  | w32
  deriving DecidableEq, Repr, Inhabited

/-- `COMPRESS_STEPS`: the transaction view (1 step) or the sequenced view (15 micro-steps) (70 R360, 92 D12). It is how
a COMPRESS written to CMD runs. -/
inductive View where
  | transaction
  | sequenced
  deriving DecidableEq, Repr, Inhabited

/-- The OPEN parameters other than the engine instances themselves. `EXTERNAL_TIMEOUT` is `timeoutPred + 1`, so it is
positive; `N_WORKERS` is `workersPred + 1`, so it is at least 1. -/
structure Params where
  timeoutPred : Nat
  workersPred : Nat
  bdWidth : BdWidth
  view : View
  deriving DecidableEq, Repr, Inhabited

/-- What a toolchain process hands back when it exits: words, or the circuit's bit strings (20 R80, 42 R166). -/
inductive ToolOutput where
  | words (ws : List Nat)
  | bits (ss : List Text)
  deriving DecidableEq, Repr, Inhabited

/-- How a toolchain process ended (45 R267, R268). -/
inductive ToolExit where
  | exited (code : Int) (out : ToolOutput)
  | raised (msg : Text)
  deriving DecidableEq, Repr, Inhabited

/-- One attempt of an external call: how long it ran, how it ended, and what it printed (45 R267). -/
structure Attempt where
  elapsed : Nat
  exit : ToolExit
  stdout : Text
  stderr : Text
  deriving DecidableEq, Repr, Inhabited

/-- The external calls: a named circuit evaluator on a vector, and the two toolchain commands on a vector record
(45 R262, R270, R272). -/
inductive ExtCall where
  | circuit (c : Nat) (v : VecRec)
  | witness (rec : Text)
  | proof (rec : Text)
  deriving DecidableEq, Repr

/-- One draw of the randomized property's operands (45 R274, 92 D25), by place in its set: `RAND_B` has 16 block lengths,
`RAND_T` every word for each half of the counter, `RAND_D` four flag bytes. -/
structure RandDraw where
  b : Fin 16
  t0 : Word
  t1 : Word
  d : Fin 4
  deriving DecidableEq, Repr, Inhabited

/-- The OPEN parameters of the machine (92 OPEN parameters); see notes/assumptions/4.md. -/
opaque Config.params : Params

/-- How many instances there are beside the one first addressed: `N_ENGINES` - 1 (92 D13). -/
opaque Config.otherEngines : Nat

/-- The gap between the windows of consecutive instances, in 256-byte pages (92 D5). -/
opaque Config.pageGap : Nat → Nat

/-- Free value: the answer of the `n`-th free draw, for the call made (45 R262); see notes/assumptions/14.md. -/
opaque Config.attempt : ExtCall → Nat → Attempt

/-- Free value: the `n`-th free clock reading (60 R338). -/
opaque Config.clock : Nat → Nat

/-- `RAND_SOURCE`, the OPEN source of the randomized property's operands (45 R274, 92 D25): its `n`-th free draw; see
notes/assumptions/27.md. -/
opaque Config.randSource : Nat → RandDraw

/-- The window page of instance `k`: `ENGINE_BASE` is 256 times it, hence a multiple of 256 (20 R71), and the windows
are apart. -/
def Config.enginePage : Nat → Nat
  | 0 => Config.pageGap 0
  | k + 1 => Config.enginePage k + 1 + Config.pageGap (k + 1)

end Sys2Proof
end

