-- ==== Sys2Proof/Syntax.lean ====
section
/-! DEFINITION. The operations of spec/opcode_table.json: one constructor per operation of the table (30_encoding.md R105).
The table's eight G rows are the eight legal operand tuples of the one Format G operation (30 R102, R103). -/

namespace Sys2Proof

/-- The operation set (30 R105). A host operation's operands stand in an operand record beside the word (30 R101),
so only Format G carries operands here. -/
inductive Instr where
  /-- 0x01000000, engine command (44 R213, R214). -/
  | compress
  /-- 0x02000000, micro-operation (44 R204). -/
  | init
  /-- 0x03ABCDXY, micro-operation: V indices a b c d, MS indices x y (44 R207). -/
  | g (a b c d x y : Nibble)
  /-- 0x04000000, micro-operation (44 R208). -/
  | round
  /-- 0x05000000, micro-operation (44 R210). -/
  | permute
  /-- 0x06000000, micro-operation (44 R212). -/
  | finalize
  /-- 0x10000000, host operation (41 R140). -/
  | lcgNew
  /-- 0x11000000, host operation (41 R141). -/
  | lcgNext
  /-- 0x12000000, host operation (42 R160). -/
  | toFixedBinary
  /-- 0x13000000, host operation (42 R161). -/
  | fromBinary
  /-- 0x14000000, host operation (43 R180). -/
  | buildVector
  /-- 0x15000000, host operation (42 R165). -/
  | serializeVector
  /-- 0x16000000, host operation (45 R260). -/
  | runSuite
  /-- 0x17000000, host operation (45 R270). -/
  | runSingle
  /-- 0x18000000, host operation (44 R217). -/
  | chainCv
  deriving DecidableEq, Repr

end Sys2Proof
end

