-- ==== Sys2Proof/WellFormed.lean ====
section
/-! DEFINITION. Which instructions are well formed: Format G is legal only with one of the eight operand tuples of the
round's call table (30_encoding.md R103, 10_state.md R34). -/

namespace Sys2Proof

/-- The operand tuple of one G call: V indices a b c d, MS indices x y (10 R34). -/
structure GFields where
  a : Nibble
  b : Nibble
  c : Nibble
  d : Nibble
  x : Nibble
  y : Nibble
  deriving DecidableEq, Repr

/-- The eight legal operand tuples of Format G, in the order of 30 R103. -/
def legalG : List GFields :=
  [⟨0, 4, 8, 12, 0, 1⟩, ⟨1, 5, 9, 13, 2, 3⟩, ⟨2, 6, 10, 14, 4, 5⟩, ⟨3, 7, 11, 15, 6, 7⟩,
   ⟨0, 5, 10, 15, 8, 9⟩, ⟨1, 6, 11, 12, 10, 11⟩, ⟨2, 7, 8, 13, 12, 13⟩, ⟨3, 4, 9, 14, 14, 15⟩]

/-- Well-formedness of an instruction: the only check is Format G's legality (30 R103). -/
def Instr.wf : Instr → Bool
  | .g a b c d x y => legalG.contains ⟨a, b, c, d, x, y⟩
  | .compress | .init | .round | .permute | .finalize => true
  | .lcgNew | .lcgNext | .toFixedBinary | .fromBinary | .buildVector | .serializeVector => true
  | .runSuite | .runSingle | .chainCv => true

end Sys2Proof
end

