-- ==== Sys2Proof/Decode.lean ====
section
/-! DEFINITION. The decoder of 32-bit command words, total, refusing by name, and the encoder (30_encoding.md R100 to R108). -/

namespace Sys2Proof

/-- Why a word spells no operation (30 R107). -/
inductive DecodeRefusal where
  /-- A reserved operation selector. -/
  | reservedOp
  /-- A Format N word with a bit of [23:0] set. -/
  | nonZeroOperandField
  /-- A Format G word that is not one of the legal ones. -/
  | illegalGFields
  deriving DecidableEq, Repr

/-- Who may issue an operation (30 R101). -/
inductive OpClass where
  | engineCommand
  | microOp
  | host
  deriving DecidableEq, Repr

/-- The operation selector, bits [31:24] (30 R100). -/
def opField (w : Word) : Byte := w.extractLsb' 24 8

/-- Nibble `k` of a word, bits [4k+3 : 4k] (30 R102). -/
def nibbleField (w : Word) (k : Nat) : Nibble := w.extractLsb' (4 * k) 4

/-- The operands of a Format G word (30 R102). -/
def gFieldsOf (w : Word) : GFields :=
  ⟨nibbleField w 5, nibbleField w 4, nibbleField w 3, nibbleField w 2, nibbleField w 1, nibbleField w 0⟩

/-- Decoding of a Format G word: its fields as they stand (30 R102), and the eight tuples of the call table alone
(30 R103, R107). G7's word is the one Format G and opcode_table.json give it, 0x03349EEF. The word printed for it in 30 R103
and R107, 0x033449EF, has the fields 3, 4, 4, 9, 14, 15, and R103 refuses two equal V indices.
DESIGN CHOICE (notes/assumptions/1.md), unsafe: the spec prints another word than its layout gives. -/
def decodeG (w : Word) : Except DecodeRefusal Instr :=
  let f := gFieldsOf w
  if legalG.contains f then .ok (.g f.a f.b f.c f.d f.x f.y) else .error .illegalGFields

/-- The Format N operation a selector names (30 R105). -/
def formatN (op : Byte) : Option Instr :=
  if op = 0x01#8 then some .compress
  else if op = 0x02#8 then some .init
  else if op = 0x04#8 then some .round
  else if op = 0x05#8 then some .permute
  else if op = 0x06#8 then some .finalize
  else if op = 0x10#8 then some .lcgNew
  else if op = 0x11#8 then some .lcgNext
  else if op = 0x12#8 then some .toFixedBinary
  else if op = 0x13#8 then some .fromBinary
  else if op = 0x14#8 then some .buildVector
  else if op = 0x15#8 then some .serializeVector
  else if op = 0x16#8 then some .runSuite
  else if op = 0x17#8 then some .runSingle
  else if op = 0x18#8 then some .chainCv
  else none

/-- The decoder, total on 32-bit words (30 R107). -/
def decode (w : Word) : Except DecodeRefusal Instr :=
  if opField w = 0x03#8 then decodeG w
  else
    match formatN (opField w) with
    | none => .error .reservedOp
    | some i => if w.extractLsb' 0 24 = 0#24 then .ok i else .error .nonZeroOperandField

/-- The one word a write to CMD may carry (10 R47, 30 R107 `decode_cmd`). -/
def isCommandWord (w : Word) : Bool := w == 0x01000000#32

/-- A Format G word from its fields (30 R100). -/
def packG (f : GFields) : Word :=
  0x03#8 ++ f.a ++ f.b ++ f.c ++ f.d ++ f.x ++ f.y

/-- A Format N word from its selector (30 R100). -/
def packN (op : Byte) : Word := op ++ 0#24

/-- The encoder: the word of an instruction (30 R100, R105). -/
def encode : Instr → Word
  | .compress => packN 0x01#8
  | .init => packN 0x02#8
  | .g a b c d x y => packG ⟨a, b, c, d, x, y⟩
  | .round => packN 0x04#8
  | .permute => packN 0x05#8
  | .finalize => packN 0x06#8
  | .lcgNew => packN 0x10#8
  | .lcgNext => packN 0x11#8
  | .toFixedBinary => packN 0x12#8
  | .fromBinary => packN 0x13#8
  | .buildVector => packN 0x14#8
  | .serializeVector => packN 0x15#8
  | .runSuite => packN 0x16#8
  | .runSingle => packN 0x17#8
  | .chainCv => packN 0x18#8

/-- The class of an operation (30 R101, R105). -/
def Instr.opClass : Instr → OpClass
  | .compress => .engineCommand
  | .init | .g _ _ _ _ _ _ | .round | .permute | .finalize => .microOp
  | .lcgNew | .lcgNext | .toFixedBinary | .fromBinary | .buildVector | .serializeVector => .host
  | .runSuite | .runSingle | .chainCv => .host

/-- The instruction the decoder reads from a table word `w` of `nbits` bits: one 32-bit command word, the bits above
`nbits` zero (30 R108: every command word is exactly 32 bits). -/
def decodeTableWord (nbits w : Nat) : Option Instr :=
  match decode (BitVec.ofNat 32 (w % 2 ^ nbits)) with
  | .ok i => some i
  | .error _ => none

end Sys2Proof
end

