-- ==== Sys2Proof/Machine/Values.lean ====
section
/-! DEFINITION. The host's data: error kinds (60_exceptions.md R300), suite and single-run reports (45_oracle.md R265,
R270), results of host operations and their operand records (30_encoding.md R104, R109), and the events of the agenda. -/

namespace Sys2Proof.Machine

open Sys2Proof

/-- `exit_status_or_exception` of an ExternalToolFailure (45 R265). -/
inductive ExitStatus where
  /-- The toolchain process ended with this exit code. -/
  | exited (code : Int)
  /-- The call ended in an exception. -/
  | raised (msg : Text)
  /-- The process ended well and its output is not 16 words of 32 bits (45 R268, 42 R166).
  DESIGN CHOICE (notes/assumptions/17.md): the spec names no status for it. -/
  | malformed
  deriving DecidableEq, Repr

/-- The five error kinds with their payloads (60 R300). They are values returned to the caller (60 R302). -/
inductive ErrorKind where
  | invalidBlockLength (blockLen : Nat)
  | serializationRange (value width : Nat)
  | outputMismatch (vec : VecRec) (diff : List Nat) (expected actual : List Word)
  | externalToolFailure (vec : VecRec) (status : ExitStatus) (stdout stderr : Text)
  | externalTimeout (vec : VecRec) (attempts : Nat)
  deriving DecidableEq, Repr

/-- The numeric code of an error kind (60 R300, 92 D22). -/
def errorCode : ErrorKind → Nat
  | .invalidBlockLength _ => 1
  | .serializationRange _ _ => 2
  | .outputMismatch _ _ _ _ => 3
  | .externalToolFailure _ _ _ _ => 4
  | .externalTimeout _ _ => 5

/-- The outcome of one vector of a suite (45 R265). -/
inductive SuiteOutcome where
  | pass
  | failed (e : ErrorKind)
  deriving DecidableEq, Repr

/-- SuiteResult: outcomes in ascending index order and the summary flag (45 R265). -/
structure SuiteResult where
  entries : List (Nat × SuiteOutcome)
  allPassed : Bool
  deriving DecidableEq, Repr

/-- One stage of RUN_SINGLE: ok or the failure kind, and the elapsed time (45 R270). -/
structure Stage where
  failure : Option ErrorKind
  elapsed : Nat
  deriving DecidableEq, Repr

/-- SingleReport (45 R270); `proof = none` is "not run". -/
structure SingleReport where
  witness : Stage
  proof : Option Stage
  deriving DecidableEq, Repr

/-- The bit-vector form of a vector (20 R80, 42 R165). -/
structure BitForm where
  h : List BitString
  m : List BitString
  t : List BitString
  b : BitString
  d : BitString
  deriving DecidableEq, Repr

/-- The `form` operand of SERIALIZE_VECTOR (30 R104). -/
inductive Form where
  | record
  | bits
  deriving DecidableEq, Repr

/-- Operand and result values of a host program. Numbers, bit strings and word arrays are kept raw, so that a value outside
its operand's type can be written down and refused (30 R104). -/
inductive Value where
  | int (n : Nat)
  | chars (cs : Text)
  | words (ws : List Nat)
  | gen (id : Nat)
  | vec (v : VecRec)
  | record (t : Text)
  | bitForm (f : BitForm)
  | bool (b : Bool)
  | form (f : Form)
  | circuit (c : Nat)
  | suite (r : SuiteResult)
  | single (r : SingleReport)
  | error (e : ErrorKind)
  deriving DecidableEq, Repr

/-- The operand names of 30 R104 and R109 (`b`, `d`, `t0`, `t1`, `h` are also the builder's `block_len`, `domain_flags`,
`counter_low`, `counter_high`, `chaining_value`). -/
inductive Key where
  | seed | gen | value | width | bits | b | d | t0 | t1 | h | m | vec | form | out | vectors | circuit | prove
  deriving DecidableEq, Repr

/-- An operand written out (30 R109). Vectors, generators and results cannot be: only BUILD_VECTOR creates a vector (10 R51) and
LCG_NEW a generator (41 R140), and an operand gives the name one is bound to. -/
inductive Literal where
  | int (n : Nat)
  | chars (cs : Text)
  | words (ws : List Nat)
  | bool (b : Bool)
  | form (f : Form)
  | circuit (c : Nat)
  deriving DecidableEq, Repr

/-- One operand: a value written out, the result bound to a name, or a list of names (30 R109). -/
inductive Arg where
  | lit (v : Literal)
  | name (n : Nat)
  | names (ns : List Nat)
  deriving DecidableEq, Repr

/-- Who issues a command word (30 R101). -/
inductive Issuer where
  | host
  | sequencer
  deriving DecidableEq, Repr

/-- What stands beside a command word: issuer, host worker, the engine instance meant (`none`: the one now addressed), the
operand record (30 R101, R104) and the name the result is bound to (30 R109). -/
structure Line where
  issuer : Issuer
  worker : Nat
  engine : Option Nat
  args : List (Key × Arg)
  dest : Option Nat
  deriving DecidableEq, Repr

/-- The constant tables as an implementation loads them (70 R345). -/
structure Tables where
  iv : List Word
  perm : List Nat
  rot : List Nat
  nRounds : Nat
  gcall : List GFields
  deriving DecidableEq, Repr

/-- One thing an agent does. `State.agenda` lists them in the order they happen (see notes/assumptions/5.md). -/
inductive Event where
  /-- A command word is issued with its operand record. -/
  | word (line : Line) (w : Word)
  /-- A host worker's MemRead of `size` bytes (20 R72). -/
  | read (worker addr size : Nat) (dest : Option Nat)
  /-- A host worker's MemWrite of `size` bytes (20 R72). -/
  | write (worker addr size : Nat) (value : Word)
  /-- The poll loop of 20 R77 on the STATUS register at `addr`. -/
  | poll (worker addr : Nat)
  /-- The reads of OUT that end the host sequence of 20 R77, in the window at `page`: `got` are the words read so far. -/
  | readOut (worker page : Nat) (got : List Nat) (dest : Option Nat)
  /-- One step of the engine agent whose window page is `page` (44 R214). -/
  | engine (page : Nat)
  /-- The reset of an engine (70 R340). -/
  | reset (page : Nat)
  /-- Loading the tables of an engine that holds them in writable storage (70 R345). -/
  | loadTables (page : Nat) (t : Tables)
  /-- A worker's LCG_NEXT that overlaps others begins (41 R146). -/
  | drawBegin (worker gen : Nat)
  /-- That worker's LCG_NEXT ends. -/
  | drawEnd (worker gen : Nat) (dest : Option Nat)
  /-- RUN_SUITE in the interleaved view: the suite opens with RUN_SUITE's operand record (45 R266). -/
  | suiteOpen (line : Line)
  /-- A suite worker starts the external process of vector `j` (45 R267). -/
  | suiteLaunch (j : Nat)
  /-- The external process of vector `j` ends. -/
  | suiteAnswer (j : Nat)
  /-- Every vector has its outcome: the SuiteResult is returned. -/
  | suiteClose
  /-- A suite abort kills every running external process (45 R271). -/
  | suiteAbort
  /-- RUN_SINGLE in the interleaved view: a worker starts it with RUN_SINGLE's operand record, and its witness process. -/
  | singleOpen (line : Line)
  /-- The external process of this worker's RUN_SINGLE ends (45 R267, R270). -/
  | singleAnswer (worker : Nat)
  /-- A worker starts the randomized property (45 R274): vectors from the generator bound to the name `gen`, bound to the names
  from `base` on, and a suite of them. -/
  | randomized (worker gen circuit base : Nat) (dest : Option Nat)
  deriving DecidableEq, Repr

/-- One vector of a running suite (10 R52): its retry count (0 or 1), whether its external process lives (10 R53(c)), and
its outcome once it has one. -/
structure SuiteSlot where
  vec : VecRec
  retries : Nat
  running : Bool
  outcome : Option SuiteOutcome
  deriving DecidableEq, Repr

/-- A RUN_SINGLE under way (45 R270): one external process of it lives (10 R53(c)), that of its witness stage, or that of its
proof stage once the witness stage has ended well; and the retry count of that call (0 or 1). -/
structure SingleRun where
  worker : Nat
  dest : Option Nat
  vec : VecRec
  prove : Bool
  witness : Option Stage
  retries : Nat
  deriving DecidableEq, Repr

/-- What arrives while an external process is alive: its end, or a suite abort (45 R267, R271, 92 D29). -/
inductive Arrival where
  | answer (a : Attempt)
  | abort
  deriving DecidableEq, Repr

/-- The suite accumulator (10 R52). -/
structure Suite where
  circuit : Nat
  slots : List SuiteSlot
  dest : Option Nat
  deriving DecidableEq, Repr

end Sys2Proof.Machine
end

