-- ==== Sys2Proof/Machine/State.lean ====
section
/-! DEFINITION. The state of the machine as plain data, its faults and refusals, and the state after reset (10_state.md,
70_reset_and_hazards.md R340 to R342). -/

namespace Sys2Proof.Machine

open Sys2Proof

/-- The registers of the window (20 R71, 10 R43 to R47). -/
inductive WinReg where
  | hIn (i : Fin 8)
  | mIn (i : Fin 16)
  | t0In
  | t1In
  | bIn
  | dIn
  | cmd
  | status
  | out (i : Fin 16)
  deriving DecidableEq, Repr

/-- The engine registers as a fault names them: those of the window, and the internal ones (10 R40 to R42). -/
inductive Reg where
  | win (r : WinReg)
  | v
  | ms
  | hl
  deriving DecidableEq, Repr

/-- Why the machine stops with no meaning in this state. -/
inductive Fault where
  /-- A read of a register the spec says holds no value (60 R323, 10 R49). Raised by window reads and by COMPRESS, INIT, G,
  ROUND, PERMUTE and FINALIZE. Safe: the spec's own fault. -/
  | readNoValue (r : Reg)
  deriving DecidableEq, Repr

/-- Why a word, access, operand or event is refused. -/
inductive Refusal where
  /-- Rejected by name in exec's arm: not modelled yet. Safe. -/
  | notModelled (mnemonic : String)
  /-- Raised by the step on a word with a reserved selector (60 R322). Safe: the spec's own. -/
  | reservedOp
  /-- Raised by the step on a Format N word with operand bits set (60 R322). Safe: the spec's own. -/
  | nonZeroOperandField
  /-- Raised by the step on an illegal Format G word, and by G on an illegal operand tuple (60 R322). Safe: the spec's own. -/
  | illegalGFields
  /-- Raised by a CMD write of another word, and by a word its issuer may not issue (60 R322, 30 R101). Safe: the spec's own. -/
  | notACommand
  /-- Raised by a window access of another width, misaligned, at a reserved offset or in a forbidden direction (60 R322).
  Safe: the spec's own. -/
  | windowAccess (off : Nat)
  /-- Raised by a read of CMD, which the spec refuses under two of its reasons, WindowAccess (20 R72) and NotACommand
  (60 R322); it is a refusal under both (notes/assumptions/9.md). Safe: the access is refused. -/
  | cmdRead
  /-- Raised by a host operation whose operand record is not of its type (60 R322). Safe: the spec's own. -/
  | operandType
  /-- Raised by a draw from a generator on which another draw is in progress (60 R322). Safe: the spec's own. -/
  | concurrentGeneratorUse
  /-- Raised by a window access that interleaves two workers' accesses to one instance (60 R322). Safe: the spec's own. -/
  | interleavedWindowAccess
  /-- Raised by a reset of a busy engine (70 R341). Safe: the spec's own. -/
  | resetWhileBusy
  /-- Raised by COMPRESS, RUN_SUITE and a suite's launch before the tables are loaded (70 R345). Safe: the spec's own. -/
  | tablesNotLoaded
  /-- Raised by a window access at an address in no instance's window: the spec gives such an address no register
  (20 R70, R81). Safe. -/
  | outsideWindow (addr : Nat)
  /-- Raised by the engine's step at a sequencer value that names no word, such as the reserved 15 (10 R45). Safe: never
  reached. -/
  | reservedSeq
  /-- Raised by the step on a micro-operation the sequencer does not issue where it stands (30 R106, 60 R326): no engine does
  it. Safe. -/
  | outOfSequence
  /-- Raised by an event that names an engine, draw, process or suite that does not exist: no agent can do it. Safe. -/
  | impossibleEvent
  deriving DecidableEq, Repr

/-- The reasons the spec gives its refusals (60 R322). -/
inductive Reason where
  | reservedOp
  | nonZeroOperandField
  | illegalGFields
  | notACommand
  | windowAccess (off : Nat)
  | operandType
  | concurrentGeneratorUse
  | interleavedWindowAccess
  deriving DecidableEq, Repr

/-- How an operation that has no result ends. -/
inductive Stop where
  | fault (f : Fault)
  | refused (r : Refusal)
  deriving DecidableEq, Repr

/-- A hold (60 R321): a COMPRESS written to CMD of a busy engine, named by its window page, whose FINALIZE lifts it. -/
inductive Hold where
  | cmdWhileBusy (page : Nat)
  deriving DecidableEq, Repr

/-- A request register: its value and whether the host has written it since reset (10 R44, R49). -/
structure ReqReg (w : Nat) where
  val : BitVec w
  written : Bool
  deriving DecidableEq, Repr

/-- STATUS by its two fields; bits 31:2 read as 0 (10 R46). -/
structure Status where
  busy : Bool
  outValid : Bool
  deriving DecidableEq, Repr

/-- The micro-sequencer position: IDLE or a 4-bit step (10 R45). ROUND executes as the words G0 to G7 (30 R106, R111), so
inside a ROUND that is issued call by call the position also says which call is next (see notes/assumptions/7.md). -/
inductive Seq where
  | idle
  | at (n : Nibble)
  /-- SEQ is `n`, a ROUND; its calls before call `k` have been issued. -/
  | midRound (n : Nibble) (k : Fin 8)
  deriving DecidableEq, Repr

/-- One engine instance (10_state.md section 2). -/
structure Engine where
  /-- `ENGINE_BASE` / 256 (20 R71), the instance's only identity (60 R324). -/
  page : Nat
  hIn : Vector (ReqReg 32) 8
  mIn : Vector (ReqReg 32) 16
  t0In : ReqReg 32
  t1In : ReqReg 32
  bIn : ReqReg 8
  dIn : ReqReg 8
  v : Vector Word 16
  ms : Vector Word 16
  hl : Vector Word 8
  /-- INIT has written V, MS and HL since reset (10 R49). -/
  latched : Bool
  out : Vector Word 16
  status : Status
  seq : Seq
  /-- The constant tables hold their values (70 R345). -/
  tablesReady : Bool
  /-- The worker whose window accesses are going on (20 R86). -/
  owner : Option Nat
  /-- The workers whose window accesses have ended (20 R86). -/
  past : List Nat
  deriving DecidableEq, Repr

/-- One generator instance (10 R50): its seed, and the worker whose LCG_NEXT on it is in progress (41 R146). -/
structure Gen where
  seed : BitVec 64
  user : Option Nat
  deriving DecidableEq, Repr

/-- What arrives from outside: ends of external processes and suite aborts, clock readings, draws of `RAND_SOURCE`, and how many free draws
were taken once they ran out (45 R262, R271, R274, 60 R338). -/
structure Inputs where
  answers : List Arrival
  clocks : List Nat
  rands : List RandDraw
  draws : Nat
  deriving DecidableEq, Repr

/-- The state of the machine. -/
structure State where
  /-- The OPEN parameters; no step writes them (92 OPEN parameters). -/
  params : Params
  /-- The engine instance addressed. -/
  engine : Engine
  /-- The other instances (60 R324). -/
  others : List Engine
  /-- The generator instances, in order of construction (10 R50). -/
  gens : List Gen
  /-- The results bound to names, by rising name (30 R109). -/
  env : List (Nat × Value)
  /-- The suite under way in the interleaved view (10 R52). -/
  suite : Option Suite
  /-- The RUN_SINGLEs under way in the interleaved view, each with a live external process (10 R53(c), 45 R270). -/
  singles : List SingleRun
  /-- The operand record beside the word being executed (30 R101). -/
  line : Line
  /-- What happens next, in order. -/
  agenda : List Event
  /-- The hold in force (60 R321). -/
  hold : Option Hold
  /-- What has arrived from outside. -/
  inputs : Inputs
  deriving DecidableEq, Repr

/-- A request register no one has written. The spec gives it no value; it holds 0 and every read of it faults.
DESIGN CHOICE (notes/assumptions/3.md), unsafe. -/
def ReqReg.unwritten (w : Nat) : ReqReg w := ⟨0, false⟩

/-- An engine instance after reset (10 R55, 70 R340). The zeros of V, MS, HL and OUT are a DESIGN CHOICE
(notes/assumptions/3.md), unsafe: the spec gives them no value, and every read of them faults. -/
def Engine.reset (page : Nat) : Engine where
  page := page
  hIn := Vector.replicate 8 (ReqReg.unwritten 32)
  mIn := Vector.replicate 16 (ReqReg.unwritten 32)
  t0In := ReqReg.unwritten 32
  t1In := ReqReg.unwritten 32
  bIn := ReqReg.unwritten 8
  dIn := ReqReg.unwritten 8
  v := Vector.replicate 16 0
  ms := Vector.replicate 16 0
  hl := Vector.replicate 8 0
  latched := false
  out := Vector.replicate 16 0
  status := ⟨false, false⟩
  seq := .idle
  tablesReady := true
  owner := none
  past := []

/-- The empty operand record, issued by host worker 0. -/
def Line.empty : Line := ⟨.host, 0, none, [], none⟩

/-- The machine right after reset (10 R55, 70 R340, R342): every instance idle, no generator, no vector, no suite, no
external process, and nothing scheduled. -/
def State.reset : State where
  params := Config.params
  engine := Engine.reset (Config.enginePage 0)
  others := (List.range Config.otherEngines).map fun k => Engine.reset (Config.enginePage (k + 1))
  gens := []
  env := []
  suite := none
  singles := []
  line := Line.empty
  agenda := []
  hold := none
  inputs := ⟨[], [], [], 0⟩

end Sys2Proof.Machine
end

