-- ==== Sys2Proof/Machine/Mix.lean ====
section
/-! DEFINITION. The constant tables (10_state.md R30 to R35) and the compression function itself as pure functions:
rotation, G, ROUND, PERMUTE, FINALIZE and `compress` (44_compression_engine.md R201 to R213). -/

namespace Sys2Proof.Machine

open Sys2Proof

/-- The initialization vector (10 R30). -/
def ivTable : Vector Word 8 :=
  #v[0x6A09E667#32, 0xBB67AE85#32, 0x3C6EF372#32, 0xA54FF53A#32,
     0x510E527F#32, 0x9B05688C#32, 0x1F83D9AB#32, 0x5BE0CD19#32]

/-- The message permutation (10 R31). -/
def permTable : Vector (Fin 16) 16 :=
  #v[2, 6, 3, 10, 7, 0, 4, 13, 1, 11, 12, 5, 9, 14, 15, 8]

/-- The rotation amounts of G in the order it uses them (10 R32). -/
def rotTable : Vector Nat 4 := #v[16, 12, 8, 7]

/-- The number of rounds (10 R33). -/
def nRounds : Nat := 7

/-- The eight G calls of a round, in execution order (10 R34). -/
def gcallTable : Vector GFields 8 :=
  #v[⟨0, 4, 8, 12, 0, 1⟩, ⟨1, 5, 9, 13, 2, 3⟩, ⟨2, 6, 10, 14, 4, 5⟩, ⟨3, 7, 11, 15, 6, 7⟩,
     ⟨0, 5, 10, 15, 8, 9⟩, ⟨1, 6, 11, 12, 10, 11⟩, ⟨2, 7, 8, 13, 12, 13⟩, ⟨3, 4, 9, 14, 14, 15⟩]

/-- The tables an implementation must load (70 R345). -/
def theTables : Tables where
  iv := ivTable.toList
  perm := permTable.toList.map Fin.val
  rot := rotTable.toList
  nRounds := nRounds
  gcall := gcallTable.toList

/-- Masks of the domain flags (10 R35): constants for the host, which the engine never interprets (44 R206). -/
def flagChunkStart : Byte := 0x01#8
/-- CHUNK_END (10 R35). -/
def flagChunkEnd : Byte := 0x02#8
/-- PARENT (10 R35). -/
def flagParent : Byte := 0x04#8
/-- ROOT (10 R35). -/
def flagRoot : Byte := 0x08#8
/-- KEYED_HASH (10 R35). -/
def flagKeyedHash : Byte := 0x10#8
/-- DERIVE_KEY_CONTEXT (10 R35). -/
def flagDeriveKeyContext : Byte := 0x20#8
/-- DERIVE_KEY_MATERIAL (10 R35). -/
def flagDeriveKeyMaterial : Byte := 0x40#8

/-- Widening of an 8-bit field with zeros (00 R10). -/
def zext32 (v : Byte) : Word := v.setWidth 32

/-- Rotation to the right by `n` bits, `0 < n < 32` (00 R11, 44 R202). -/
def rotr32 (x : Word) (n : Nat) : Word := (x >>> n) ||| (x <<< (32 - n))

/-- The four words G returns. -/
structure Quad where
  a : Word
  b : Word
  c : Word
  d : Word
  deriving DecidableEq, Repr

/-- Half of G: the add, rotate, xor steps that take one message word and two rotation amounts (44 R203). -/
def mixHalf (q : Quad) (mw : Word) (r1 r2 : Nat) : Quad :=
  let a := q.a + q.b + mw
  let d := rotr32 (q.d ^^^ a) r1
  let c := q.c + d
  let b := rotr32 (q.b ^^^ c) r2
  ⟨a, b, c, d⟩

/-- G: the eight steps of 44 R203. -/
def mixG (q : Quad) (mx my : Word) : Quad :=
  mixHalf (mixHalf q mx rotTable[0] rotTable[1]) my rotTable[2] rotTable[3]

/-- Word `i` of V or MS, by a 4-bit index (30 R102). -/
def nib (v : Vector Word 16) (i : Nibble) : Word := v[i.toNat]'(i.isLt)

/-- V or MS with word `i` replaced. -/
def setNib (v : Vector Word 16) (i : Nibble) (w : Word) : Vector Word 16 := v.set i.toNat w i.isLt

/-- One G call on the working state: all six words are read before any is written (44 R207). -/
def gCall (ms v : Vector Word 16) (f : GFields) : Vector Word 16 :=
  let q := mixG ⟨nib v f.a, nib v f.b, nib v f.c, nib v f.d⟩ (nib ms f.x) (nib ms f.y)
  setNib (setNib (setNib (setNib v f.a q.a) f.b q.b) f.c q.c) f.d q.d

/-- One round: the eight calls of the table in order (44 R208). -/
@[irreducible] def roundV (ms v : Vector Word 16) : Vector Word 16 :=
  gcallTable.toList.foldl (gCall ms) v

/-- PERMUTE: slot `i` takes old slot `PERM[i]` (44 R210). -/
def permuteMs (ms : Vector Word 16) : Vector Word 16 := permTable.map fun p => ms[p]

/-- The working state INIT seeds from a request (44 R204). -/
def initV (r : VecRec) : Vector Word 16 :=
  r.h ++ #v[ivTable[0], ivTable[1], ivTable[2], ivTable[3], r.t0, r.t1, zext32 r.b, zext32 r.d]

/-- The output FINALIZE computes from V and the latched chaining value (44 R212). -/
def finalizeOut (v : Vector Word 16) (hl : Vector Word 8) : Vector Word 16 :=
  Vector.ofFn (n := 8) (fun i => v[i.val]'(by omega) ^^^ v[i.val + 8]'(by omega))
    ++ Vector.ofFn (n := 8) (fun i => v[i.val + 8]'(by omega) ^^^ hl[i.val])

/-- `n` rounds with a PERMUTE between consecutive ones; answers V and MS (44 R211, R213). -/
def runRounds : Nat → Vector Word 16 → Vector Word 16 → Vector Word 16 × Vector Word 16
  | 0, ms, v => (ms, v)
  | 1, ms, v => (ms, roundV ms v)
  | n + 2, ms, v => runRounds (n + 1) (permuteMs ms) (roundV ms v)

/-- The final MS and V of a compression (44 R213). -/
@[irreducible] def compressRun (r : VecRec) : Vector Word 16 × Vector Word 16 := runRounds nRounds r.m (initV r)

/-- The function of the engine (44 R200, R213). -/
def compress (r : VecRec) : Vector Word 16 := finalizeOut (compressRun r).2 r.h

end Sys2Proof.Machine
end

