-- ==== Sys2Proof/Machine/Flags.lean ====
section
/-! DEFINITION. The STATUS flags BUSY and OUT_VALID: every change of them and the word software reads (10_state.md R46).
The hardware has no other flags and no condition codes (10 R48). -/

namespace Sys2Proof.Machine

open Sys2Proof

/-- STATUS as a 32-bit word: BUSY in bit 0, OUT_VALID in bit 1, the rest 0 (10 R46). -/
def Status.word (s : Status) : Word :=
  (if s.busy then 1#32 else 0#32) ||| (if s.outValid then 2#32 else 0#32)

/-- What a COMPRESS command does to STATUS in the sequenced view: BUSY <- 1, OUT_VALID <- 0 (10 R46, 44 R214). -/
def Status.onCommand (_ : Status) : Status := ⟨true, false⟩

/-- What FINALIZE does to STATUS: BUSY <- 0, OUT_VALID <- 1 (10 R46, 44 R212). -/
def Status.onFinalize (_ : Status) : Status := ⟨false, true⟩

end Sys2Proof.Machine
end

