-- ==== Sys2Proof/Machine/Ops.lean ====
section
/-! DEFINITION. The named operations over the state: reading and writing engine registers, latching a request, finding the
engine an operation addresses, generators, bound names, and handing an error to the caller.
The hardware has no traps, no saved state and no return from one (60_exceptions.md R333, R334): an error is a value returned
to the caller (60 R302), and `raiseError` is that one shared operation. -/

namespace Sys2Proof.Machine

open Sys2Proof

/-- A step's outcome on this machine. -/
abbrev StepResult := Host.Outcome State Fault Refusal

/-- A stop as an outcome. -/
def stopResult : Stop → StepResult
  | .fault f => .fault f
  | .refused r => .refused r

/-! ### Bound names (30 R109) -/

/-- The value bound to a name. -/
def envGet (n : Nat) : List (Nat × Value) → Option Value
  | [] => none
  | (k, v) :: rest => if k = n then some v else envGet n rest

/-- Bind a name, keeping names rising and each once; a name bound again takes the new value. -/
def envSet (n : Nat) (v : Value) : List (Nat × Value) → List (Nat × Value)
  | [] => [(n, v)]
  | (k, w) :: rest =>
    if n < k then (n, v) :: (k, w) :: rest
    else if n = k then (n, v) :: rest
    else (k, w) :: envSet n v rest

/-- The canonical form of the bound names: rising, hence each once. -/
def envWf : List (Nat × Value) → Bool
  | [] => true
  | [_] => true
  | (k, _) :: (k', v') :: rest => decide (k < k') && envWf ((k', v') :: rest)

/-- Bind a value to the name a line gives its result, if it gives one. -/
def bindTo (dest : Option Nat) (v : Value) (s : State) : State :=
  match dest with
  | none => s
  | some n => { s with env := envSet n v s.env }

/-- The result of the operation being executed. -/
def bindResult (v : Value) (s : State) : State := bindTo s.line.dest v s

/-- An error is returned to the caller as the operation's result; nothing else changes (60 R302, R312). -/
def raiseError (e : ErrorKind) (s : State) : State := bindResult (.error e) s

/-! ### Generators (10 R50) -/

/-- The generator instance of this number. -/
def genAt (id : Nat) (s : State) : Option Gen := s.gens[id]?

/-- Replace a generator instance. -/
def setGen (id : Nat) (g : Gen) (s : State) : State := { s with gens := s.gens.set id g }

/-! ### Engine instances (60 R324) -/

/-- Take the first instance with this window page out of a list, putting `e` in its place. -/
def swapIn (page : Nat) (e : Engine) : List Engine → Option (Engine × List Engine)
  | [] => none
  | x :: rest =>
    if x.page = page then some (x, e :: rest)
    else
      match swapIn page e rest with
      | none => none
      | some (y, rest') => some (y, x :: rest')

/-- Address the instance whose window is at this page, if there is one. The instance addressed before takes its place among
the others. -/
def focus (page : Nat) (s : State) : Option State :=
  if s.engine.page = page then some s
  else
    match swapIn page s.engine s.others with
    | none => none
    | some (e, os) => some { s with engine := e, others := os }

/-- Do something on the instance whose window is at this page, then address the instance addressed before again. -/
def withEngine (page : Nat) (absent : Refusal) (s : State) (f : State → StepResult) : StepResult :=
  if s.engine.page = page then f s
  else
    match focus page s with
    | none => .refused absent
    | some t =>
      match f t with
      | .next u => .next ((focus s.engine.page u).getD u)
      | .fault x => .fault x
      | .refused x => .refused x

/-- Do something on the instance a line names, or on the one addressed where it names none. -/
def onEngine (page : Option Nat) (s : State) (f : State → StepResult) : StepResult :=
  match page with
  | none => f s
  | some p => withEngine p .impossibleEvent s f

/-! ### Request registers (10 R44, R49) -/

/-- A request register after the host writes it. -/
def ReqReg.put {w : Nat} (_ : ReqReg w) (v : BitVec w) : ReqReg w := ⟨v, true⟩

/-- The request fields in window order, each with its written mark. -/
def requestMarks (e : Engine) : List (WinReg × Bool) :=
  (List.finRange 8).map (fun i => (WinReg.hIn i, e.hIn[i].written))
    ++ (List.finRange 16).map (fun i => (WinReg.mIn i, e.mIn[i].written))
    ++ [(.t0In, e.t0In.written), (.t1In, e.t1In.written), (.bIn, e.bIn.written), (.dIn, e.dIn.written)]

/-- The first request field never written since reset, in window order. -/
def firstUnwritten (e : Engine) : Option WinReg := ((requestMarks e).find? fun x => !x.2).map Prod.fst

/-- The request as the registers hold it. -/
def requestOf (e : Engine) : VecRec where
  h := e.hIn.map ReqReg.val
  m := e.mIn.map ReqReg.val
  t0 := e.t0In.val
  t1 := e.t1In.val
  b := e.bIn.val
  d := e.dIn.val

/-- The request registers read as a whole: a fault if a field was never written (10 R49). -/
def readRequest (e : Engine) : Except WinReg VecRec :=
  match firstUnwritten e with
  | some r => .error r
  | none => .ok (requestOf e)

/-- Every request register holding a request, as the host sequence of 20 R77 leaves them. -/
def putRequest (r : VecRec) (e : Engine) : Engine :=
  { e with
    hIn := r.h.map fun w => ⟨w, true⟩
    mIn := r.m.map fun w => ⟨w, true⟩
    t0In := ⟨r.t0, true⟩
    t1In := ⟨r.t1, true⟩
    bIn := ⟨r.b, true⟩
    dIn := ⟨r.d, true⟩ }

/-! ### Engine micro-state (44 R204 to R213) -/

/-- INIT's latch of a request into HL, MS and V (44 R204). -/
def latchRequest (r : VecRec) (e : Engine) : Engine :=
  { e with hl := r.h, ms := r.m, v := initV r, latched := true }

/-- FINALIZE: OUT, STATUS and SEQ (44 R212). -/
def finalizeEngine (e : Engine) : Engine :=
  { e with out := finalizeOut e.v e.hl, status := e.status.onFinalize, seq := .idle }

/-- A whole compression of a request as one step (44 R213, transaction view). -/
def transactEngine (r : VecRec) (e : Engine) : Engine :=
  { e with
    hl := r.h
    ms := (compressRun r).1
    v := (compressRun r).2
    latched := true
    out := compress r
    status := e.status.onFinalize
    seq := .idle }

/-- The step in which a COMPRESS command is taken in the sequenced view: STATUS, INIT and SEQ <- 1 (44 R214). -/
def commandEngine (r : VecRec) (e : Engine) : Engine :=
  { latchRequest r e with status := e.status.onCommand, seq := .at 1 }

/-- Replace the instance addressed. -/
def setEngine (e : Engine) (s : State) : State := { s with engine := e }

/-- FINALIZE of the instance addressed lifts a hold that waits for it (60 R321). -/
def liftHold (s : State) : State :=
  if s.hold = some (.cmdWhileBusy s.engine.page) then { s with hold := none } else s

/-! ### Window ownership (20 R86) -/

/-- Worker `w` accesses the window: `none` where its accesses to this instance would interleave with another worker's,
that is where another worker accessed it since (see notes/assumptions/12.md). -/
def claimWindow (w : Nat) (e : Engine) : Option Engine :=
  match e.owner with
  | none => some { e with owner := some w }
  | some o =>
    if o = w then some e
    else if e.past.contains w then none
    else some { e with owner := some w, past := o :: e.past }

end Sys2Proof.Machine
end

