-- ==== Sys2Proof/Machine/Operands.lean ====
section
/-! DEFINITION. Operand records: resolving an operand, the types of 30_encoding.md R104, the defaults, and the typed operand
record of each operation. `none` is a record outside its operation's type, which is refused before the operation runs
(60_exceptions.md R322 OperandType, R332). -/

namespace Sys2Proof.Machine

open Sys2Proof

/-! ### Resolving operands (30 R109) -/

/-- The value of an operand written out. -/
def literalValue : Literal → Value
  | .int n => .int n
  | .chars cs => .chars cs
  | .words ws => .words ws
  | .bool b => .bool b
  | .form f => .form f
  | .circuit c => .circuit c

/-- The vectors a list of names is bound to. -/
def resolveVecs (env : List (Nat × Value)) : List Nat → Option (List VecRec)
  | [] => some []
  | n :: ns =>
    match envGet n env, resolveVecs env ns with
    | some (.vec v), some vs => some (v :: vs)
    | _, _ => none

/-- The value of an operand: written out, or the one bound to its name. A list of names is no single value. -/
def resolveArg (env : List (Nat × Value)) : Arg → Option Value
  | .lit v => some (literalValue v)
  | .name n => envGet n env
  | .names _ => none

/-- The operand of this name in a record. -/
def findArg (k : Key) : List (Key × Arg) → Option Arg
  | [] => none
  | (k', a) :: rest => if k' = k then some a else findArg k rest

/-- A record names only these operands, each at most once. -/
def keysOk (allowed : List Key) (args : List (Key × Arg)) : Bool :=
  args.all (fun a => allowed.contains a.1) && decide (args.map Prod.fst).Nodup

/-- An operand of a type, or its default where the record does not give it (30 R104). -/
def typedArg {α : Type} (k : Key) (conv : Value → Option α) (default : Option α) (s : State) : Option α :=
  match findArg k s.line.args with
  | none => default
  | some a => (resolveArg s.env a).bind conv

/-! ### Operand types (30 R104) -/

/-- An unsigned number of `w` bits. -/
def asNat (w : Nat) : Value → Option (BitVec w)
  | .int n => if n < 2 ^ w then some (BitVec.ofNat w n) else none
  | _ => none

/-- One character of a bit string: only `0` and `1` (42 R161). -/
def bitOfChar (c : Char) : Option Bool :=
  if c = '0' then some false else if c = '1' then some true else none

/-- A text as a bit string. -/
def bitsOfText : Text → Option BitString
  | [] => some []
  | c :: cs =>
    match bitOfChar c, bitsOfText cs with
    | some b, some bs => some (b :: bs)
    | _, _ => none

/-- A bit string as text. -/
def textOfBits (bs : BitString) : Text := bs.map fun b => if b then '1' else '0'

/-- A bit string operand. -/
def asBits : Value → Option BitString
  | .chars cs => bitsOfText cs
  | _ => none

/-- `n` numbers as `n` words: the length and every number must fit. -/
def toWords (n : Nat) (ws : List Nat) : Option (Vector Word n) :=
  if h : ws.length = n ∧ ∀ w ∈ ws, w < 2 ^ 32 then
    some ⟨(ws.map (BitVec.ofNat 32)).toArray, by simp [h.1]⟩
  else none

/-- Words as the numbers of a value. -/
def ofWords {n : Nat} (v : Vector Word n) : List Nat := v.toList.map BitVec.toNat

/-- An array operand of `n` words. -/
def asWords (n : Nat) : Value → Option (Vector Word n)
  | .words ws => toWords n ws
  | _ => none

/-- A vector operand. -/
def asVec : Value → Option VecRec
  | .vec v => some v
  | _ => none

/-- A generator operand: an instance that exists. -/
def asGen (gens : List Gen) : Value → Option Nat
  | .gen id => if id < gens.length then some id else none
  | _ => none

/-- A form operand. -/
def asForm : Value → Option Form
  | .form f => some f
  | _ => none

/-- A named circuit evaluator (45 R262). -/
def asCircuit : Value → Option Nat
  | .circuit c => some c
  | _ => none

/-- A boolean operand. -/
def asBool : Value → Option Bool
  | .bool b => some b
  | _ => none

/-! ### The typed operand record of each operation (30 R104) -/

/-- LCG_NEW: `seed: u64`. -/
def lcgNewArgs (s : State) : Option (BitVec 64) :=
  if keysOk [.seed] s.line.args then typedArg .seed (asNat 64) none s else none

/-- LCG_NEXT: `gen`. -/
def lcgNextArgs (s : State) : Option Nat :=
  if keysOk [.gen] s.line.args then typedArg .gen (asGen s.gens) none s else none

/-- TO_FIXED_BINARY's operands. -/
structure FixedArgs where
  value : Word
  width : Word
  deriving DecidableEq, Repr

/-- TO_FIXED_BINARY: `value: u32`, `width: u32 = 32`. -/
def toFixedArgs (s : State) : Option FixedArgs :=
  if keysOk [.value, .width] s.line.args then
    match typedArg .value (asNat 32) none s, typedArg .width (asNat 32) (some 32#32) s with
    | some v, some w => some ⟨v, w⟩
    | _, _ => none
  else none

/-- FROM_BINARY: `bits: BitString`. -/
def fromBinaryArgs (s : State) : Option BitString :=
  if keysOk [.bits] s.line.args then typedArg .bits asBits none s else none

/-- BUILD_VECTOR's operands. -/
structure BuildArgs where
  gen : Nat
  blockLen : Byte
  flags : Byte
  counterLow : Word
  counterHigh : Word
  chaining : Vector Word 8
  deriving DecidableEq, Repr

/-- BUILD_VECTOR: `block_len` 64, counters 0 and `chaining_value` IV by default; `domain_flags` has none (43 R181). -/
def buildArgs (s : State) : Option BuildArgs :=
  if keysOk [.gen, .b, .d, .t0, .t1, .h] s.line.args then
    match typedArg .gen (asGen s.gens) none s, typedArg .b (asNat 8) (some 64#8) s, typedArg .d (asNat 8) none s,
      typedArg .t0 (asNat 32) (some 0#32) s, typedArg .t1 (asNat 32) (some 0#32) s,
      typedArg .h (asWords 8) (some ivTable) s with
    | some g, some b, some d, some t0, some t1, some h => some ⟨g, b, d, t0, t1, h⟩
    | _, _, _, _, _, _ => none
  else none

/-- SERIALIZE_VECTOR's operands. -/
structure SerializeArgs where
  vec : VecRec
  form : Form
  deriving DecidableEq, Repr

/-- SERIALIZE_VECTOR: `vec`, `form`. -/
def serializeArgs (s : State) : Option SerializeArgs :=
  if keysOk [.vec, .form] s.line.args then
    match typedArg .vec asVec none s, typedArg .form asForm none s with
    | some v, some f => some ⟨v, f⟩
    | _, _ => none
  else none

/-- CHAIN_CV: `out: [u32;16]`. -/
def chainArgs (s : State) : Option (Vector Word 16) :=
  if keysOk [.out] s.line.args then typedArg .out (asWords 16) none s else none

/-- RUN_SUITE's operands. -/
structure SuiteArgs where
  vectors : List VecRec
  circuit : Nat
  deriving DecidableEq, Repr

/-- The operand of type sequence of vectors, a list of names (30 R109). -/
def vectorsArg (s : State) : Option (List VecRec) :=
  match findArg .vectors s.line.args with
  | some (.names ns) => resolveVecs s.env ns
  | some (.name _) | some (.lit _) | none => none

/-- RUN_SUITE: `vectors`, `evaluate_circuit`. -/
def suiteArgs (s : State) : Option SuiteArgs :=
  if keysOk [.vectors, .circuit] s.line.args then
    match vectorsArg s, typedArg .circuit asCircuit none s with
    | some vs, some c => some ⟨vs, c⟩
    | _, _ => none
  else none

/-- RUN_SINGLE's operands. -/
structure SingleArgs where
  vec : VecRec
  prove : Bool
  deriving DecidableEq, Repr

/-- RUN_SINGLE: `vec`, `prove = false`. -/
def singleArgs (s : State) : Option SingleArgs :=
  if keysOk [.vec, .prove] s.line.args then
    match typedArg .vec asVec none s, typedArg .prove asBool (some false) s with
    | some v, some p => some ⟨v, p⟩
    | _, _ => none
  else none

/-- Where COMPRESS takes its request (44 R213): the request registers, or the request given as a vector or field by field. -/
inductive CompressSource where
  | registers
  | request (r : VecRec)
  deriving DecidableEq, Repr

/-- COMPRESS: no operands (the word written to CMD), `v`, or `h, m, t0, t1, b, d` (30 R109, R110). -/
def compressArgs (s : State) : Option CompressSource :=
  if s.line.args = [] then some .registers
  else if keysOk [.vec] s.line.args then (typedArg .vec asVec none s).map .request
  else if keysOk [.h, .m, .t0, .t1, .b, .d] s.line.args then
    match typedArg .h (asWords 8) none s, typedArg .m (asWords 16) none s, typedArg .t0 (asNat 32) none s,
      typedArg .t1 (asNat 32) none s, typedArg .b (asNat 8) none s, typedArg .d (asNat 8) none s with
    | some h, some m, some t0, some t1, some b, some d => some (.request ⟨h, m, t0, t1, b, d⟩)
    | _, _, _, _, _, _ => none
  else none

end Sys2Proof.Machine
end

