-- ==== Sys2Proof/Machine/Generator.lean ====
section
/-! DEFINITION. The sequence generator: LCG_NEW, LCG_NEXT and the overlap of two draws on one instance
(41_generator.md R140 to R148). -/

namespace Sys2Proof.Machine

open Sys2Proof

/-- The multiplier (41 R142). -/
def lcgMultiplier : Nat := 1664525

/-- The increment (41 R142). -/
def lcgIncrement : Nat := 1013904223

/-- The next word, `multiplier * seed + increment` computed exactly and then taken modulo 2^32 (41 R141). -/
def lcgStep (seed : BitVec 64) : Word := BitVec.ofNat 32 (lcgIncrement + lcgMultiplier * seed.toNat)

/-- The state after a draw, which is the word drawn (41 R141). -/
def lcgSeed (seed : BitVec 64) : BitVec 64 := (lcgStep seed).setWidth 64

/-- `k` draws: the words in order, and the seed after them (41 R141, 43 R183). -/
def drawWords : Nat → BitVec 64 → List Word × BitVec 64
  | 0, seed => ([], seed)
  | k + 1, seed =>
    let rest := drawWords k (lcgSeed seed)
    (lcgStep seed :: rest.1, rest.2)

/-- The generator an operand names, if no draw on it is in progress (41 R146). -/
def freeGen (id : Nat) (s : State) : Except Stop Gen :=
  match genAt id s with
  | none => .error (.refused .operandType)
  | some g => if g.user = none then .ok g else .error (.refused .concurrentGeneratorUse)

/-- LCG_NEW (41 R140): a new instance, its seed kept as given. -/
def execLcgNew (s : State) : StepResult :=
  match lcgNewArgs s with
  | none => .refused .operandType
  | some seed => .next (bindResult (.gen s.gens.length) { s with gens := s.gens ++ [⟨seed, none⟩] })

/-- LCG_NEXT (41 R141). -/
def execLcgNext (s : State) : StepResult :=
  match lcgNextArgs s with
  | none => .refused .operandType
  | some id =>
    match freeGen id s with
    | .error x => stopResult x
    | .ok g => .next (bindResult (.int (lcgStep g.seed).toNat) (setGen id { g with seed := lcgSeed g.seed } s))

/-- A worker's LCG_NEXT that lasts beyond one step begins; a second one on the same instance overlaps it (41 R146). -/
def drawBegin (w id : Nat) (s : State) : StepResult :=
  match genAt id s with
  | none => .refused .impossibleEvent
  | some g =>
    if g.user = none then .next (setGen id { g with user := some w } s) else .refused .concurrentGeneratorUse

/-- That LCG_NEXT ends: the draw happens and its word is returned (41 R141, R146). -/
def drawEnd (w id : Nat) (dest : Option Nat) (s : State) : StepResult :=
  match genAt id s with
  | none => .refused .impossibleEvent
  | some g =>
    if g.user = some w then
      .next (bindTo dest (.int (lcgStep g.seed).toNat) (setGen id ⟨lcgSeed g.seed, none⟩ s))
    else .refused .impossibleEvent

end Sys2Proof.Machine
end

