-- ==== Sys2Proof/Machine/Builder.lean ====
section
/-! DEFINITION. The test-vector builder: BUILD_VECTOR (43_vector_builder.md R180 to R187). -/

namespace Sys2Proof.Machine

open Sys2Proof

/-- The legal block lengths: positive multiples of 4 up to 64 (43 R180, R186). -/
def blockLenOk (b : Byte) : Bool := decide (0 < b.toNat ∧ b.toNat ≤ 64 ∧ b.toNat % 4 = 0)

/-- A message block from the words drawn, zeros after them (43 R180, R185). -/
def padMessage (ws : List Word) : Vector Word 16 := Vector.ofFn fun i => ws.getD i.val 0

/-- The vector a build returns: draws in word order, the other operands copied through (43 R183, R184). -/
def builtVector (a : BuildArgs) (seed : BitVec 64) : VecRec where
  h := a.chaining
  m := padMessage (drawWords (a.blockLen.toNat / 4) seed).1
  t0 := a.counterLow
  t1 := a.counterHigh
  b := a.blockLen
  d := a.flags

/-- BUILD_VECTOR (43 R180). The block length is checked before any draw, so a failed build leaves the generator as it was
(43 R182). DESIGN CHOICE (notes/assumptions/13.md), unsafe: all its draws are one step, so no other agent's LCG_NEXT falls
between two of them; 43 R180 and 41 R146 do not say whether one may. -/
def execBuildVector (s : State) : StepResult :=
  match buildArgs s with
  | none => .refused .operandType
  | some a =>
    if blockLenOk a.blockLen then
      match freeGen a.gen s with
      | .error x => stopResult x
      | .ok g =>
        .next (bindResult (.vec (builtVector a g.seed))
          (setGen a.gen { g with seed := (drawWords (a.blockLen.toNat / 4) g.seed).2 } s))
    else .next (raiseError (.invalidBlockLength a.blockLen.toNat) s)

end Sys2Proof.Machine
end

