-- ==== Sys2Proof/Machine/Window.lean ====
section
/-! DEFINITION. The register window: the map from offsets to registers, word reads and writes, and the order of the checks
(20_memory.md R71 to R76, 60_exceptions.md R331). -/

namespace Sys2Proof.Machine

open Sys2Proof

/-- The register at a 4-byte aligned offset; `none` for a reserved offset (20 R71). -/
def windowReg (off : Nat) : Option WinReg :=
  let k := off / 4
  if h : k < 8 then some (.hIn ⟨k, h⟩)
  else if h : k < 24 then some (.mIn ⟨k - 8, by omega⟩)
  else if k = 24 then some .t0In
  else if k = 25 then some .t1In
  else if k = 26 then some .bIn
  else if k = 27 then some .dIn
  else if k = 28 then some .cmd
  else if k = 29 then some .status
  else if h : 32 ≤ k ∧ k < 48 then some (.out ⟨k - 32, by omega⟩)
  else none

/-- The window page of an address, the page whose window holds it (20 R71: `ENGINE_BASE` is 256 * page). -/
def pageOf (addr : Nat) : Nat := addr / 256

/-- The offset of an address in its window. -/
def offsetOf (addr : Nat) : Nat := addr % 256

/-- Width and alignment: only 4-byte accesses at multiples of 4 (20 R73). -/
def accessShape (off size : Nat) : Bool := size == 4 && off % 4 == 0

/-- A request register's value, or the fault of one never written (10 R49). -/
def reqRead {w : Nat} (name : WinReg) (r : ReqReg w) : Except Stop (BitVec w) :=
  if r.written then .ok r.val else .error (.fault (.readNoValue (.win name)))

/-- The reasons under which the spec refuses: one for each refusal of 60 R322, but a read of CMD has two, of 20 R72 and of
60 R322 (notes/assumptions/9.md), and a refusal that stands outside that table has none. -/
def refusalReasons : Refusal → List Reason
  | .reservedOp => [.reservedOp]
  | .nonZeroOperandField => [.nonZeroOperandField]
  | .illegalGFields => [.illegalGFields]
  | .notACommand => [.notACommand]
  | .windowAccess off => [.windowAccess off]
  | .cmdRead => [.windowAccess 0x70, .notACommand]
  | .operandType => [.operandType]
  | .concurrentGeneratorUse => [.concurrentGeneratorUse]
  | .interleavedWindowAccess => [.interleavedWindowAccess]
  | _ => []

/-- The register a read may take, after the refusals (60 R331, first two). A read of CMD is refused under both reasons the
spec gives it. DESIGN CHOICE (notes/assumptions/9.md), safe. -/
def readTarget (off size : Nat) : Except Stop WinReg :=
  if accessShape off size then
    match windowReg off with
    | none => .error (.refused (.windowAccess off))
    | some .cmd => .error (.refused .cmdRead)
    | some r => .ok r
  else .error (.refused (.windowAccess off))

/-- The register a write may take, after the refusals (60 R331, first two): STATUS and OUT are read-only. -/
def writeTarget (off size : Nat) : Except Stop WinReg :=
  if accessShape off size then
    match windowReg off with
    | none => .error (.refused (.windowAccess off))
    | some .status => .error (.refused (.windowAccess off))
    | some (.out _) => .error (.refused (.windowAccess off))
    | some r => .ok r
  else .error (.refused (.windowAccess off))

/-- The word a read of a window register gives (20 R72). V, MS and HL are not host-visible and have no offset
(10 R40 to R42); CMD cannot be read. -/
def readReg (e : Engine) : WinReg → Except Stop Word
  | .hIn i => reqRead (.hIn i) e.hIn[i]
  | .mIn i => reqRead (.mIn i) e.mIn[i]
  | .t0In => reqRead .t0In e.t0In
  | .t1In => reqRead .t1In e.t1In
  | .bIn => (reqRead .bIn e.bIn).map zext32
  | .dIn => (reqRead .dIn e.dIn).map zext32
  | .status => .ok e.status.word
  | .out i => if e.status.outValid then .ok e.out[i] else .error (.fault (.readNoValue (.win (.out i))))
  | .cmd => .error (.refused .cmdRead)

/-- A write of a request register: `B_IN` and `D_IN` keep bits [7:0] (20 R72, 92 D10). Other registers are not written. -/
def writeReg (r : WinReg) (v : Word) (e : Engine) : Engine :=
  match r with
  | .hIn i => { e with hIn := e.hIn.set i (e.hIn[i].put v) }
  | .mIn i => { e with mIn := e.mIn.set i (e.mIn[i].put v) }
  | .t0In => { e with t0In := e.t0In.put v }
  | .t1In => { e with t1In := e.t1In.put v }
  | .bIn => { e with bIn := e.bIn.put (v.extractLsb' 0 8) }
  | .dIn => { e with dIn := e.dIn.put (v.extractLsb' 0 8) }
  | .cmd | .status | .out _ => e

/-- Worker `w` takes the window of the instance addressed (20 R86). -/
def claim (w : Nat) (s : State) : Except Stop State :=
  match claimWindow w s.engine with
  | none => .error (.refused .interleavedWindowAccess)
  | some e => .ok (setEngine e s)

/-- A read of the window of the instance addressed: the word, and the state, in which only the window's ownership may have
changed (20 R72, R75). 60 R331 orders the checks but gives InterleavedWindowAccess no place among them; it stands after both
WindowAccess refusals and before ReadNoValue. DESIGN CHOICE (notes/assumptions/12.md), safe. -/
def windowRead (w off size : Nat) (s : State) : Except Stop (Word × State) :=
  match readTarget off size with
  | .error x => .error x
  | .ok r =>
    match claim w s with
    | .error x => .error x
    | .ok t =>
      match readReg t.engine r with
      | .error x => .error x
      | .ok v => .ok (v, t)

/-- A MemRead at an address, its value bound to the name given (20 R72). -/
def memRead (w addr size : Nat) (dest : Option Nat) (s : State) : StepResult :=
  withEngine (pageOf addr) (.outsideWindow addr) s fun t =>
    match windowRead w (offsetOf addr) size t with
    | .error x => stopResult x
    | .ok (v, u) => .next (bindTo dest (.int v.toNat) u)

/-- A turn for every engine that is not idle. -/
def engineTurns (s : State) : List Event :=
  ((s.engine :: s.others).filter fun e => e.seq != .idle).map fun e => .engine e.page

/-- The poll loop of 20 R77: read STATUS; go on when OUT_VALID is 1, else read again after a turn of every engine that is not
idle, so that polling starves none (70 R362; see notes/assumptions/20.md). -/
def pollStatus (w addr : Nat) (s : State) : StepResult :=
  withEngine (pageOf addr) (.outsideWindow addr) s fun t =>
    match windowRead w (offsetOf addr) 4 t with
    | .error x => stopResult x
    | .ok (v, u) =>
      if v.getLsbD 1 then .next u
      else .next { u with agenda := engineTurns u ++ .poll w addr :: u.agenda }

/-- One of the sixteen reads of OUT that end the host sequence of 20 R77; the last one returns the output. -/
def readOut (w page : Nat) (got : List Nat) (dest : Option Nat) (s : State) : StepResult :=
  withEngine page .impossibleEvent s fun t =>
    match windowRead w (0x80 + 4 * got.length) 4 t with
    | .error x => stopResult x
    | .ok (v, u) =>
      if got.length = 15 then .next (bindTo dest (.words (got ++ [v.toNat])) u)
      else .next { u with agenda := .readOut w page (got ++ [v.toNat]) dest :: u.agenda }

end Sys2Proof.Machine
end

