-- ==== Sys2Proof/Machine/Compression.lean ====
section
/-! DEFINITION. The engine family: COMPRESS, INIT, G, ROUND, PERMUTE, FINALIZE and CHAIN_CV (44_compression_engine.md R203 to
R217). Each acts on the instance addressed, `State.engine`. -/

namespace Sys2Proof.Machine

open Sys2Proof

/-- A step that needs V, MS and HL faults where INIT never wrote them (10 R49). -/
def whenLatched (r : Reg) (s : State) (f : Engine → Engine) : StepResult :=
  if s.engine.latched then .next (setEngine (f s.engine) s) else .fault (.readNoValue r)

/-- A COMPRESS that finds its engine busy holds: it takes no step, and the hold is recorded (60 R321). -/
def holdBusy (s : State) : State := { s with hold := some (.cmdWhileBusy s.engine.page) }

/-- After a compression of a request as one step, its output returned (44 R213, transaction view). -/
def compressTransaction (r : VecRec) (s : State) : State :=
  if s.engine.status.busy then holdBusy s
  else bindResult (.words (ofWords (compress r))) (setEngine (transactEngine r s.engine) s)

/-- After a COMPRESS command is taken in the sequenced view (44 R214). -/
def compressCommand (r : VecRec) (s : State) : State :=
  if s.engine.status.busy then holdBusy s else setEngine (commandEngine r s.engine) s

/-- The window expansion of a COMPRESS of a request (30 R110): the host sequence of 20 R77, by worker `w` in the window at
`page`. -/
def hostSequence (w page : Nat) (r : VecRec) (dest : Option Nat) : List Event :=
  let base := 256 * page
  (List.finRange 8).map (fun i => .write w (base + 4 * i.val) 4 r.h[i])
    ++ (List.finRange 16).map (fun i => .write w (base + (0x20 + 4 * i.val)) 4 r.m[i])
    ++ [.write w (base + 0x60) 4 r.t0, .write w (base + 0x64) 4 r.t1, .write w (base + 0x68) 4 (zext32 r.b),
        .write w (base + 0x6C) 4 (zext32 r.d), .write w (base + 0x70) 4 0x01000000#32, .poll w (base + 0x74),
        .readOut w page [] dest]

/-- A COMPRESS of a request in the sequenced view: the host goes on with its window expansion (30 R110, 20 R77). -/
def expandCompress (r : VecRec) (s : State) : State :=
  { s with agenda := hostSequence s.line.worker s.engine.page r s.line.dest ++ s.agenda }

/-- COMPRESS (44 R213, R214). `COMPRESS_STEPS` says in which view it runs (70 R360). In the transaction view it is one step,
on the request of its operand record or on the request registers. In the sequenced view a request expands to the host
sequence (30 R110), and with no operand, the word written to CMD, COMPRESS starts the sequencer on the request registers. DESIGN CHOICE
(notes/assumptions/33.md), safe: the name a line with no operand record gives its result, a form 30 R109 does not have, is bound
to OUT in the transaction view and to nothing in the sequenced view. An unwritten request field faults before the hold is
considered (60 R331). DESIGN CHOICE (notes/assumptions/30.md), safe: the
refusal of a COMPRESS before the tables are loaded stands after OperandType, and after InterleavedWindowAccess where the COMPRESS
is an access to the window, and before ReadNoValue and the hold. -/
def execCompress (s : State) : StepResult :=
  match compressArgs s with
  | none => .refused .operandType
  | some src =>
    if s.engine.tablesReady then
      match src with
      | .request r =>
        .next (match s.params.view with
          | .transaction => compressTransaction r s
          | .sequenced => expandCompress r s)
      | .registers =>
        match readRequest s.engine with
        | .error x => .fault (.readNoValue (.win x))
        | .ok r =>
          .next (match s.params.view with
            | .transaction => compressTransaction r s
            | .sequenced => compressCommand r s)
    else .refused .tablesNotLoaded

/-- INIT (44 R204): HL, MS and V from the request registers. -/
def execInit (s : State) : StepResult :=
  match readRequest s.engine with
  | .error x => .fault (.readNoValue (.win x))
  | .ok r => .next (setEngine (latchRequest r s.engine) s)

/-- G (44 R207): one mixing call. An operand tuple outside the call table is refused (30 R103). -/
def execG (a b c d x y : Nibble) (s : State) : StepResult :=
  if legalG.contains ⟨a, b, c, d, x, y⟩ then
    whenLatched .v s fun e => { e with v := gCall e.ms e.v ⟨a, b, c, d, x, y⟩ }
  else .refused .illegalGFields

/-- ROUND (44 R208). -/
def execRound (s : State) : StepResult :=
  whenLatched .v s fun e => { e with v := roundV e.ms e.v }

/-- PERMUTE (44 R210). -/
def execPermute (s : State) : StepResult :=
  whenLatched .ms s fun e => { e with ms := permuteMs e.ms }

/-- FINALIZE (44 R212), which also lifts a hold that waits for it (60 R321). -/
def execFinalize (s : State) : StepResult :=
  if s.engine.latched then .next (liftHold (setEngine (finalizeEngine s.engine) s)) else .fault (.readNoValue .v)

/-- The new chaining value: the first eight output words, with no further XOR (44 R217, 90 C1). -/
def chainingValue (out : Vector Word 16) : Vector Word 8 := Vector.ofFn fun i => out[i.val]'(by omega)

/-- CHAIN_CV (44 R217). -/
def execChainCv (s : State) : StepResult :=
  match chainArgs s with
  | none => .refused .operandType
  | some out => .next (bindResult (.words (ofWords (chainingValue out))) s)

end Sys2Proof.Machine
end

