-- ==== Sys2Proof/Machine/Serialize.lean ====
section
/-! DEFINITION. Bit serialization and the external forms of a vector: TO_FIXED_BINARY, FROM_BINARY, SERIALIZE_VECTOR
(42_serialization.md R160 to R166, 20_memory.md R79, R80). -/

namespace Sys2Proof.Machine

open Sys2Proof

/-- The low `width` bits of a word, most significant first, zeros above bit 31 (42 R160). -/
def fixedBits : Nat → Word → BitString
  | 0, _ => []
  | width + 1, w => w.getLsbD width :: fixedBits width w

/-- `to_fixed_binary` (42 R160): an error where the value does not fit, never a truncated string (42 R164). -/
def toFixedBinary (value : Word) (width : Nat) : Except ErrorKind BitString :=
  if width < 32 ∧ 2 ^ width ≤ value.toNat then .error (.serializationRange value.toNat width)
  else .ok (fixedBits width value)

/-- The exact number a bit string spells (42 R161). -/
def bitsValue (bs : BitString) : Nat := bs.foldl (fun x b => 2 * x + b.toNat) 0

/-- `from_binary` (42 R161). -/
def fromBinary (bs : BitString) : Except ErrorKind Word :=
  if bitsValue bs < 2 ^ 32 then .ok (BitVec.ofNat 32 (bitsValue bs))
  else .error (.serializationRange (bitsValue bs) 32)

/-- `BD_SER_WIDTH` as a number (20 R80). -/
def bdSerWidth : BdWidth → Nat
  | .w8 => 8
  | .w32 => 32

/-- The bit-vector form of a vector (20 R80, 42 R165). Every field fits its width, so no error can arise. -/
def bitForm (bd : BdWidth) (v : VecRec) : BitForm where
  h := v.h.toList.map (fixedBits 32)
  m := v.m.toList.map (fixedBits 32)
  t := [fixedBits 32 v.t0, fixedBits 32 v.t1]
  b := fixedBits (bdSerWidth bd) (zext32 v.b)
  d := fixedBits (bdSerWidth bd) (zext32 v.d)

/-! ### The vector record as a JSON object (20 R79) -/

/-- A number in decimal. -/
def decimal (n : Nat) : Text := Nat.toDigits 10 n

/-- Texts with a comma between them. -/
def commaJoin : List Text → Text
  | [] => []
  | [t] => t
  | t :: ts => t ++ ',' :: commaJoin ts

/-- A JSON array. -/
def jsonArray (ts : List Text) : Text := '[' :: commaJoin ts ++ [']']

/-- A JSON member: a one-letter key and its value. -/
def jsonMember (key : Char) (value : Text) : Text := '"' :: key :: '"' :: ':' :: value

/-- A JSON object; its braces are the characters 123 and 125. -/
def jsonObject (members : List Text) : Text := Char.ofNat 123 :: commaJoin members ++ [Char.ofNat 125]

/-- The record of a vector: keys h, m, b, d, t; decimal integers; `t` is `[t0, t1]`, low word first (20 R79, 42 R165). -/
def vectorRecord (v : VecRec) : Text :=
  jsonObject
    [jsonMember 'h' (jsonArray (v.h.toList.map fun w => decimal w.toNat)),
     jsonMember 'm' (jsonArray (v.m.toList.map fun w => decimal w.toNat)),
     jsonMember 'b' (decimal v.b.toNat),
     jsonMember 'd' (decimal v.d.toNat),
     jsonMember 't' (jsonArray [decimal v.t0.toNat, decimal v.t1.toNat])]

/-- A vector file of several vectors: a JSON array of records, by index (20 R79). -/
def vectorFile (vs : List VecRec) : Text := jsonArray (vs.map vectorRecord)

/-! ### The operations -/

/-- A host operation that returns a value or an error kind (60 R302, R310). -/
def returnOr (f : α → Value) (r : Except ErrorKind α) (s : State) : StepResult :=
  match r with
  | .ok a => .next (bindResult (f a) s)
  | .error e => .next (raiseError e s)

/-- TO_FIXED_BINARY (42 R160). -/
def execToFixedBinary (s : State) : StepResult :=
  match toFixedArgs s with
  | none => .refused .operandType
  | some a => returnOr (fun bs => .chars (textOfBits bs)) (toFixedBinary a.value a.width.toNat) s

/-- FROM_BINARY (42 R161). -/
def execFromBinary (s : State) : StepResult :=
  match fromBinaryArgs s with
  | none => .refused .operandType
  | some bs => returnOr (fun w => .int w.toNat) (fromBinary bs) s

/-- The external form asked for (42 R165). -/
def serializeAs (bd : BdWidth) (v : VecRec) : Form → Value
  | .record => .record (vectorRecord v)
  | .bits => .bitForm (bitForm bd v)

/-- SERIALIZE_VECTOR (42 R165). -/
def execSerializeVector (s : State) : StepResult :=
  match serializeArgs s with
  | none => .refused .operandType
  | some a => .next (bindResult (serializeAs s.params.bdWidth a.vec a.form) s)

end Sys2Proof.Machine
end

