-- ==== Sys2Proof/Machine/Oracle.lean ====
section
/-! DEFINITION. The differential oracle: external calls with their timeout and one retry, RUN_SUITE as one step and in the
interleaved view, suite abort, and RUN_SINGLE in the same two ways (45_oracle.md R260 to R274, 60_exceptions.md R311, R330). -/

namespace Sys2Proof.Machine

open Sys2Proof

/-! ### External calls (45 R262, R267) -/

/-- `EXTERNAL_TIMEOUT` (92 D24), positive. -/
def externalTimeout (p : Params) : Nat := p.timeoutPred + 1

/-- `N_WORKERS` (92 D26), at least 1. -/
def nWorkers (p : Params) : Nat := p.workersPred + 1

/-- How one attempt of a call ended (45 R267). -/
inductive CallResult where
  | value (out : ToolOutput) (stdout stderr : Text)
  | toolFailure (status : ExitStatus) (stdout stderr : Text)
  | timeout
  deriving DecidableEq, Repr

/-- How the next attempt ends: as has arrived, else with a free value (notes/assumptions/14.md). `none`: a suite abort arrives
while its process is alive (45 R271). -/
def drawAttempt (c : ExtCall) (x : Inputs) : Option Attempt × Inputs :=
  match x.answers with
  | .answer a :: rest => (some a, { x with answers := rest })
  | .abort :: rest => (none, { x with answers := rest })
  | [] => (some (Config.attempt c x.draws), { x with draws := x.draws + 1 })

/-- The next clock reading: the next one that has arrived, else a free value (60 R338). -/
def drawClock (x : Inputs) : Nat × Inputs :=
  match x.clocks with
  | t :: rest => (t, { x with clocks := rest })
  | [] => (Config.clock x.draws, { x with draws := x.draws + 1 })

/-- What an attempt counts as: ended by the timeout, a failure, or a value (45 R267, R268). -/
def classify (limit : Nat) (a : Attempt) : CallResult :=
  if limit < a.elapsed then .timeout
  else
    match a.exit with
    | .raised msg => .toolFailure (.raised msg) a.stdout a.stderr
    | .exited code out =>
      if code = 0 then .value out a.stdout a.stderr else .toolFailure (.exited code) a.stdout a.stderr

/-- An external call: the first timeout is retried once, with a fresh process, and the retry is final (45 R267). `none`: a
suite abort killed its process (45 R271). -/
def callExternal (p : Params) (c : ExtCall) (x : Inputs) : Option CallResult × Inputs :=
  match drawAttempt c x with
  | (none, y) => (none, y)
  | (some a, y) =>
    match classify (externalTimeout p) a with
    | .timeout => ((drawAttempt c y).1.map (classify (externalTimeout p)), (drawAttempt c y).2)
    | .value out o e => (some (.value out o e), y)
    | .toolFailure st o e => (some (.toolFailure st o e), y)

/-- A suite abort kills every running external process: those of the suite under way, which returns no SuiteResult, and those
of RUN_SINGLE (45 R271, 70 R356). DESIGN CHOICE (notes/assumptions/32.md), unsafe: a RUN_SINGLE whose process is killed ends and
returns no report. -/
def killExternal (s : State) : State := { s with suite := none, singles := [] }

/-! ### Judging one vector (45 R260, R263, R268, 60 R330) -/

/-- The words of a circuit's bit strings, each parsed by FROM_BINARY (42 R166). -/
def parseBits : List Text → Option (List Nat)
  | [] => some []
  | t :: ts =>
    match bitsOfText t, parseBits ts with
    | some bs, some ws =>
      match fromBinary bs with
      | .ok w => some (w.toNat :: ws)
      | .error _ => none
    | _, _ => none

/-- A circuit's answer as 16 words of 32 bits, if it is that (45 R260, R268). -/
def parseOutput : ToolOutput → Option (Vector Word 16)
  | .words ws => toWords 16 ws
  | .bits ss => (parseBits ss).bind (toWords 16)

/-- The indices at which two outputs differ, ascending (45 R260). -/
def diffIndices (expected actual : Vector Word 16) : List (Fin 16) :=
  (List.finRange 16).filter fun i => expected[i] != actual[i]

/-- Comparison of the engine's output with the circuit's (45 R260, R263). -/
def compareOutputs (v : VecRec) (expected actual : Vector Word 16) : SuiteOutcome :=
  let diff := diffIndices expected actual
  if diff = [] then .pass
  else .failed (.outputMismatch v (diff.map Fin.val) (diff.map fun i => expected[i]) (diff.map fun i => actual[i]))

/-- The outcome of a vector from what its external call gave: a failure or timeout is the outcome and nothing is compared
(60 R330). -/
def judge (v : VecRec) : CallResult → SuiteOutcome
  | .timeout => .failed (.externalTimeout v 2)
  | .toolFailure st o e => .failed (.externalToolFailure v st o e)
  | .value out o e =>
    match parseOutput out with
    | none => .failed (.externalToolFailure v .malformed o e)
    | some actual => compareOutputs v (compress v) actual

/-! ### RUN_SUITE as one step (45 R260) -/

/-- The outcomes of a suite's vectors, in index order, and the inputs left; `none`: a suite abort arrived. -/
def suiteOutcomes (p : Params) (c : Nat) : List VecRec → Inputs → Option (List SuiteOutcome) × Inputs
  | [], x => (some [], x)
  | v :: vs, x =>
    match callExternal p (.circuit c v) x with
    | (none, y) => (none, y)
    | (some r, y) =>
      let rest := suiteOutcomes p c vs y
      (rest.1.map (judge v r :: ·), rest.2)

/-- Index each outcome from `k` on. -/
def indexFrom : Nat → List SuiteOutcome → List (Nat × SuiteOutcome)
  | _, [] => []
  | k, o :: os => (k, o) :: indexFrom (k + 1) os

/-- SuiteResult: outcomes by ascending index, and whether every one is PASS (45 R265). -/
def suiteResult (os : List SuiteOutcome) : SuiteResult := ⟨indexFrom 0 os, os.all (· == .pass)⟩

/-- RUN_SUITE (45 R260). Its COMPRESS of a vector is refused while the tables of the instance addressed are not loaded
(70 R345; which instance's tables count is notes/assumptions/19.md's); a suite of no vector makes no COMPRESS. A suite abort
that arrives while one of its processes is alive kills every process and no SuiteResult is returned (45 R271). DESIGN CHOICE
(notes/assumptions/16.md), unsafe: its compressions touch no instance of the state. -/
def execRunSuite (s : State) : StepResult :=
  match suiteArgs s with
  | none => .refused .operandType
  | some a =>
    if s.engine.tablesReady || a.vectors.isEmpty then
      .next (match suiteOutcomes s.params a.circuit a.vectors s.inputs with
        | (none, x) => killExternal { s with inputs := x }
        | (some os, x) => bindResult (.suite (suiteResult os)) { s with inputs := x })
    else .refused .tablesNotLoaded

/-! ### RUN_SUITE in the interleaved view (45 R266, R271, 10 R52, R53(c)) -/

/-- The suite opens: its accumulator is empty (10 R52). A suite already under way is not disturbed. -/
def suiteOpen (line : Line) (s : State) : StepResult :=
  match s.suite with
  | some _ => .refused .impossibleEvent
  | none =>
    match suiteArgs { s with line := line } with
    | none => .refused .operandType
    | some a =>
      .next { s with line := line, suite := some ⟨a.circuit, a.vectors.map fun v => ⟨v, 0, false, none⟩, line.dest⟩ }

/-- The suite's live external processes. -/
def liveProcesses (slots : List SuiteSlot) : Nat := slots.countP fun x => x.running

/-- Replace the slot of vector `j`. -/
def setSlot (j : Nat) (x : SuiteSlot) (u : Suite) : Suite := { u with slots := u.slots.set j x }

/-- A worker starts the evaluation of vector `j`, that is its COMPRESS, refused while the tables are not loaded (70 R345), and
its external process: at most `N_WORKERS` run at once (45 R266). -/
def suiteLaunch (j : Nat) (s : State) : StepResult :=
  match s.suite with
  | none => .refused .impossibleEvent
  | some u =>
    match u.slots[j]? with
    | none => .refused .impossibleEvent
    | some x =>
      if x.running = false ∧ x.outcome = none ∧ liveProcesses u.slots < nWorkers s.params then
        if s.engine.tablesReady then .next { s with suite := some (setSlot j { x with running := true } u) }
        else .refused .tablesNotLoaded
      else .refused .impossibleEvent

/-- A vector's slot after its process ended: the first timeout leaves it to be started afresh, anything else is final
(45 R267). -/
def slotAfter (r : CallResult) (x : SuiteSlot) : SuiteSlot :=
  if r = .timeout ∧ x.retries = 0 then { x with running := false, retries := 1 }
  else { x with running := false, outcome := some (judge x.vec r) }

/-- The external process of vector `j` ends, or a suite abort arrives while it is alive. -/
def suiteAnswer (j : Nat) (s : State) : StepResult :=
  match s.suite with
  | none => .refused .impossibleEvent
  | some u =>
    match u.slots[j]? with
    | none => .refused .impossibleEvent
    | some x =>
      if x.running then
        match drawAttempt (.circuit u.circuit x.vec) s.inputs with
        | (none, y) => .next (killExternal { s with inputs := y })
        | (some a, y) => .next { s with
            suite := some (setSlot j (slotAfter (classify (externalTimeout s.params) a) x) u)
            inputs := y }
      else .refused .impossibleEvent

/-- The outcomes of a suite, once every vector has one. -/
def finishedOutcomes : List SuiteSlot → Option (List SuiteOutcome)
  | [] => some []
  | x :: xs =>
    match x.outcome, finishedOutcomes xs with
    | some o, some os => some (o :: os)
    | _, _ => none

/-- The suite returns its SuiteResult and its accumulator is discarded (10 R52). -/
def suiteClose (s : State) : StepResult :=
  match s.suite with
  | none => .refused .impossibleEvent
  | some u =>
    match finishedOutcomes u.slots with
    | none => .refused .impossibleEvent
    | some os => .next (bindTo u.dest (.suite (suiteResult os)) { s with suite := none })

/-- A suite abort between two steps, which may occur at any time (45 R271, 92 D29). -/
def suiteAbort (s : State) : StepResult := .next (killExternal s)

/-! ### RUN_SINGLE (45 R270) -/

/-- The failure kind of a stage, none where the call gave a value (45 R270). DESIGN CHOICE (notes/assumptions/34.md), unsafe:
a stage that timed out reports no stdout and stderr, as ExternalTimeout records none (45 R267, 60 R300). -/
def stageFailure (v : VecRec) : CallResult → Option ErrorKind
  | .value _ _ _ => none
  | .toolFailure st o e => some (.externalToolFailure v st o e)
  | .timeout => some (.externalTimeout v 2)

/-- A stage that ended, with its elapsed time, a free clock reading (45 R270, 60 R338). -/
def endStage (v : VecRec) (r : CallResult) (x : Inputs) : Stage × Inputs :=
  (⟨stageFailure v r, (drawClock x).1⟩, (drawClock x).2)

/-- One stage: the call and its elapsed time; `none`: a suite abort arrived. -/
def runStage (p : Params) (v : VecRec) (c : ExtCall) (x : Inputs) : Option Stage × Inputs :=
  match callExternal p c x with
  | (none, y) => (none, y)
  | (some r, y) => (some (endStage v r y).1, (endStage v r y).2)

/-- The proof stage runs only when asked for and only after a successful witness stage (45 R270, 92 D27). -/
def wantsProof (prove : Bool) (w : Stage) : Bool := prove && w.failure.isNone

/-- The stages of RUN_SINGLE; `none`: a suite abort arrived. -/
def runSingle (p : Params) (a : SingleArgs) (x : Inputs) : Option SingleReport × Inputs :=
  match runStage p a.vec (.witness (vectorRecord a.vec)) x with
  | (none, y) => (none, y)
  | (some w, y) =>
    if wantsProof a.prove w then
      let q := runStage p a.vec (.proof (vectorRecord a.vec)) y
      (q.1.map fun q => ⟨w, some q⟩, q.2)
    else (some ⟨w, none⟩, y)

/-- RUN_SINGLE (45 R270) as one step. It does not call COMPRESS and compares nothing. A suite abort that arrives while one of
its processes is alive kills every process (45 R271, 70 R356). -/
def execRunSingle (s : State) : StepResult :=
  match singleArgs s with
  | none => .refused .operandType
  | some a =>
    .next (match runSingle s.params a s.inputs with
      | (none, x) => killExternal { s with inputs := x }
      | (some rep, x) => bindResult (.single rep) { s with inputs := x })

/-! ### RUN_SINGLE in the interleaved view (45 R267, R270, R271, 10 R53(c)) -/

/-- The RUN_SINGLE a worker has under way. -/
def findSingle (w : Nat) (xs : List SingleRun) : Option SingleRun := xs.find? (·.worker == w)

/-- Replace the RUN_SINGLE of a worker. -/
def setSingle (x : SingleRun) (xs : List SingleRun) : List SingleRun := xs.map fun y => if y.worker = x.worker then x else y

/-- Take the RUN_SINGLE of a worker out. -/
def dropSingle (w : Nat) (xs : List SingleRun) : List SingleRun := xs.filter (·.worker != w)

/-- The external call a RUN_SINGLE waits for. -/
def singleCall (x : SingleRun) : ExtCall :=
  match x.witness with
  | none => .witness (vectorRecord x.vec)
  | some _ => .proof (vectorRecord x.vec)

/-- A worker starts a RUN_SINGLE and the process of its witness stage; it has none under way. -/
def singleOpen (line : Line) (s : State) : StepResult :=
  match findSingle line.worker s.singles with
  | some _ => .refused .impossibleEvent
  | none =>
    match singleArgs { s with line := line } with
    | none => .refused .operandType
    | some a => .next { s with line := line, singles := s.singles ++ [⟨line.worker, line.dest, a.vec, a.prove, none, 0⟩] }

/-- The report is returned and the RUN_SINGLE is over. -/
def reportSingle (x : SingleRun) (rep : SingleReport) (s : State) : State :=
  bindTo x.dest (.single rep) { s with singles := dropSingle x.worker s.singles }

/-- A stage of a RUN_SINGLE has ended: the process of its proof stage starts, or the report is returned. -/
def stageEnded (x : SingleRun) (st : Stage) (s : State) : State :=
  match x.witness with
  | some w => reportSingle x ⟨w, some st⟩ s
  | none =>
    if wantsProof x.prove st then { s with singles := setSingle { x with witness := some st, retries := 0 } s.singles }
    else reportSingle x ⟨st, none⟩ s

/-- The external process of a worker's RUN_SINGLE ends, or a suite abort arrives while it is alive. A first timeout starts a
fresh process, anything else ends the stage (45 R267). -/
def singleAnswer (w : Nat) (s : State) : StepResult :=
  match findSingle w s.singles with
  | none => .refused .impossibleEvent
  | some x =>
    match drawAttempt (singleCall x) s.inputs with
    | (none, y) => .next (killExternal { s with inputs := y })
    | (some a, y) =>
      let r := classify (externalTimeout s.params) a
      if r = .timeout ∧ x.retries = 0 then
        .next { s with singles := setSingle { x with retries := 1 } s.singles, inputs := y }
      else .next (stageEnded x (endStage x.vec r y).1 { s with inputs := (endStage x.vec r y).2 })

end Sys2Proof.Machine
end

