-- ==== Sys2Proof/Machine/Dispatch.lean ====
section
/-! DEFINITION. exec: one arm per operation, each a call of its meaning. -/

namespace Sys2Proof.Machine

open Sys2Proof

def exec (i : Instr) (s : State) : Host.Outcome State Fault Refusal :=
  match i with
  -- engine command and micro-operations
  | .compress => Sys2Proof.Machine.execCompress s
  | .init => Sys2Proof.Machine.execInit s
  | .g a b c d x y => Sys2Proof.Machine.execG a b c d x y s
  | .round => Sys2Proof.Machine.execRound s
  | .permute => Sys2Proof.Machine.execPermute s
  | .finalize => Sys2Proof.Machine.execFinalize s
  -- host operations
  | .lcgNew => Sys2Proof.Machine.execLcgNew s
  | .lcgNext => Sys2Proof.Machine.execLcgNext s
  | .toFixedBinary => Sys2Proof.Machine.execToFixedBinary s
  | .fromBinary => Sys2Proof.Machine.execFromBinary s
  | .buildVector => Sys2Proof.Machine.execBuildVector s
  | .serializeVector => Sys2Proof.Machine.execSerializeVector s
  | .runSuite => Sys2Proof.Machine.execRunSuite s
  | .runSingle => Sys2Proof.Machine.execRunSingle s
  | .chainCv => Sys2Proof.Machine.execChainCv s

end Sys2Proof.Machine
end

