-- ==== Sys2Proof/Machine/Randomized.lean ====
section
/-! DEFINITION. The randomized property's parameters and the host program that runs it (00_scope.md R7, R8, 45_oracle.md R274,
92_eei_decisions.md D25). -/

namespace Sys2Proof.Machine

open Sys2Proof

/-- The number of vectors of the randomized property (00 R7, 45 R274). -/
def randVectorCount : Nat := 100

/-- `RAND_B`: the block lengths drawn from (92 D25). -/
def randB : Vector Byte 16 := #v[4, 8, 12, 16, 20, 24, 28, 32, 36, 40, 44, 48, 52, 56, 60, 64]

/-- `RAND_D`: the domain flags drawn from (92 D25). `RAND_T` is every word, for each half of the counter. -/
def randD : Vector Byte 4 := #v[0, 1, 2, 3]

/-- The next draw of `RAND_SOURCE`: the next one that has arrived, else a free value (notes/assumptions/27.md). -/
def drawRand (x : Inputs) : RandDraw × Inputs :=
  match x.rands with
  | r :: rest => (r, { x with rands := rest })
  | [] => (Config.randSource x.draws, { x with draws := x.draws + 1 })

/-- `n` draws of `RAND_SOURCE`. -/
def drawRands : Nat → Inputs → List RandDraw × Inputs
  | 0, x => ([], x)
  | n + 1, x =>
    let r := drawRand x
    let rest := drawRands n r.2
    (r.1 :: rest.1, rest.2)

/-- The operand record of the BUILD_VECTOR of one draw, from the generator bound to the name `gen`: block length, flags and counter are drawn, `h` is IV by default and
the message comes from the generator (45 R274). -/
def randArgs (gen : Nat) (r : RandDraw) : List (Key × Arg) :=
  [(.gen, .name gen), (.b, .lit (.int randB[r.b].toNat)), (.d, .lit (.int randD[r.d].toNat)),
   (.t0, .lit (.int r.t0.toNat)), (.t1, .lit (.int r.t1.toNat))]

/-- One BUILD_VECTOR for each draw, bound to the names from `base` on. -/
def randBuilds (w gen : Nat) : Nat → List RandDraw → List Event
  | _, [] => []
  | name, r :: rs => .word ⟨.host, w, none, randArgs gen r, some name⟩ 0x14000000#32 :: randBuilds w gen (name + 1) rs

/-- The host program of the randomized property: the vectors are built and one RUN_SUITE runs over them (45 R274). -/
def randomizedProgram (w gen circuit base : Nat) (dest : Option Nat) (rs : List RandDraw) : List Event :=
  randBuilds w gen base rs ++
    [.word ⟨.host, w, none,
      [(.vectors, .names ((List.range rs.length).map (base + ·))), (.circuit, .lit (.circuit circuit))], dest⟩ 0x16000000#32]

/-- A worker starts the randomized property: the operands are drawn and its program is what happens next (45 R274). -/
def runRandomized (w gen circuit base : Nat) (dest : Option Nat) (s : State) : StepResult :=
  let r := drawRands randVectorCount s.inputs
  .next { s with inputs := r.2, agenda := randomizedProgram w gen circuit base dest r.1 ++ s.agenda }

end Sys2Proof.Machine
end

