-- ==== Sys2Proof/Machine/Agents.lean ====
section
/-! DEFINITION. What the agents do: issuing a command word, CMD writes, the engine's micro-sequencer, reset, loading of
tables, and the meaning of every agenda event (30_encoding.md R101, R106, 44_compression_engine.md R214,
60_exceptions.md R320, R321, 70_reset_and_hazards.md R340 to R345). -/

namespace Sys2Proof.Machine

open Sys2Proof

/-- A decoder's refusal as the machine's (60 R322). -/
def decodeRefusal : DecodeRefusal → Refusal
  | .reservedOp => .reservedOp
  | .nonZeroOperandField => .nonZeroOperandField
  | .illegalGFields => .illegalGFields

/-- The host issues COMPRESS and host operations; the sequencer issues micro-operations (30 R101). -/
def mayIssue : Issuer → OpClass → Bool
  | .host, .engineCommand => true
  | .host, .host => true
  | .host, .microOp => false
  | .sequencer, .microOp => true
  | .sequencer, .engineCommand => false
  | .sequencer, .host => false

/-! ### The micro-program (10 R45, 30 R106) -/

/-- The word the sequencer issues at a position; none at the reserved 15 (30 R106). -/
def microWord (n : Nibble) : Option Word :=
  if n = 0 then some 0x02000000#32
  else if n = 14 then some 0x06000000#32
  else if n = 15 then none
  else if n.toNat % 2 = 1 then some 0x04000000#32
  else some 0x05000000#32

/-- The positions of the seven ROUNDs: odd, up to 13 (10 R45). -/
def isRoundStep (n : Nibble) : Bool := n.toNat % 2 == 1 && decide (n.toNat ≤ 13)

/-- The word of call `k` of a round (30 R103). -/
def callWord (k : Fin 8) : Word := packG gcallTable[k]

/-- The words the sequencer may issue where it stands, the word of 30 R106 first. A ROUND is issued whole or as its words G0
to G7 in order (30 R106, R111). -/
def sequencerWords (e : Engine) : List Word :=
  match e.seq with
  | .idle => []
  | .at n => (microWord n).toList ++ (if isRoundStep n then [callWord 0] else [])
  | .midRound n k => if isRoundStep n then [callWord k] else []

/-- Whether an instruction is one of a round's calls. -/
def isCall : Instr → Bool
  | .g _ _ _ _ _ _ => true
  | .compress | .init | .round | .permute | .finalize => false
  | .lcgNew | .lcgNext | .toFixedBinary | .fromBinary | .buildVector | .serializeVector => false
  | .runSuite | .runSingle | .chainCv => false

/-- The engine after the sequencer has issued `i`: SEQ is one further, or inside a ROUND the next call comes; FINALIZE has set
IDLE, which stays (44 R214, 30 R106). -/
def advanceSeq (i : Instr) (e : Engine) : Engine :=
  match e.seq with
  | .idle => e
  | .at n => if isCall i then { e with seq := .midRound n 1 } else { e with seq := .at (n + 1) }
  | .midRound n k => if k = 7 then { e with seq := .at (n + 1) } else { e with seq := .midRound n (k + 1) }

/-! ### Issuing a word (30 R101) -/

/-- The sequencer of the instance addressed issues `i`, whose word is `w`, and moves on; a word that is not its turn is
refused (30 R106, 60 R326). -/
def sequencerIssue (w : Word) (i : Instr) (s : State) : StepResult :=
  if (sequencerWords s.engine).contains w then
    match exec i s with
    | .next t => .next (setEngine (advanceSeq i t.engine) t)
    | .fault x => .fault x
    | .refused x => .refused x
  else .refused .outOfSequence

/-- The host issues `i` with the operand record in place. A COMPRESS with no operand is a write to CMD, hence an access of its
worker to the window (10 R47, 20 R86), and InterleavedWindowAccess stands before tablesNotLoaded, ReadNoValue and the hold.
DESIGN CHOICE (notes/assumptions/12.md, 30.md), safe: 60 R331 gives it no place. DESIGN CHOICE (notes/assumptions/31.md), unsafe: a COMPRESS of an operand request in
the transaction view is no window access, so it is neither refused for another worker's accesses nor recorded as one, though
it writes OUT and STATUS of the instance. -/
def hostIssue (i : Instr) (s : State) : StepResult :=
  if i = .compress ∧ s.line.args = [] then
    match claim s.line.worker s with
    | .error x => stopResult x
    | .ok t => exec i t
  else exec i s

/-- A word that decodes to `i` is issued by its issuer on the instance addressed. -/
def issueAs (l : Line) (w : Word) (i : Instr) (s : State) : StepResult :=
  match l.issuer with
  | .host => hostIssue i s
  | .sequencer => sequencerIssue w i s

/-- A command word is issued: decoded, checked for its issuer, and executed with its operand record. -/
def issueWord (l : Line) (w : Word) (s : State) : StepResult :=
  match decode w with
  | .error r => .refused (decodeRefusal r)
  | .ok i =>
    if mayIssue l.issuer i.opClass then onEngine l.engine { s with line := l } (issueAs l w i)
    else .refused .notACommand

/-- The line of a CMD write: host worker `w`, no operand record, no result (30 R101). -/
def commandLine (w : Nat) : Line := ⟨.host, w, none, [], none⟩

/-- A command word reaches the instance addressed through CMD (30 R107 `decode_cmd`). -/
def cmdWrite (w : Nat) (v : Word) (s : State) : StepResult :=
  if isCommandWord v then exec .compress { s with line := commandLine w } else .refused .notACommand

/-- A write to the window of the instance addressed (20 R72). InterleavedWindowAccess stands after both WindowAccess refusals
and before NotACommand, tablesNotLoaded, ReadNoValue and the hold. DESIGN CHOICE (notes/assumptions/12.md, 30.md), safe:
60 R331 gives it no place. -/
def windowWrite (w off size : Nat) (v : Word) (s : State) : StepResult :=
  match writeTarget off size with
  | .error x => stopResult x
  | .ok r =>
    match claim w s with
    | .error x => stopResult x
    | .ok t => if r = .cmd then cmdWrite w v t else .next (setEngine (writeReg r v t.engine) t)

/-- A MemWrite at an address (20 R72). -/
def memWrite (w addr size : Nat) (v : Word) (s : State) : StepResult :=
  withEngine (pageOf addr) (.outsideWindow addr) s (windowWrite w (offsetOf addr) size v)

/-! ### The engine agent (10 R45, 30 R106, 44 R214) -/

/-- The line of a word the sequencer issues. -/
def sequencerLine : Line := ⟨.sequencer, 0, none, [], none⟩

/-- One step of the instance addressed: the word of 30 R106, or the next call of a ROUND under way; an idle engine performs
none (44 R214, 60 R326). -/
def engineStep (s : State) : StepResult :=
  match s.engine.seq with
  | .idle => .next s
  | .at _ | .midRound _ _ =>
    match (sequencerWords s.engine).head? with
    | none => .refused .reservedSeq
    | some w => issueWord sequencerLine w s

/-- One step of the instance with this window page. -/
def engineTurn (page : Nat) (s : State) : StepResult := withEngine page .impossibleEvent s engineStep

/-- While a hold is in force its engine steps; FINALIZE lifts the hold (60 R321). A hold on an engine that is not busy has
nothing to wait for and is lifted. -/
def heldStep (s : State) : StepResult :=
  if s.engine.status.busy then engineStep s else .next { s with hold := none }

/-- The step of the machine under a hold. -/
def heldTurn : Hold → State → StepResult
  | .cmdWhileBusy page, s => withEngine page .impossibleEvent s heldStep

/-- The step of the machine when nothing is scheduled: the first engine that is not idle steps; with all idle nothing
changes (60 R326). -/
def quietTurn (s : State) : StepResult :=
  match (s.engine :: s.others).find? fun e => e.seq != .idle with
  | none => .next s
  | some e => engineTurn e.page s

/-! ### Reset and tables (70 R340, R341, R345) -/

/-- Reset of the instance addressed, refused while it is busy (70 R341). The constant tables stay as they are (70 R340).
DESIGN CHOICE (notes/assumptions/28.md), safe: a reset event resets the one instance it names. -/
def resetEngine (s : State) : StepResult :=
  if s.engine.status.busy then .refused .resetWhileBusy
  else .next (setEngine { Engine.reset s.engine.page with tablesReady := s.engine.tablesReady } s)

/-- Loading of tables: the instance is ready exactly when they are the tables of 10 R30 to R34 (70 R345). DESIGN CHOICE
(notes/assumptions/19.md), unsafe: it may happen in any state, also on a busy engine, whose compression goes on. -/
def loadTables (t : Tables) (s : State) : StepResult :=
  .next (setEngine { s.engine with tablesReady := decide (t = theTables) } s)

/-! ### Events -/

/-- What an event does. -/
def runEvent (ev : Event) (s : State) : StepResult :=
  match ev with
  | .word l w => issueWord l w s
  | .read w addr size dest => memRead w addr size dest s
  | .write w addr size v => memWrite w addr size v s
  | .poll w addr => pollStatus w addr s
  | .readOut w page got dest => readOut w page got dest s
  | .engine page => engineTurn page s
  | .reset page => withEngine page .impossibleEvent s resetEngine
  | .loadTables page t => withEngine page .impossibleEvent s (loadTables t)
  | .drawBegin w id => drawBegin w id s
  | .drawEnd w id dest => drawEnd w id dest s
  | .suiteOpen l => suiteOpen l s
  | .suiteLaunch j => suiteLaunch j s
  | .suiteAnswer j => suiteAnswer j s
  | .suiteClose => suiteClose s
  | .suiteAbort => suiteAbort s
  | .singleOpen l => singleOpen l s
  | .singleAnswer w => singleAnswer w s
  | .randomized w gen circuit base dest => runRandomized w gen circuit base dest s

/-- An event that ended in a hold has taken no step: it stays next (60 R320). -/
def keepHeld (ev : Event) (o : StepResult) : StepResult :=
  match o with
  | .next t => .next (if t.hold.isSome then { t with agenda := ev :: t.agenda } else t)
  | .fault x => .fault x
  | .refused x => .refused x

/-! ### Placing one word for the next step (notes/assumptions/6.md) -/

/-- A request of zeros. -/
def zeroRequest : VecRec := ⟨Vector.replicate 8 0, Vector.replicate 16 0, 0, 0, 0, 0⟩

/-- A vector as BUILD_VECTOR makes it, of block length 4 from a generator of seed 0 (43 R180). -/
def starterVector : VecRec := builtVector ⟨0, 4, 0, 0, 0, ivTable⟩ 0

/-- An operand record of its type for each operation; the name 0 stands for the vector or the generator it needs. -/
def starterArgs : Instr → List (Key × Arg)
  | .compress =>
    [(.h, .lit (.words (List.replicate 8 0))), (.m, .lit (.words (List.replicate 16 0))), (.t0, .lit (.int 0)),
     (.t1, .lit (.int 0)), (.b, .lit (.int 64)), (.d, .lit (.int 0))]
  | .init | .g _ _ _ _ _ _ | .round | .permute | .finalize => []
  | .lcgNew => [(.seed, .lit (.int 0))]
  | .lcgNext => [(.gen, .name 0)]
  | .toFixedBinary => [(.value, .lit (.int 0))]
  | .fromBinary => [(.bits, .lit (.chars []))]
  | .buildVector => [(.gen, .name 0), (.d, .lit (.int 0))]
  | .serializeVector => [(.vec, .name 0), (.form, .lit (.form .record))]
  | .runSuite => [(.vectors, .names []), (.circuit, .lit (.circuit 0))]
  | .runSingle => [(.vec, .name 0)]
  | .chainCv => [(.out, .lit (.words (ofWords (Vector.replicate 16 (0 : Word)))))]

/-- The issuer that may issue an operation. -/
def starterIssuer (i : Instr) : Issuer :=
  match i.opClass with
  | .microOp => .sequencer
  | .engineCommand => .host
  | .host => .host

/-- The line a word is placed with; a word that spells no operation is the host's. -/
def starterLine (w : Word) : Line :=
  match decode w with
  | .ok i => ⟨starterIssuer i, 0, none, starterArgs i, none⟩
  | .error _ => Line.empty

/-- A generator for an operation that draws, where there is none. -/
def starterGens (gens : List Gen) : List Gen :=
  match gens with
  | [] => [⟨0, none⟩]
  | g :: gs => g :: gs

/-- The call a G is in the round's table. -/
def callIndex (f : GFields) : Fin 8 := Fin.ofNat 8 (legalG.idxOf f)

/-- An engine whose sequencer stands at a position with the request latched. -/
def engineAt (q : Seq) (e : Engine) : Engine := { latchRequest zeroRequest e with status := ⟨true, false⟩, seq := q }

/-- What must stand before an operation can be issued at all: the sequencer issues a micro-operation only at its position,
INIT only with a request written, the others only once it is latched; a draw needs a generator, and an operation on a vector
one that was built, bound to the name 0. -/
def starterState (w : Word) (s : State) : State :=
  match decode w with
  | .ok .init => setEngine { putRequest zeroRequest s.engine with status := ⟨true, false⟩, seq := .at 0 } s
  | .ok (.g a b c d x y) => setEngine (engineAt (.midRound 1 (callIndex ⟨a, b, c, d, x, y⟩)) s.engine) s
  | .ok .round => setEngine (engineAt (.at 1) s.engine) s
  | .ok .permute => setEngine (engineAt (.at 2) s.engine) s
  | .ok .finalize => setEngine (engineAt (.at 14) s.engine) s
  | .ok .lcgNext | .ok .buildVector => { s with gens := starterGens s.gens, env := envSet 0 (.gen 0) s.env }
  | .ok .serializeVector | .ok .runSingle => { s with env := envSet 0 (.vec starterVector) s.env }
  | .ok .compress | .ok .lcgNew | .ok .toFixedBinary | .ok .fromBinary | .ok .runSuite | .ok .chainCv => s
  | .error _ => s

/-- A word placed as the next thing that happens. -/
def placeWord (w : Word) (s : State) : State :=
  let t := starterState w s
  { t with agenda := .word (starterLine w) w :: t.agenda, hold := none }

end Sys2Proof.Machine
end

