-- ==== Sys2Proof/Machine/Step.lean ====
section
/-! DEFINITION. One step of the machine, and the placing of one word for the next step. -/

namespace Sys2Proof.Machine

open Sys2Proof

/-- One step: under a hold the engine it waits for steps (60_exceptions.md R321); else the next event of the agenda
happens; with nothing scheduled a busy engine goes on. -/
def step (s : State) : Host.Outcome State Fault Refusal :=
  match s.hold with
  | some h => heldTurn h s
  | none =>
    match s.agenda with
    | [] => quietTurn s
    | ev :: rest => keepHeld ev (runEvent ev { s with agenda := rest })

/-- The state with the word `w` placed so that the very next step issues it (notes/assumptions/6.md). -/
def State.withFetchWord (s : State) (nbits w : Nat) : State := placeWord (BitVec.ofNat 32 (w % 2 ^ nbits)) s

end Sys2Proof.Machine
end

