-- ==== Sys2Proof/Safety.lean ====
section
/-! DEFINITION. The terms claims are stated in: legal engine states and the invariants, the micro-program, what binding a
result means, and the self-checks of a trusted engine (10_state.md R45, R46, 30_encoding.md R111, R112,
70_reset_and_hazards.md R346). -/

namespace Sys2Proof.Machine

open Sys2Proof

/-! ### Invariants -/

/-- Where the sequencer may stand between steps, with the STATUS that goes with it: IDLE and not busy, or 1 to 14, busy and
with a latched request; between two calls of a ROUND, SEQ is the ROUND's (10 R45, R46, R49, 30 R106). -/
def seqOk (e : Engine) : Prop :=
  match e.seq with
  | .idle => e.status.busy = false
  | .at n => e.status.busy = true ∧ 1 ≤ n.toNat ∧ n.toNat ≤ 14 ∧ e.latched = true
  | .midRound n k => e.status.busy = true ∧ n.toNat % 2 = 1 ∧ n.toNat ≤ 13 ∧ k ≠ 0 ∧ e.latched = true

/-- A legal engine state: the sequencer as above, STATUS never `11`, and OUT_VALID only after a request was latched
(10 R45, R46). -/
def engineOk (e : Engine) : Prop :=
  seqOk e ∧ (e.status.busy = true → e.status.outValid = false) ∧ (e.status.outValid = true → e.latched = true)

/-- Every instance is in a legal state. -/
def enginesOk (s : State) : Prop := ∀ e ∈ s.engine :: s.others, engineOk e

/-- A vector as BUILD_VECTOR makes one: a legal block length, and zeros from there on (43 R180, R185, R186). -/
def isBuilt (v : VecRec) : Prop := blockLenOk v.b = true ∧ ∀ i : Fin 16, v.b.toNat / 4 ≤ i.val → v.m[i] = 0

/-- A RUN_SINGLE under way retries a call at most once, and its proof stage runs only when asked for and after a witness stage
that ended well (45 R267, R270). -/
def singleOk (x : SingleRun) : Prop :=
  x.retries ≤ 1 ∧ isBuilt x.vec ∧ ∀ w, x.witness = some w → x.prove = true ∧ w.failure = none

/-- The host's data is canonical: names rise, every vector bound to a name, under a suite or under a RUN_SINGLE is a built one
(10 R51), every suite slot has retried at most once (10 R52), and a worker has at most one RUN_SINGLE under way. -/
def hostOk (s : State) : Prop :=
  envWf s.env = true ∧ (∀ n v, envGet n s.env = some (.vec v) → isBuilt v) ∧
    (∀ u, s.suite = some u → ∀ x ∈ u.slots, x.retries ≤ 1 ∧ isBuilt x.vec) ∧
    (s.singles.map SingleRun.worker).Nodup ∧ ∀ x ∈ s.singles, singleOk x

/-! ### Fairness (70 R362) -/

/-- The engine instances. -/
def instances (s : State) : List Engine := s.engine :: s.others

/-- An instance whose window is at this page is busy. -/
def busyAt (page : Nat) (s : State) : Prop := ∃ e ∈ instances s, e.page = page ∧ e.status.busy = true

/-- The sequencer of the instance at this page stands elsewhere in `t` than in `s`: its engine took a step. -/
def movesAt (page : Nat) (s t : State) : Prop :=
  ∃ e ∈ instances s, ∃ e' ∈ instances t, e.page = page ∧ e'.page = page ∧ e.seq ≠ e'.seq

/-- A run of the machine that never stops: each state steps to the next. -/
def isRun (run : Nat → State) : Prop := ∀ n, step (run n) = .next (run (n + 1))

/-- Weak fairness of the engine agent, the assumption of 70 R362 under which every COMPRESS completes: an engine that stays
busy takes a step. -/
def weaklyFair (run : Nat → State) : Prop :=
  ∀ page k, (∀ n, k ≤ n → busyAt page (run n)) → ∃ n, k ≤ n ∧ movesAt page (run n) (run (n + 1))

/-! ### Interleaved window accesses (20 R86) -/

/-- Every access of worker `w` to the window of the instance addressed that passes the WindowAccess checks is refused as
interleaved: reads and writes, the poll, the reads of OUT that end a host sequence, and a COMPRESS word with no operand. -/
def accessesRefused (w : Nat) (s : State) : Prop :=
  let base := 256 * s.engine.page
  (∀ off dest, off % 4 = 0 → (off < 0x70 ∨ off = 0x74 ∨ (0x80 ≤ off ∧ off < 0xC0)) →
    runEvent (.read w (base + off) 4 dest) s = .refused .interleavedWindowAccess) ∧
  (∀ off v, off % 4 = 0 → off ≤ 0x70 → runEvent (.write w (base + off) 4 v) s = .refused .interleavedWindowAccess) ∧
  runEvent (.poll w (base + 0x74)) s = .refused .interleavedWindowAccess ∧
  (∀ got dest, got.length ≤ 15 →
    runEvent (.readOut w s.engine.page got dest) s = .refused .interleavedWindowAccess) ∧
  ∀ dest, runEvent (.word ⟨.host, w, none, [], dest⟩ 0x01000000#32) s = .refused .interleavedWindowAccess

/-! ### Running several operations -/

/-- Operations executed one after another. -/
def execAll : List Instr → State → StepResult
  | [], s => .next s
  | i :: is, s =>
    match exec i s with
    | .next t => execAll is t
    | .fault x => .fault x
    | .refused x => .refused x

/-- Events that happen one after another. -/
def runEvents : List Event → State → StepResult
  | [], s => .next s
  | ev :: evs, s =>
    match runEvent ev s with
    | .next t => runEvents evs t
    | .fault x => .fault x
    | .refused x => .refused x

/-! ### Interleaved suites (45 R266) -/

/-- The vector whose external process an event ends. -/
def answeredVector : Event → Option Nat
  | .suiteAnswer j => some j
  | _ => none

/-- The answers that the processes of vector `j` took, in their order, where `used` are the answers taken by the events `evs`,
one by each `suiteAnswer`. -/
def answersOf (evs : List Event) (used : List Arrival) (j : Nat) : List Arrival :=
  (((evs.filterMap answeredVector).zip used).filter fun x => x.1 == j).map Prod.snd

/-- The expansion of ROUND (30 R111). -/
def roundProgram : List Instr :=
  [.g 0 4 8 12 0 1, .g 1 5 9 13 2 3, .g 2 6 10 14 4 5, .g 3 7 11 15 6 7,
   .g 0 5 10 15 8 9, .g 1 6 11 12 10 11, .g 2 7 8 13 12 13, .g 3 4 9 14 14 15]

/-- The expansion of COMPRESS in the sequenced view (30 R112). -/
def microProgram : List Instr :=
  [.init, .round, .permute, .round, .permute, .round, .permute, .round, .permute, .round, .permute, .round, .permute,
   .round, .finalize]

/-! ### Results and requests -/

/-- `t` has the value `v` bound to the name `s`'s line gives its result, every other name as in `s`. -/
def boundResult (s t : State) (v : Value) : Prop :=
  (∀ n, s.line.dest = some n → envGet n t.env = some v) ∧
    ∀ n, s.line.dest ≠ some n → envGet n t.env = envGet n s.env

/-- A call gave a value: its stage is ok (45 R270). -/
def callOk (r : CallResult) : Prop := ∃ out o e, r = .value out o e

/-- A stage of RUN_SINGLE on `v` reports what its call gave: ok exactly for a value, else the failure kind (45 R270). -/
def reportsCall (v : VecRec) (r : CallResult) (st : Stage) : Prop :=
  (st.failure = none ↔ callOk r) ∧
    (∀ x o e, r = .toolFailure x o e → st.failure = some (.externalToolFailure v x o e)) ∧
    (r = .timeout → st.failure = some (.externalTimeout v 2))

/-- Every request field has been written since reset (10 R49). -/
def requestWritten (e : Engine) : Prop :=
  (∀ i : Fin 8, e.hIn[i].written = true) ∧ (∀ i : Fin 16, e.mIn[i].written = true) ∧
    e.t0In.written = true ∧ e.t1In.written = true ∧ e.bIn.written = true ∧ e.dIn.written = true

/-- `t` is `s` but for V, MS, HL and the latched mark of the instance addressed. -/
def onlyWorkingState (s t : State) : Prop :=
  { t with engine := { t.engine with v := s.engine.v, ms := s.engine.ms, hl := s.engine.hl, latched := s.engine.latched } }
    = s

/-- `t` is `s` but for V of the instance addressed. -/
def onlyV (s t : State) : Prop := { t with engine := { t.engine with v := s.engine.v } } = s

/-- `t` is `s` but for MS of the instance addressed. -/
def onlyMs (s t : State) : Prop := { t with engine := { t.engine with ms := s.engine.ms } } = s

/-- `t` is `s` but for the bound names. -/
def onlyEnv (s t : State) : Prop := { t with env := s.env } = s

/-! ### A trusted engine (70 R344, R346, 45 R269) -/

/-- The request of the first self-check. -/
def selfCheck1 : VecRec := ⟨ivTable, Vector.replicate 16 0, 0, 0, 64, flagChunkStart ||| flagChunkEnd⟩

/-- The request of the second self-check: message words 0 to 15. -/
def selfCheck2 : VecRec :=
  ⟨ivTable, Vector.ofFn fun i => BitVec.ofNat 32 i.val, 0, 0, 64, flagChunkStart ||| flagChunkEnd⟩

/-- The output the first self-check must give (70 R346). -/
def selfCheckOut1 : Vector Word 16 :=
  #v[0xB559333C, 0xC9D88819, 0x896CD50D, 0x1C8C81DA, 0xE16C7D9D, 0xCBFBBBD4, 0xBF21CAFE, 0xFB59C23E,
     0x556CFF69, 0x7719E361, 0x930FBB06, 0xE6F2526B, 0x5E867DC2, 0x433C22A7, 0xC4B43967, 0x34541A99]

/-- The output the second self-check must give (70 R346). -/
def selfCheckOut2 : Vector Word 16 :=
  #v[0x47E63400, 0x7E2C7497, 0xB6084E49, 0x11D68638, 0x22479A33, 0x0550F904, 0x70A1E4AF, 0x81EC5687,
     0x7C3F39E5, 0x957E049B, 0x6A795E9F, 0x45D9BC50, 0x02C1C375, 0x324AC5E4, 0xB499CE4E, 0x2066E168]

/-- The rows of the message schedule (44 R211): slot `s` of round `r` (from 0) holds original word `sched[r][s]`. -/
def schedule : Vector (Vector (Fin 16) 16) 7 :=
  #v[#v[0, 1, 2, 3, 4, 5, 6, 7, 8, 9, 10, 11, 12, 13, 14, 15],
     #v[2, 6, 3, 10, 7, 0, 4, 13, 1, 11, 12, 5, 9, 14, 15, 8],
     #v[3, 4, 10, 12, 13, 2, 7, 14, 6, 5, 9, 0, 11, 15, 8, 1],
     #v[10, 7, 12, 9, 14, 3, 13, 15, 4, 0, 11, 2, 5, 8, 1, 6],
     #v[12, 13, 9, 11, 15, 10, 14, 8, 7, 2, 5, 3, 0, 1, 6, 4],
     #v[9, 14, 11, 5, 8, 12, 15, 1, 13, 3, 0, 10, 2, 6, 4, 7],
     #v[11, 15, 5, 0, 1, 9, 8, 6, 14, 10, 2, 12, 3, 4, 7, 13]]

end Sys2Proof.Machine
end

