-- ==== Sys2Proof/Certificates/Slice0/Obligations.lean ====
section
/-! DEFINITION. The statements about the machine, from the numbered rules of spec/. Each conclusion `exec i s = .next t` is
also where the instruction completes; the frame says what it leaves alone. -/

open Sys2Proof Sys2Proof.Machine

/-! ### Encoding (30_encoding.md) -/

/-- Decoding the word of any well-formed instruction gives that instruction, every operand included (30 R100 to R105). The
word of G7 is the one its bit layout and opcode_table.json give, which is the model's choice (notes/assumptions/1.md). -/
def Obligations.EncodeThenDecodeGivesTheInstruction : Prop :=
  ∀ i : Instr, i.wf = true → decode (encode i) = .ok i

/-- A word that decodes is the word of a well-formed instruction, hence a row of the table, and no other word decodes
(30 R103, R107). Which of the two words the spec prints for G7 is its row's is the model's choice
(notes/assumptions/1.md). -/
def Obligations.DecodedWordsAreTableWords : Prop :=
  ∀ (w : Word) (i : Instr), decode w = .ok i → i.wf = true ∧ w = encode i

/-- A word that spells no operation is refused with the reason of 30 R107; exactly eight Format G words are legal. Which word
is G7's is the model's choice (notes/assumptions/1.md). -/
def Obligations.UndecodableWordsAreRefusedByReason : Prop :=
  ∀ w : Word,
    let op := (w >>> 24).toNat
    (decode w = .error .reservedOp ↔ op = 0 ∨ (7 ≤ op ∧ op ≤ 15) ∨ 25 ≤ op) ∧
    (decode w = .error .nonZeroOperandField ↔
      (op = 1 ∨ op = 2 ∨ (4 ≤ op ∧ op ≤ 6) ∨ (16 ≤ op ∧ op ≤ 24)) ∧ w.toNat % 2 ^ 24 ≠ 0) ∧
    (decode w = .error .illegalGFields ↔ op = 3 ∧
      w ∉ ([0x03048C01, 0x03159D23, 0x0326AE45, 0x0337BF67, 0x0305AF89, 0x0316BCAB, 0x03278DCD, 0x03349EEF] : List Word))

/-- Words written out from the tables of 30 R103 and R105, one or more of each class. -/
def Obligations.TableWordsDecode : Prop :=
  decode 0x01000000#32 = .ok .compress ∧ decode 0x02000000#32 = .ok .init ∧
  decode 0x03048C01#32 = .ok (.g 0 4 8 12 0 1) ∧ decode 0x0316BCAB#32 = .ok (.g 1 6 11 12 10 11) ∧
  decode 0x06000000#32 = .ok .finalize ∧ decode 0x11000000#32 = .ok .lcgNext ∧
  decode 0x14000000#32 = .ok .buildVector ∧ decode 0x17000000#32 = .ok .runSingle ∧
  decode 0x18000000#32 = .ok .chainCv

/-! ### A step runs the decoded word -/

/-- When the next event issues a word that decodes to `i` and its issuer may issue it, the step is `exec i` with the operand
record in place and the event taken from the agenda. An event that ends in a hold stays next. A COMPRESS with no operand is a
write to CMD, so its worker takes the window first or is refused (20 R86). A word of the sequencer in its turn then moves SEQ
(30 R106). A line that names an instance acts on that instance. The model's own are the agenda and the record of a hold
(notes/assumptions/5.md, 8.md), the reading of interleaving (12.md), that a COMPRESS of a request given as
operand is no window access (31.md), a ROUND issued call by call with SEQ inside it (7.md), and how an instance is named
(18.md). -/
def Obligations.StepRunsTheDecodedWord : Prop :=
  ∀ (s : State) (l : Line) (w : Word) (i : Instr) (rest : List Event),
    s.hold = none → s.agenda = .word l w :: rest → decode w = .ok i → mayIssue l.issuer i.opClass = true →
    let s0 := { s with agenda := rest, line := l }
    (l.engine = none → l.issuer = .host → (i ≠ .compress ∨ l.args ≠ []) →
      (∀ t, exec i s0 = .next t → t.hold = none → step s = .next t) ∧
      (∀ t, exec i s0 = .next t → t.hold ≠ none → step s = .next { t with agenda := .word l w :: t.agenda }) ∧
      (∀ f, exec i s0 = .fault f → step s = .fault f) ∧
      (∀ r, exec i s0 = .refused r → step s = .refused r)) ∧
    (l.engine = none → i = .compress → l.args = [] →
      (∀ e, claimWindow l.worker s.engine = some e →
        step s = keepHeld (.word l w) (exec .compress { s0 with engine := e })) ∧
      (claimWindow l.worker s.engine = none → step s = .refused .interleavedWindowAccess)) ∧
    (l.engine = none → l.issuer = .sequencer → w ∈ sequencerWords s.engine →
      (∀ t, exec i s0 = .next t → step s = .next { t with engine := advanceSeq i t.engine }) ∧
      (∀ f, exec i s0 = .fault f → step s = .fault f) ∧
      (∀ r, exec i s0 = .refused r → step s = .refused r)) ∧
    (∀ p, l.engine = some p → step s = keepHeld (.word l w) (withEngine p .impossibleEvent s0 (issueAs l w i)))

/-- A word that spells no operation is refused by its reason; the host may not issue micro-operations and the sequencer
issues nothing else (30 R101; the refusal's name for a wrong issuer is the model's, notes/assumptions/21.md), and of
micro-operations only those of the micro-program where it stands: none while idle or at the reserved 15, INIT at 0, ROUND or its
first call at the odd positions, PERMUTE at the even ones, FINALIZE at 14, and inside a ROUND only the next of its calls
(30 R106, 60 R326; the refusal's name and the position inside a ROUND are the model's, 7.md). So it is on the instance addressed
and on another one that the line names; a line that names none of the instances is refused (how an instance is named, and that
refusal, are the model's, 18.md). -/
def Obligations.StepRefusesWhatMayNotBeIssued : Prop :=
  ∀ (s : State) (l : Line) (w : Word) (rest : List Event),
    s.hold = none → s.agenda = .word l w :: rest →
    let outOfTurn : Engine → Instr → Prop := fun e i =>
      e.seq = .idle ∨
      (∃ n : Nibble, e.seq = .at n ∧ (i = .init → n ≠ 0) ∧ (i = .round → n.toNat % 2 = 0 ∨ n = 15) ∧
        (i = .permute → n.toNat % 2 = 1 ∨ n = 0 ∨ n = 14) ∧ (i = .finalize → n ≠ 14) ∧
        ∀ f : GFields, i = .g f.a f.b f.c f.d f.x f.y → n.toNat % 2 = 0 ∨ n = 15 ∨ f ≠ ⟨0, 4, 8, 12, 0, 1⟩) ∨
      ∃ (n : Nibble) (k : Fin 8), e.seq = .midRound n k ∧
        (n.toNat % 2 = 1 → n.toNat ≤ 13 → i ≠ roundProgram[k.val]'(by simp [roundProgram]))
    (∀ r, decode w = .error r → step s = .refused (decodeRefusal r)) ∧
    (∀ i, decode w = .ok i → l.issuer = .host → i.opClass = .microOp → step s = .refused .notACommand) ∧
    (∀ i, decode w = .ok i → l.issuer = .sequencer → i.opClass ≠ .microOp → step s = .refused .notACommand) ∧
    (∀ i, decode w = .ok i → l.issuer = .sequencer → i.opClass = .microOp →
      ((l.engine = none ∨ l.engine = some s.engine.page) → outOfTurn s.engine i → step s = .refused .outOfSequence) ∧
      (∀ (pre post : List Engine) (e : Engine), ((s.engine :: s.others).map Engine.page).Nodup →
        s.others = pre ++ e :: post → l.engine = some e.page → outOfTurn e i → step s = .refused .outOfSequence)) ∧
    (∀ i page, decode w = .ok i → mayIssue l.issuer i.opClass = true → l.engine = some page →
      (∀ e ∈ s.engine :: s.others, e.page ≠ page) → step s = .refused .impossibleEvent)

/-- The engine's step at SEQ 1 to 13 is ROUND at odd and PERMUTE at even positions with SEQ one further, and FINALIZE at 14;
an idle engine performs none (44 R214, 30 R106, 60 R326). Inside a ROUND that is issued call by call it is the next of the
calls G0 to G7 (30 R106, R111), and SEQ moves after the last. The agenda's turn is the model's (notes/assumptions/5.md), and
so is the position inside a ROUND (7.md). -/
def Obligations.EngineTurnFollowsTheMicroProgram : Prop :=
  ∀ (s : State) (rest : List Event), s.hold = none → s.agenda = .engine s.engine.page :: rest →
    let s0 := { s with agenda := rest, line := sequencerLine }
    (s.engine.seq = .idle → step s = .next { s with agenda := rest }) ∧
    (∀ n : Nibble, s.engine.seq = .at n → s.engine.latched = true →
      (n.toNat ≤ 13 → n.toNat % 2 = 1 → ∃ t, exec .round s0 = .next t ∧
        step s = .next { t with engine := { t.engine with seq := .at (n + 1) } }) ∧
      (n.toNat ≤ 13 → 1 ≤ n.toNat → n.toNat % 2 = 0 → ∃ t, exec .permute s0 = .next t ∧
        step s = .next { t with engine := { t.engine with seq := .at (n + 1) } }) ∧
      (n = 14 → ∃ t, exec .finalize s0 = .next t ∧ step s = .next t)) ∧
    (∀ (n : Nibble) (k : Fin 8), s.engine.seq = .midRound n k → n.toNat ≤ 13 → n.toNat % 2 = 1 →
      s.engine.latched = true → ∃ t, exec (roundProgram[k.val]'(by simp [roundProgram])) s0 = .next t ∧
        step s = .next { t with
          engine := { t.engine with seq := if k = 7 then .at (n + 1) else .midRound n (k + 1) } })

/-! ### The engine family (44_compression_engine.md) -/

/-- INIT completes when every request field was written, and leaves HL, MS and V as R204 lists them; nothing else changes. -/
def Obligations.InitLatchesTheRequest : Prop :=
  ∀ s : State, requestWritten s.engine →
    ∃ t, exec .init s = .next t ∧
      (∀ i : Fin 8, t.engine.hl[i] = s.engine.hIn[i].val) ∧
      (∀ i : Fin 16, t.engine.ms[i] = s.engine.mIn[i].val) ∧
      (∀ i : Fin 8, t.engine.v[i.val]'(by omega) = s.engine.hIn[i].val) ∧
      t.engine.v[8] = 0x6A09E667 ∧ t.engine.v[9] = 0xBB67AE85 ∧ t.engine.v[10] = 0x3C6EF372 ∧
      t.engine.v[11] = 0xA54FF53A ∧ t.engine.v[12] = s.engine.t0In.val ∧ t.engine.v[13] = s.engine.t1In.val ∧
      t.engine.v[14].toNat = s.engine.bIn.val.toNat ∧ t.engine.v[15].toNat = s.engine.dIn.val.toNat ∧
      t.engine.latched = true ∧ onlyWorkingState s t

/-- With a request field never written, INIT faults, and so does a COMPRESS that takes the request registers, once its
tables are loaded (10 R49, 60 R323); before that a COMPRESS is refused whatever its operands (70 R345), also with an unwritten
field or on a busy engine, which is the model's order (notes/assumptions/30.md). That the fault comes before the hold on a
busy engine too is 60 R331's order against the pseudocode of 44 R214, the model's reading (notes/assumptions/10.md). -/
def Obligations.UnwrittenRequestFaults : Prop :=
  ∀ s : State,
    (¬ requestWritten s.engine →
      (∃ r, exec .init s = .fault (.readNoValue (.win r))) ∧
      (s.line.args = [] → s.engine.tablesReady = true → ∃ r, exec .compress s = .fault (.readNoValue (.win r)))) ∧
    (compressArgs s ≠ none → s.engine.tablesReady = false → exec .compress s = .refused .tablesNotLoaded)

/-- G on a legal operand tuple completes once V and MS are written: the eight steps of R203 with right rotations, all six
words read before any is written; the other words of V and the rest of the state are unchanged (44 R203, R207). -/
def Obligations.GMixesTheFourWordsOfItsTuple : Prop :=
  ∀ (s : State) (f : GFields), legalG.contains f = true → s.engine.latched = true →
    let v := s.engine.v
    let ms := s.engine.ms
    let a1 := nib v f.a + nib v f.b + nib ms f.x
    let d1 := (nib v f.d ^^^ a1).rotateRight 16
    let c1 := nib v f.c + d1
    let b1 := (nib v f.b ^^^ c1).rotateRight 12
    let a2 := a1 + b1 + nib ms f.y
    let d2 := (d1 ^^^ a2).rotateRight 8
    let c2 := c1 + d2
    let b2 := (b1 ^^^ c2).rotateRight 7
    ∃ t, exec (.g f.a f.b f.c f.d f.x f.y) s = .next t ∧
      nib t.engine.v f.a = a2 ∧ nib t.engine.v f.b = b2 ∧ nib t.engine.v f.c = c2 ∧ nib t.engine.v f.d = d2 ∧
      (∀ i : Nibble, i ≠ f.a → i ≠ f.b → i ≠ f.c → i ≠ f.d → nib t.engine.v i = nib v i) ∧
      onlyV s t

/-- A G whose operands are not one of the eight tuples of the call table is refused (30 R103). -/
def Obligations.GOutsideTheCallTableIsRefused : Prop :=
  ∀ (s : State) (a b c d x y : Nibble), (Instr.g a b c d x y).wf = false →
    exec (.g a b c d x y) s = .refused .illegalGFields

/-- ROUND completes once V and MS are written, and is exactly its eight G calls executed in order; it writes V only
(30 R111, 44 R208). -/
def Obligations.RoundIsItsEightCalls : Prop :=
  ∀ s : State, s.engine.latched = true →
    ∃ t, exec .round s = .next t ∧ execAll roundProgram s = .next t ∧ onlyV s t

/-- The calls of a column group touch disjoint words, and so do those of a diagonal group: two calls of one group in either
order leave the same V (44 R209). -/
def Obligations.CallsOfAGroupCommute : Prop :=
  ∀ (s : State) (j k : Fin 4), s.engine.latched = true → j ≠ k →
    (∃ t, execAll [roundProgram[j.val]'(by simp [roundProgram]; omega), roundProgram[k.val]'(by simp [roundProgram]; omega)] s
        = .next t ∧
      execAll [roundProgram[k.val]'(by simp [roundProgram]; omega), roundProgram[j.val]'(by simp [roundProgram]; omega)] s
        = .next t) ∧
    (∃ t, execAll [roundProgram[4 + j.val]'(by simp [roundProgram]; omega),
        roundProgram[4 + k.val]'(by simp [roundProgram]; omega)] s = .next t ∧
      execAll [roundProgram[4 + k.val]'(by simp [roundProgram]; omega),
        roundProgram[4 + j.val]'(by simp [roundProgram]; omega)] s = .next t)

/-- PERMUTE completes once MS is written and gathers: new slot `i` takes old slot `PERM[i]`; it writes MS only
(44 R210). -/
def Obligations.PermuteGathersByTheTable : Prop :=
  ∀ s : State, s.engine.latched = true →
    ∃ t, exec .permute s = .next t ∧
      (let old := s.engine.ms
       t.engine.ms = #v[old[2], old[6], old[3], old[10], old[7], old[0], old[4], old[13], old[1], old[11], old[12], old[5],
         old[9], old[14], old[15], old[8]]) ∧
      onlyMs s t

/-- Round `r` uses the message permuted `r - 1` times, which is the schedule row of 44 R211; eight PERMUTEs restore MS
(44 R210). -/
def Obligations.PermutesFollowTheSchedule : Prop :=
  ∀ s : State, s.engine.latched = true →
    (∀ r : Fin 7, ∃ t, execAll (List.replicate r.val .permute) s = .next t ∧
      ∀ i : Fin 16, t.engine.ms[i] = s.engine.ms[schedule[r][i]]) ∧
    execAll (List.replicate 8 .permute) s = .next s

/-- FINALIZE completes once V and HL are written: OUT, STATUS and SEQ as R212 gives them, a hold that waits for this engine
lifted (60 R321), and nothing else changed. -/
def Obligations.FinalizeFoldsTheState : Prop :=
  ∀ s : State, s.engine.latched = true →
    ∃ t, exec .finalize s = .next t ∧
      (∀ i : Fin 8, t.engine.out[i.val]'(by omega) = s.engine.v[i.val]'(by omega) ^^^ s.engine.v[i.val + 8]'(by omega)) ∧
      (∀ i : Fin 8, t.engine.out[i.val + 8]'(by omega) = s.engine.v[i.val + 8]'(by omega) ^^^ s.engine.hl[i]) ∧
      t.engine.status = ⟨false, true⟩ ∧ t.engine.seq = .idle ∧
      t.hold = (if s.hold = some (.cmdWhileBusy s.engine.page) then none else s.hold) ∧
      { t with
        engine := { t.engine with out := s.engine.out, status := s.engine.status, seq := s.engine.seq },
        hold := s.hold } = s

/-- G, ROUND, PERMUTE and FINALIZE fault where INIT never wrote V, MS and HL (10 R49). -/
def Obligations.MicroOperationsFaultBeforeInit : Prop :=
  ∀ (s : State) (f : GFields), s.engine.latched = false → legalG.contains f = true →
    exec (.g f.a f.b f.c f.d f.x f.y) s = .fault (.readNoValue .v) ∧ exec .round s = .fault (.readNoValue .v) ∧
    exec .permute s = .fault (.readNoValue .ms) ∧ exec .finalize s = .fault (.readNoValue .v)

/-- COMPRESS in the transaction view, on a request given as operand or on the request registers, is one step: it completes on
an idle engine and leaves OUT, V, MS, HL, STATUS and SEQ as the fifteen micro-operations run on that request leave them; its
result is OUT (44 R213, R219, 30 R112); the rest of the state is unchanged. Three of these clauses are the model's choice and no
rule of the spec: that the request registers keep their values (notes/assumptions/11.md); that a COMPRESS of an operand request
completes also while another worker is using the window, the window's owner and past workers untouched (31.md); and that OUT is
bound to the result name of a line that has no operand record (33.md). -/
def Obligations.CompressInOneStepIsTheMicroProgram : Prop :=
  ∀ (s : State) (r : VecRec), s.engine.tablesReady = true → s.engine.status.busy = false →
    s.params.view = .transaction →
    (compressArgs s = some (.request r) ∨ (s.line.args = [] ∧ requestWritten s.engine ∧ r = requestOf s.engine)) →
    ∃ t u, exec .compress s = .next t ∧
      execAll microProgram { s with engine := putRequest r s.engine } = .next u ∧
      t.engine.out = u.engine.out ∧ t.engine.v = u.engine.v ∧ t.engine.ms = u.engine.ms ∧ t.engine.hl = u.engine.hl ∧
      t.engine.status = u.engine.status ∧ t.engine.seq = u.engine.seq ∧ t.engine.latched = true ∧
      t.engine.status = ⟨false, true⟩ ∧ t.engine.seq = .idle ∧ t.engine.hl = r.h ∧
      boundResult s t (.words (t.engine.out.toList.map BitVec.toNat)) ∧
      { t with
        engine := { t.engine with
          out := s.engine.out, v := s.engine.v, ms := s.engine.ms, hl := s.engine.hl, latched := s.engine.latched,
          status := s.engine.status, seq := s.engine.seq },
        env := s.env } = s

/-- COMPRESS in the sequenced view. The command, on an idle engine with a written request, sets BUSY, clears OUT_VALID, latches
the request as INIT does and sets SEQ to 1, in one step; OUT and the rest are unchanged (44 R214). A COMPRESS of a request
goes on as its window expansion, the host sequence of 20 R77: the request registers in window order, the command, the poll
loop, the reads of OUT (30 R110), the meaning of which O48 states; nothing else changes. That the agenda holds it is the model's
choice (notes/assumptions/5.md, 11.md), and so is that the command of a line with no operand record but a result name binds
nothing to that name in this view (33.md). -/
def Obligations.CompressCommandStartsTheSequencer : Prop :=
  ∀ s : State, s.engine.tablesReady = true → s.params.view = .sequenced →
    (s.engine.status.busy = false → s.line.args = [] → requestWritten s.engine →
      ∃ t u, exec .compress s = .next t ∧ exec .init s = .next u ∧
        t = { u with engine := { u.engine with status := ⟨true, false⟩, seq := .at 1 } }) ∧
    (∀ r, compressArgs s = some (.request r) →
      let w := s.line.worker
      let base := 256 * s.engine.page
      ∃ evs, exec .compress s = .next { s with agenda := evs ++ s.agenda } ∧
        (∀ i : Fin 8, evs[i.val]? = some (.write w (base + 4 * i.val) 4 r.h[i])) ∧
        (∀ i : Fin 16, evs[8 + i.val]? = some (.write w (base + (0x20 + 4 * i.val)) 4 r.m[i])) ∧
        evs.drop 24 =
          [.write w (base + 0x60) 4 r.t0, .write w (base + 0x64) 4 r.t1, .write w (base + 0x68) 4 (zext32 r.b),
           .write w (base + 0x6C) 4 (zext32 r.d), .write w (base + 0x70) 4 0x01000000#32, .poll w (base + 0x74),
           .readOut w s.engine.page [] s.line.dest])

/-- A COMPRESS that finds its engine busy holds (60 R321): written to CMD, in either view, or as a transaction. A hold is no
step in the spec; that the model answers a next state which records the hold by the engine's page, all else unchanged, is its
choice (notes/assumptions/8.md), and so is that a COMPRESS of an operand request holds too (25.md). -/
def Obligations.CompressOnABusyEngineHolds : Prop :=
  ∀ s : State, s.engine.tablesReady = true → s.engine.status.busy = true →
    ((s.params.view = .transaction ∧ ∃ r, compressArgs s = some (.request r)) ∨
      (s.line.args = [] ∧ requestWritten s.engine)) →
    exec .compress s = .next { s with hold := some (.cmdWhileBusy s.engine.page) }

/-- Under a hold the machine's step is the step of the engine it waits for: ROUND, PERMUTE, a call inside a ROUND or FINALIZE
where its SEQ stands, with SEQ then moved, the agenda kept, and FINALIZE lifting the hold (60 R321, 70 R351, 44 R214). A hold
on an instance that is not the one addressed steps that instance in the same way and leaves the others alone (60 R324). How a
hold is recorded and who steps meanwhile is the model's (notes/assumptions/8.md), and so is the position inside a ROUND
(7.md). -/
def Obligations.HeldStepIsTheEnginesStep : Prop :=
  ∀ s : State,
    let s0 := { s with line := sequencerLine }
    (s.hold = some (.cmdWhileBusy s.engine.page) → s.engine.status.busy = true → s.engine.latched = true →
      (∀ n : Nibble, s.engine.seq = .at n → 1 ≤ n.toNat →
        (n.toNat ≤ 13 → n.toNat % 2 = 1 → ∃ t, exec .round s0 = .next t ∧ t.agenda = s.agenda ∧ t.hold = s.hold ∧
          step s = .next { t with engine := { t.engine with seq := .at (n + 1) } }) ∧
        (n.toNat ≤ 13 → n.toNat % 2 = 0 → ∃ t, exec .permute s0 = .next t ∧ t.agenda = s.agenda ∧ t.hold = s.hold ∧
          step s = .next { t with engine := { t.engine with seq := .at (n + 1) } }) ∧
        (n = 14 → ∃ t, exec .finalize s0 = .next t ∧ t.agenda = s.agenda ∧ t.hold = none ∧ step s = .next t)) ∧
      (∀ (n : Nibble) (k : Fin 8), s.engine.seq = .midRound n k → n.toNat ≤ 13 → n.toNat % 2 = 1 →
        ∃ t, exec (roundProgram[k.val]'(by simp [roundProgram])) s0 = .next t ∧ t.agenda = s.agenda ∧ t.hold = s.hold ∧
          step s = .next { t with
            engine := { t.engine with seq := if k = 7 then .at (n + 1) else .midRound n (k + 1) } })) ∧
    (∀ (pre post : List Engine) (e : Engine) (t : State),
      ((s.engine :: s.others).map Engine.page).Nodup → s.others = pre ++ e :: post →
      s.hold = some (.cmdWhileBusy e.page) → e.status.busy = true →
      step { s with engine := e, others := pre ++ s.engine :: post } = .next t →
      step s = .next { t with engine := s.engine, others := pre ++ t.engine :: post })

/-- From a COMPRESS command in the sequenced view, with nothing else scheduled, exactly 14 engine steps end the compression:
OUT is the transaction's output of the request as last written, STATUS is done and SEQ is IDLE (44 R214, R219, 70 R362).
That the machine's step is then the engine's is the model's choice (notes/assumptions/20.md). -/
def Obligations.SequencedRunGivesTheTransactionOutput : Prop :=
  ∀ s : State, s.engine.tablesReady = true → s.engine.status.busy = false → s.line.args = [] →
    s.params.view = .sequenced → requestWritten s.engine → s.agenda = [] → s.hold = none →
    ∃ t u, exec .compress s = .next t ∧ Host.Core.run core 14 t = .next u ∧
      u.engine.out = compress (requestOf s.engine) ∧ u.engine.status = ⟨false, true⟩ ∧ u.engine.seq = .idle ∧
      (∀ k, k < 14 → ∃ w, Host.Core.run core k t = .next w ∧ w.engine.status = ⟨true, false⟩)

/-- A write to a request register while a compression runs does not reach it: the engine's step and the write commute
(44 R218). -/
def Obligations.RequestWritesDoNotReachARunningCompression : Prop :=
  ∀ (s t : State) (r : WinReg) (v : Word), s.engine.seq ≠ .at 0 → engineStep s = .next t →
    engineStep (setEngine (writeReg r v s.engine) s) = .next (setEngine (writeReg r v t.engine) t)

/-- Both self-checks give the words 70 R346 lists. -/
def Obligations.SelfChecksPass : Prop :=
  compress selfCheck1 = selfCheckOut1 ∧ compress selfCheck2 = selfCheckOut2

/-- CHAIN_CV returns the first eight words of its operand, with no further XOR, and changes nothing but the bound result
(44 R217). -/
def Obligations.ChainCvReturnsTheFirstEightWords : Prop :=
  ∀ (s : State) (out : Vector Word 16), chainArgs s = some out →
    ∃ t, exec .chainCv s = .next t ∧ boundResult s t (.words ((out.toList.take 8).map BitVec.toNat)) ∧ onlyEnv s t

/-! ### The generator (41_generator.md) -/

/-- LCG_NEW makes a new instance with the seed as given; the instances before are unchanged (41 R140, R145). -/
def Obligations.LcgNewKeepsTheSeed : Prop :=
  ∀ (s : State) (seed : BitVec 64), lcgNewArgs s = some seed →
    ∃ t, exec .lcgNew s = .next t ∧ boundResult s t (.gen s.gens.length) ∧
      t.gens = s.gens ++ [⟨seed, none⟩] ∧ { t with env := s.env, gens := s.gens } = s

/-- LCG_NEXT on an instance no other draw is using returns `(1664525 * seed + 1013904223) mod 2^32`, computed exactly, and
that is the instance's new seed; other instances are unchanged (41 R141, R142, R145). -/
def Obligations.LcgNextReturnsTheNextWord : Prop :=
  ∀ (s : State) (id : Nat) (g : Gen), lcgNextArgs s = some id → s.gens[id]? = some g → g.user = none →
    let x := (1664525 * g.seed.toNat + 1013904223) % 2 ^ 32
    ∃ t g', exec .lcgNext s = .next t ∧ boundResult s t (.int x) ∧
      t.gens[id]? = some g' ∧ g'.seed.toNat = x ∧ g'.user = none ∧
      (∀ k, k ≠ id → t.gens[k]? = s.gens[k]?) ∧ t.gens.length = s.gens.length ∧
      { t with env := s.env, gens := s.gens } = s

/-- Seeds equal modulo 2^32 give the same sequence, of any length (41 R144). -/
def Obligations.SeedsEqualModulo32GiveOneSequence : Prop :=
  ∀ (k : Nat) (a b : BitVec 64), a.toNat % 2 ^ 32 = b.toNat % 2 ^ 32 → (drawWords k a).1 = (drawWords k b).1

/-- A draw from an instance on which another worker's draw is in progress is refused, whether LCG_NEXT, a builder that
would draw, or a second overlapping draw (41 R146; how an overlap is written down is the model's, notes/assumptions/13.md). -/
def Obligations.OverlappingDrawsAreRefused : Prop :=
  ∀ (s : State) (id w : Nat) (g : Gen), s.gens[id]? = some g → g.user ≠ none →
    (lcgNextArgs s = some id → exec .lcgNext s = .refused .concurrentGeneratorUse) ∧
    (∀ a, buildArgs s = some a → a.gen = id → blockLenOk a.blockLen = true →
      exec .buildVector s = .refused .concurrentGeneratorUse) ∧
    runEvent (.drawBegin w id) s = .refused .concurrentGeneratorUse

/-! ### Serialization (42_serialization.md) -/

/-- TO_FIXED_BINARY returns exactly `width` characters, the `i`-th from the left being bit `width - 1 - i` of the value
(0 above bit 31), or the error SerializationRangeError where the value does not fit in a width below 32; nothing but the
bound result changes (42 R160). -/
def Obligations.ToFixedBinaryWritesTheBits : Prop :=
  ∀ (s : State) (a : FixedArgs), toFixedArgs s = some a →
    ∃ t, exec .toFixedBinary s = .next t ∧ onlyEnv s t ∧
      ((a.width.toNat < 32 ∧ 2 ^ a.width.toNat ≤ a.value.toNat ∧
          boundResult s t (.error (.serializationRange a.value.toNat a.width.toNat))) ∨
       ((32 ≤ a.width.toNat ∨ a.value.toNat < 2 ^ a.width.toNat) ∧
          ∃ cs : Text, boundResult s t (.chars cs) ∧ cs.length = a.width.toNat ∧
            ∀ i, i < a.width.toNat →
              cs[i]? = some (if a.value.toNat.testBit (a.width.toNat - 1 - i) then '1' else '0')))

/-- FROM_BINARY returns the exact number its bits spell where that is below 2^32, else SerializationRangeError; nothing but
the bound result changes (42 R161). -/
def Obligations.FromBinaryReadsTheNumber : Prop :=
  ∀ (s : State) (bs : BitString), fromBinaryArgs s = some bs →
    let x := Nat.ofDigits 2 (bs.reverse.map Bool.toNat)
    ∃ t, exec .fromBinary s = .next t ∧ onlyEnv s t ∧
      ((x < 2 ^ 32 ∧ boundResult s t (.int x)) ∨
       (2 ^ 32 ≤ x ∧ boundResult s t (.error (.serializationRange x 32))))

/-- Reading back what TO_FIXED_BINARY wrote gives the value: at every width that does not raise, and at width 32, where none
raises, for every value (42 R162). -/
def Obligations.BinaryRoundTrip : Prop :=
  (∀ x : Word, ∃ bs, toFixedBinary x 32 = .ok bs ∧ fromBinary bs = .ok x) ∧
    ∀ (x : Word) (width : Nat) (bs : BitString), toFixedBinary x width = .ok bs → fromBinary bs = .ok x

/-- At width 32 the serialization never raises, has exactly 32 characters, and distinct values give distinct strings
(42 R163). -/
def Obligations.Width32IsExactAndInjective : Prop :=
  (∀ x : Word, ∃ bs, toFixedBinary x 32 = .ok bs ∧ bs.length = 32) ∧
    ∀ x y : Word, toFixedBinary x 32 = toFixedBinary y 32 → x = y

/-- SERIALIZE_VECTOR returns the record or the bit-vector form. The record is a JSON object with the keys h, m, b, d, t,
decimal integers in index order, and `t` = `[t0, t1]` (20 R79, 42 R165); its key order and the absence of blanks are those of
the example in 42 R165 and the model's choice (notes/assumptions/29.md). In the bit form every field is its
`to_fixed_binary` string, 32 bits wide, `b` and `d` at `BD_SER_WIDTH` (20 R80). Nothing but the bound result changes. -/
def Obligations.SerializeVectorGivesBothForms : Prop :=
  ∀ (s : State) (a : SerializeArgs), serializeArgs s = some a →
    let numbers : List Word → Text := fun ws => List.intercalate [','] (ws.map fun w => Nat.toDigits 10 w.toNat)
    ∃ t, exec .serializeVector s = .next t ∧ onlyEnv s t ∧
      (a.form = .record → boundResult s t (.record
        ([Char.ofNat 123] ++ "\"h\":[".toList ++ numbers a.vec.h.toList ++ "],\"m\":[".toList ++ numbers a.vec.m.toList
          ++ "],\"b\":".toList ++ Nat.toDigits 10 a.vec.b.toNat ++ ",\"d\":".toList ++ Nat.toDigits 10 a.vec.d.toNat
          ++ ",\"t\":[".toList ++ numbers [a.vec.t0, a.vec.t1] ++ "]".toList ++ [Char.ofNat 125]))) ∧
      (a.form = .bits → ∃ f, boundResult s t (.bitForm f) ∧
        f.h.length = 8 ∧ f.m.length = 16 ∧ f.t.length = 2 ∧
        (∀ i : Fin 8, (f.h[i.val]?).map Except.ok = some (toFixedBinary a.vec.h[i] 32)) ∧
        (∀ i : Fin 16, (f.m[i.val]?).map Except.ok = some (toFixedBinary a.vec.m[i] 32)) ∧
        (f.t[0]?).map Except.ok = some (toFixedBinary a.vec.t0 32) ∧
        (f.t[1]?).map Except.ok = some (toFixedBinary a.vec.t1 32) ∧
        toFixedBinary (zext32 a.vec.b) (bdSerWidth s.params.bdWidth) = .ok f.b ∧
        toFixedBinary (zext32 a.vec.d) (bdSerWidth s.params.bdWidth) = .ok f.d)

/-! ### The builder (43_vector_builder.md) -/

/-- BUILD_VECTOR with a legal block length draws `block_len / 4` words, word 0 first, pads with zeros, copies the other
operands through and leaves the generator advanced by exactly those draws; other instances are unchanged
(43 R180, R183 to R185). That no other agent's draw falls between them is the model's choice (notes/assumptions/13.md). -/
def Obligations.BuildVectorDrawsInWordOrder : Prop :=
  ∀ (s : State) (a : BuildArgs) (g : Gen), buildArgs s = some a → s.gens[a.gen]? = some g → g.user = none →
    0 < a.blockLen.toNat → a.blockLen.toNat ≤ 64 → a.blockLen.toNat % 4 = 0 →
    let k := a.blockLen.toNat / 4
    ∃ t vec, exec .buildVector s = .next t ∧ boundResult s t (.vec vec) ∧
      (∀ i : Fin 16, vec.m[i] = if i.val < k then lcgStep (lcgSeed^[i.val] g.seed) else 0) ∧
      vec.h = a.chaining ∧ vec.t0 = a.counterLow ∧ vec.t1 = a.counterHigh ∧ vec.b = a.blockLen ∧ vec.d = a.flags ∧
      t.gens = s.gens.set a.gen ⟨lcgSeed^[k] g.seed, none⟩ ∧
      { t with env := s.env, gens := s.gens } = s

/-- BUILD_VECTOR with any other block length returns InvalidBlockLength and no vector; the generator and everything else
are unchanged (43 R182). -/
def Obligations.FailedBuildLeavesTheGenerator : Prop :=
  ∀ (s : State) (a : BuildArgs), buildArgs s = some a →
    (a.blockLen.toNat = 0 ∨ 64 < a.blockLen.toNat ∨ a.blockLen.toNat % 4 ≠ 0) →
    ∃ t, exec .buildVector s = .next t ∧ boundResult s t (.error (.invalidBlockLength a.blockLen.toNat)) ∧ onlyEnv s t

/-- Operand defaults of 30 R104: a builder record of a generator and `d` alone gives block length 64, counters 0 and IV; one
without `d` is out of type (43 R181); the width of TO_FIXED_BINARY is 32 and `prove` is false where not given. -/
def Obligations.OperandDefaults : Prop :=
  ∀ (s : State) (name id n : Nat) (d : Byte) (v : VecRec),
    (s.line.args = [(.gen, .name name), (.d, .lit (.int d.toNat))] → envGet name s.env = some (.gen id) →
      id < s.gens.length → buildArgs s = some ⟨id, 64, d, 0, 0, ivTable⟩) ∧
    (findArg .d s.line.args = none → buildArgs s = none) ∧
    (s.line.args = [(.value, .lit (.int n))] → n < 2 ^ 32 → toFixedArgs s = some ⟨BitVec.ofNat 32 n, 32⟩) ∧
    (s.line.args = [(.vec, .name name)] → envGet name s.env = some (.vec v) →
      singleArgs s = some ⟨v, false⟩ ∧ compressArgs s = some (.request v))

/-- An operand outside its type is refused before the operation runs (60 R322 OperandType, R332), written out or bound to a
name: what is no number below the bound of its type (a seed below 2^64; a value, width or counter below 2^32; a block length
or domain flags below 256), no array of words of its length, no bit string, no vector, no list of names of vectors, no form,
no circuit, no boolean. So is a record without an operand that has no default (30 R104). That a name to which nothing is bound
and a generator which does not exist are refused so too is the model's choice (notes/assumptions/23.md). -/
def Obligations.OperandsOutsideTheirTypeAreRefused : Prop :=
  ∀ (s : State) (k : Key) (a : Arg),
    let x : Option Value := resolveArg s.env a
    let isRefused : Instr → Prop := fun i => exec i s = .refused .operandType
    let noNumber : Nat → Prop := fun bound => ∀ n, x = some (.int n) → bound ≤ n
    let noWords : Nat → Prop := fun len => ∀ ws, x = some (.words ws) → ws.length ≠ len ∨ ∃ w ∈ ws, 2 ^ 32 ≤ w
    (findArg k s.line.args = some a →
      (k = .seed → noNumber (2 ^ 64) → isRefused .lcgNew) ∧
      (k = .value ∨ k = .width → noNumber (2 ^ 32) → isRefused .toFixedBinary) ∧
      (k = .t0 ∨ k = .t1 → noNumber (2 ^ 32) → isRefused .buildVector ∧ isRefused .compress) ∧
      (k = .b ∨ k = .d → noNumber 256 → isRefused .buildVector ∧ isRefused .compress) ∧
      (k = .h → noWords 8 → isRefused .buildVector ∧ isRefused .compress) ∧
      (k = .m → noWords 16 → isRefused .compress) ∧
      (k = .out → noWords 16 → isRefused .chainCv) ∧
      (k = .bits → (∀ cs, x = some (.chars cs) → ∃ c ∈ cs, c ≠ '0' ∧ c ≠ '1') → isRefused .fromBinary) ∧
      (k = .vec → (∀ v, x ≠ some (.vec v)) → isRefused .compress ∧ isRefused .serializeVector ∧ isRefused .runSingle) ∧
      (k = .vectors → (∀ ns, a = .names ns → ∃ n ∈ ns, ∀ v, envGet n s.env ≠ some (.vec v)) → isRefused .runSuite) ∧
      (k = .form → (∀ f, x ≠ some (.form f)) → isRefused .serializeVector) ∧
      (k = .circuit → (∀ c, x ≠ some (.circuit c)) → isRefused .runSuite) ∧
      (k = .prove → (∀ b, x ≠ some (.bool b)) → isRefused .runSingle) ∧
      (k = .gen → (∀ id, x = some (.gen id) → s.gens.length ≤ id) → isRefused .lcgNext ∧ isRefused .buildVector)) ∧
    (findArg k s.line.args = none →
      (k = .seed → isRefused .lcgNew) ∧ (k = .value → isRefused .toFixedBinary) ∧ (k = .bits → isRefused .fromBinary) ∧
      (k = .gen → isRefused .lcgNext ∧ isRefused .buildVector) ∧ (k = .d → isRefused .buildVector) ∧
      (k = .vec → isRefused .serializeVector ∧ isRefused .runSingle) ∧ (k = .form → isRefused .serializeVector) ∧
      (k = .vectors ∨ k = .circuit → isRefused .runSuite) ∧ (k = .out → isRefused .chainCv) ∧
      (k ∈ [.h, .m, .t0, .t1, .b, .d] → s.line.args ≠ [] → findArg .vec s.line.args = none → isRefused .compress))

/-! ### The oracle (45_oracle.md) -/

/-- RUN_SUITE completes once the tables are loaded. Where each of its external calls gives a result, which is so where no suite
abort arrives, every vector has exactly one outcome, in ascending index order: entry `j` is the verdict of vector `j` on its own
external call, made on what the calls before it left of the inputs; `all_passed` is true exactly when every outcome is PASS; an
empty suite passes (45 R260, R263 to R265). Nothing but the bound result and the inputs used changes; that the suite's own
compressions touch no engine instance of the state is the model's choice (notes/assumptions/16.md). A suite abort that arrives
during a call kills every running external process and no SuiteResult is returned (45 R271). Before the tables are loaded a
suite that would COMPRESS is refused (70 R345; whose tables count is the model's, notes/assumptions/19.md; the inputs are the
model's, 14.md, and so is the order of the calls, 16.md). That the abort ends every RUN_SINGLE under way with no report, its name
left as it was, is the model's choice too (32.md). -/
def Obligations.RunSuiteGivesEveryVectorOneOutcome : Prop :=
  ∀ (s : State) (a : SuiteArgs), suiteArgs s = some a →
    let called : Nat → (Nat → Inputs) → (Nat → CallResult) → Prop := fun k x r => x 0 = s.inputs ∧
      ∀ j v, j < k → a.vectors[j]? = some v →
        callExternal s.params (.circuit a.circuit v) (x j) = (some (r j), x (j + 1))
    let returns : (Nat → Inputs) → (Nat → CallResult) → Prop := fun x r =>
      ∃ t res, exec .runSuite s = .next t ∧ boundResult s t (.suite res) ∧
        res.entries.length = a.vectors.length ∧ t.inputs = x a.vectors.length ∧
        (∀ j v, a.vectors[j]? = some v → res.entries[j]? = some (j, judge v (r j))) ∧
        (res.allPassed = true ↔ ∀ e ∈ res.entries, e.2 = .pass) ∧
        { t with env := s.env, inputs := s.inputs } = s
    (a.vectors ≠ [] → s.engine.tablesReady = false → exec .runSuite s = .refused .tablesNotLoaded) ∧
    ((a.vectors = [] ∨ s.engine.tablesReady = true) →
      (.abort ∉ s.inputs.answers → ∃ x r, called a.vectors.length x r ∧ returns x r) ∧
      (∀ x r, called a.vectors.length x r → returns x r) ∧
      ∀ k x r v y, called k x r → a.vectors[k]? = some v →
        callExternal s.params (.circuit a.circuit v) (x k) = (none, y) →
        exec .runSuite s = .next { s with suite := none, singles := [], inputs := y })

/-- With a circuit equal to `compress` that answers within EXTERNAL_TIMEOUT, RUN_SUITE reports PASS for every vector, whatever
the vectors (45 R260 example, R273, R274; answers that have arrived are the model's tape, notes/assumptions/14.md). -/
def Obligations.SuiteOfACorrectCircuitPasses : Prop :=
  ∀ (s : State) (a : SuiteArgs) (answers : List Attempt) (more : List Arrival), suiteArgs s = some a →
    s.engine.tablesReady = true → s.inputs.answers = answers.map .answer ++ more → answers.length = a.vectors.length →
    (∀ (j : Nat) (v : VecRec) (x : Attempt), a.vectors[j]? = some v → answers[j]? = some x →
      x.elapsed ≤ externalTimeout s.params ∧ x.exit = .exited 0 (.words ((compress v).toList.map BitVec.toNat))) →
    ∃ t, exec .runSuite s = .next t ∧
      boundResult s t (.suite ⟨(List.range a.vectors.length).map fun j => (j, .pass), true⟩) ∧
      t.inputs = { s.inputs with answers := more }

/-- A vector passes exactly when all 16 words agree; otherwise the mismatch carries the vector, the differing indices in
ascending order and both values at each; an answer that is not 16 words of 32 bits is an ExternalToolFailure; an answer in bit
strings is that of the words FROM_BINARY reads from them, and an ExternalToolFailure where one cannot be read; a failed or
timed-out call is the outcome with nothing compared (45 R260, R263, R268, 42 R166, 60 R330). The status recorded for a
malformed answer is the model's (notes/assumptions/17.md), so the statement leaves it open. -/
def Obligations.VerdictOfOneVector : Prop :=
  ∀ (v : VecRec) (ws : List Nat) (o e : Text) (st : ExitStatus),
    ((ws.length = 16 ∧ ∀ w ∈ ws, w < 2 ^ 32) →
      (judge v (.value (.words ws) o e) = .pass ↔ ws = (compress v).toList.map BitVec.toNat) ∧
      (ws ≠ (compress v).toList.map BitVec.toNat → ∃ diff x y,
        judge v (.value (.words ws) o e) = .failed (.outputMismatch v diff x y) ∧
        diff.Pairwise (· < ·) ∧ (∀ i, i ∈ diff ↔ i < 16 ∧ ws[i]? ≠ ((compress v)[i]?).map BitVec.toNat) ∧
        x.map some = diff.map (fun i => (compress v)[i]?) ∧
        y.map (fun w => some w.toNat) = diff.map fun i => ws[i]?)) ∧
    ((ws.length ≠ 16 ∨ ∃ w ∈ ws, 2 ^ 32 ≤ w) → ∃ st', judge v (.value (.words ws) o e) =
      .failed (.externalToolFailure v st' o e)) ∧
    (∀ (bss : List BitString) (xs : List Word), bss.map fromBinary = xs.map Except.ok →
      judge v (.value (.bits (bss.map textOfBits)) o e) = judge v (.value (.words (xs.map BitVec.toNat)) o e)) ∧
    (∀ ss : List Text, (∃ t ∈ ss, (∃ c ∈ t, c ≠ '0' ∧ c ≠ '1') ∨ ∃ bs, t = textOfBits bs ∧ 2 ^ 32 ≤ bitsValue bs) →
      ∃ st', judge v (.value (.bits ss) o e) = .failed (.externalToolFailure v st' o e)) ∧
    judge v (.toolFailure st o e) = .failed (.externalToolFailure v st o e) ∧
    judge v .timeout = .failed (.externalTimeout v 2)

/-- The first timeout of an external call is retried once and the retry is final, whatever it gives; a failure, by exit code
or exception, or a value is not retried (45 R267). A suite abort that arrives during either attempt kills it, and the call gives
nothing (45 R271; what arrives is on the model's tape, notes/assumptions/14.md). -/
def Obligations.ATimeoutIsRetriedOnce : Prop :=
  ∀ (p : Params) (c : ExtCall) (x : Inputs) (a1 a2 : Attempt) (rest : List Arrival),
    let gives : List Arrival → CallResult → List Arrival → Prop := fun tape r left =>
      callExternal p c { x with answers := tape } = (some r, { x with answers := left })
    let killed : List Arrival → Prop := fun tape =>
      callExternal p c { x with answers := tape } = (none, { x with answers := rest })
    let tape : List Arrival := .answer a1 :: .answer a2 :: rest
    killed (.abort :: rest) ∧
    (externalTimeout p < a1.elapsed →
      killed (.answer a1 :: .abort :: rest) ∧
      (externalTimeout p < a2.elapsed → gives tape .timeout rest) ∧
      (∀ msg, a2.elapsed ≤ externalTimeout p → a2.exit = .raised msg →
        gives tape (.toolFailure (.raised msg) a2.stdout a2.stderr) rest) ∧
      (∀ code out, a2.elapsed ≤ externalTimeout p → a2.exit = .exited code out → code ≠ 0 →
        gives tape (.toolFailure (.exited code) a2.stdout a2.stderr) rest) ∧
      (∀ out, a2.elapsed ≤ externalTimeout p → a2.exit = .exited 0 out →
        gives tape (.value out a2.stdout a2.stderr) rest)) ∧
    (a1.elapsed ≤ externalTimeout p →
      (∀ msg, a1.exit = .raised msg →
        gives tape (.toolFailure (.raised msg) a1.stdout a1.stderr) (.answer a2 :: rest)) ∧
      (∀ code out, a1.exit = .exited code out → code ≠ 0 →
        gives tape (.toolFailure (.exited code) a1.stdout a1.stderr) (.answer a2 :: rest)) ∧
      (∀ out, a1.exit = .exited 0 out → gives tape (.value out a1.stdout a1.stderr) (.answer a2 :: rest)))

/-- RUN_SUITE in the interleaved view: the suite opens, workers launch vectors and their processes end, the suite closes. There
is such an interleaving that gives what RUN_SUITE as one step gives, whatever arrives but a suite abort. Every interleaving that
closes, on answers that have arrived, gives what the one step gives on the same answers, those of each vector after those of the
vectors before it: the same SuiteResult, and the same state. The answers of vector `j` are the ones that stand at the places of
its `suiteAnswer` events, in their order. The processes of two vectors may end in either order: with the
same answer for each, the suite is the same (45 R260, R266). The events of the interleaved view and the order of the one step's
calls are the model's (notes/assumptions/16.md), and so are the answers on a tape (14.md). -/
def Obligations.SuiteAnswersCommute : Prop :=
  (∀ (s : State) (a : SuiteArgs), s.suite = none → suiteArgs s = some a →
    (a.vectors = [] ∨ s.engine.tablesReady = true) → .abort ∉ s.inputs.answers →
    ∃ evs, (∀ ev ∈ evs, ∃ j, ev = .suiteLaunch j ∨ ev = .suiteAnswer j) ∧
      runEvents (.suiteOpen s.line :: (evs ++ [.suiteClose])) s = exec .runSuite s) ∧
  (∀ (s t : State) (evs : List Event), (∀ ev ∈ evs, ∃ j, ev = .suiteLaunch j ∨ ev = .suiteAnswer j) →
    runEvents (.suiteOpen s.line :: (evs ++ [.suiteClose])) s = .next t → t.inputs.draws = s.inputs.draws →
    ∃ (a : SuiteArgs) (used : List Arrival), suiteArgs s = some a ∧ s.inputs.answers = used ++ t.inputs.answers ∧
      used.length = (evs.filterMap answeredVector).length ∧
      let tape := (List.range a.vectors.length).flatMap (answersOf evs used)
      used.Perm tape ∧
        exec .runSuite { s with inputs := { s.inputs with answers := tape ++ t.inputs.answers } } = .next t) ∧
  ∀ (s : State) (u : Suite) (j k : Nat) (x y : SuiteSlot) (a b : Attempt) (rest : List Arrival), j ≠ k →
    s.suite = some u → u.slots[j]? = some x → u.slots[k]? = some y → x.running = true → y.running = true →
    let tape : Attempt → Attempt → State := fun a b =>
      { s with inputs := { s.inputs with answers := .answer a :: .answer b :: rest } }
    ∃ t t1 t2,
      runEvent (.suiteAnswer j) (tape a b) = .next t1 ∧ runEvent (.suiteAnswer k) t1 = .next t ∧
      runEvent (.suiteAnswer k) (tape b a) = .next t2 ∧ runEvent (.suiteAnswer j) t2 = .next t

/-- A suite abort kills every running external process, those of the suite under way and those of the RUN_SINGLEs under way,
and returns no SuiteResult: no process is left, no name is bound and nothing else changes (45 R271, 70 R356). So it does between
two steps, and so where it arrives at a process of the suite or of a RUN_SINGLE that is alive. That a RUN_SINGLE whose process is
killed returns no report, and that an abort may occur with no suite under way, is the model's choice
(notes/assumptions/32.md). -/
def Obligations.AbortReturnsNoResult : Prop :=
  ∀ (s : State) (rest : List Arrival),
    let aborting : State := { s with inputs := { s.inputs with answers := .abort :: rest } }
    let killed : StepResult :=
      .next { s with suite := none, singles := [], inputs := { s.inputs with answers := rest } }
    runEvent .suiteAbort s = .next { s with suite := none, singles := [] } ∧
    (∀ (u : Suite) (j : Nat) (x : SuiteSlot), s.suite = some u → u.slots[j]? = some x → x.running = true →
      runEvent (.suiteAnswer j) aborting = killed) ∧
    ∀ x ∈ s.singles, runEvent (.singleAnswer x.worker) aborting = killed

/-- RUN_SINGLE completes. Its witness stage reports the call "compute witness" on the vector's record: ok exactly when the call
gave a value, else its failure kind, with the elapsed time read after it. The proof stage runs exactly when one was asked for
and the witness stage is ok, and reports the call "produce proof" made on what was left of the inputs. The engines are
untouched and nothing but the bound result and the inputs used changes (45 R270). A suite abort that arrives during a call kills
every running external process (45 R271); that no report is returned then is the model's choice (notes/assumptions/32.md). Where
none arrives there is a report. In the interleaved view, starting the RUN_SINGLE and letting its processes end gives the same as
the one step. The inputs and the free clock readings are the model's (14.md, 15.md), what a timed-out stage reports too (34.md),
and so are the events of the interleaved view (32.md). -/
def Obligations.RunSingleReportsItsStages : Prop :=
  ∀ (s : State) (a : SingleArgs), singleArgs s = some a →
    let killed : Inputs → Prop := fun x => exec .runSingle s = .next { s with suite := none, singles := [], inputs := x }
    let returns : SingleReport → Inputs → Prop := fun rep x => ∃ t, exec .runSingle s = .next t ∧
      boundResult s t (.single rep) ∧ t.inputs = x ∧ { t with env := s.env, inputs := s.inputs } = s
    let w := callExternal s.params (.witness (vectorRecord a.vec)) s.inputs
    let wt := drawClock w.2
    let p := callExternal s.params (.proof (vectorRecord a.vec)) wt.2
    let pt := drawClock p.2
    (w.1 = none → killed w.2) ∧
    (∀ r, w.1 = some r →
      (a.prove = false ∨ ¬ callOk r → ∃ st, reportsCall a.vec r st ∧ st.elapsed = wt.1 ∧ returns ⟨st, none⟩ wt.2) ∧
      (a.prove = true → callOk r →
        (p.1 = none → killed p.2) ∧
        ∀ q, p.1 = some q → ∃ st sp, reportsCall a.vec r st ∧ st.elapsed = wt.1 ∧
          reportsCall a.vec q sp ∧ sp.elapsed = pt.1 ∧ returns ⟨st, some sp⟩ pt.2)) ∧
    (.abort ∉ s.inputs.answers → ∃ rep x, returns rep x) ∧
    ((∀ x ∈ s.singles, x.worker ≠ s.line.worker) →
      ∃ n, runEvents (.singleOpen s.line :: List.replicate n (.singleAnswer s.line.worker)) s = exec .runSingle s)

/-! ### The register window (20_memory.md) -/

/-- A request register reads back the value last written to it; `B_IN` and `D_IN` keep bits [7:0]. The write changes
no other engine register and no name, the read only the name it binds, but for the window's owner (20 R72, 10 R44; the owner is the model's,
notes/assumptions/12.md). An address in the window of an instance that is not the one addressed reaches that instance alone
(20 R71, 60 R324; that an instance is found by the page of the address is the model's, 18.md). -/
def Obligations.WindowReadsBackWhatWasWritten : Prop :=
  ∀ (s : State) (w off n : Nat) (v : Word), off % 4 = 0 → off < 0x70 →
    let value : Value := .int (if off = 0x68 ∨ off = 0x6C then v.toNat % 256 else v.toNat)
    let onlyThis : Engine → Engine → Prop := fun e e' =>
      (∀ off', off' % 4 = 0 → off' < 0xC0 → off' ≠ off → off' ≠ 0x70 →
        (windowReg off').map (readReg e') = (windowReg off').map (readReg e)) ∧
      { e' with
        hIn := e.hIn, mIn := e.mIn, t0In := e.t0In, t1In := e.t1In, bIn := e.bIn, dIn := e.dIn, owner := e.owner } = e
    (s.engine.owner = none ∨ s.engine.owner = some w →
      ∃ e' u, let t := { s with engine := e' }
        runEvent (.write w (256 * s.engine.page + off) 4 v) s = .next t ∧
        runEvent (.read w (256 * s.engine.page + off) 4 (some n)) t = .next u ∧
        envGet n u.env = some value ∧ (∀ m, m ≠ n → envGet m u.env = envGet m t.env) ∧ { u with env := t.env } = t ∧
        onlyThis s.engine e') ∧
    (∀ (pre post : List Engine) (e : Engine), ((s.engine :: s.others).map Engine.page).Nodup →
      s.others = pre ++ e :: post → (e.owner = none ∨ e.owner = some w) →
      ∃ e' u, let t := { s with others := pre ++ e' :: post }
        runEvent (.write w (256 * e.page + off) 4 v) s = .next t ∧
        runEvent (.read w (256 * e.page + off) 4 (some n)) t = .next u ∧
        envGet n u.env = some value ∧ (∀ m, m ≠ n → envGet m u.env = envGet m t.env) ∧ { u with env := t.env } = t ∧
        onlyThis e e')

/-- The window takes only 4-byte accesses at multiples of 4: every other read or write is refused (20 R73), at any instance's
window. Refused too are accesses to reserved offsets, writes to STATUS and OUT (20 R72) and reads of CMD (10 R47), these under
both reasons, that of 20 R72 and that of 60 R322, which is the model's choice (notes/assumptions/9.md). -/
def Obligations.WindowRefusesOtherAccesses : Prop :=
  ∀ (s : State) (e : Engine) (w off size : Nat) (v : Word) (dest : Option Nat), e ∈ s.engine :: s.others → off < 256 →
    ((size ≠ 4 ∨ off % 4 ≠ 0 ∨ off = 0x78 ∨ off = 0x7C ∨ 0xC0 ≤ off) →
      runEvent (.read w (256 * e.page + off) size dest) s = .refused (.windowAccess off) ∧
      runEvent (.write w (256 * e.page + off) size v) s = .refused (.windowAccess off)) ∧
    (off = 0x74 ∨ 0x80 ≤ off → runEvent (.write w (256 * e.page + off) size v) s = .refused (.windowAccess off)) ∧
    (off = 0x70 → ∃ r, runEvent (.read w (256 * e.page + off) size dest) s = .refused r ∧
      .windowAccess 0x70 ∈ refusalReasons r ∧ (size = 4 → .notACommand ∈ refusalReasons r))

/-- A read of OUT faults while OUT_VALID is 0 and gives the output word while it is 1; a read of any request register never
written faults; STATUS reads BUSY in bit 0, OUT_VALID in bit 1 and 0 above; a read changes nothing but the bound name and
the window's owner, which is the model's, notes/assumptions/12.md (20 R72, R75, 10 R43, R46, R49). The reads that end a host
sequence are the same: after `i` words the next is OUT[i], put behind them, with the reads that are left next on the agenda; the
sixteenth gives all of them as the result; while OUT_VALID is 0 they fault (20 R77; the event and the agenda are the model's,
5.md, 11.md). So it is at the window of an instance that is not the one addressed (20 R71, 60 R324), found by its page, which
is the model's, 18.md. -/
def Obligations.WindowReadsOfOutAndStatus : Prop :=
  ∀ (s : State) (w n : Nat) (i : Fin 16),
    let readsAs : Engine → (Engine → State) → Prop := fun e put =>
      (e.owner = none ∨ e.owner = some w) →
      let completes : Nat → Nat → Prop := fun off x =>
        ∃ t e', runEvent (.read w (256 * e.page + off) 4 (some n)) s = .next t ∧ envGet n t.env = some (.int x) ∧
          (∀ m, m ≠ n → envGet m t.env = envGet m s.env) ∧ { t with env := s.env } = put e' ∧
            { e' with owner := e.owner } = e
      (e.status.outValid = false →
        runEvent (.read w (256 * e.page + (0x80 + 4 * i.val)) 4 (some n)) s = .fault (.readNoValue (.win (.out i)))) ∧
      (e.status.outValid = true → completes (0x80 + 4 * i.val) e.out[i].toNat) ∧
      (∀ off r, off % 4 = 0 → windowReg off = some r → (r, false) ∈ requestMarks e →
        runEvent (.read w (256 * e.page + off) 4 (some n)) s = .fault (.readNoValue (.win r))) ∧
      (∀ (got : List Nat) (dest : Option Nat), got.length = i.val →
        let next := runEvent (.readOut w e.page got dest) s
        let words := got ++ [e.out[i].toNat]
        (e.status.outValid = false → next = .fault (.readNoValue (.win (.out i)))) ∧
        (e.status.outValid = true → ∃ t e', next = .next t ∧ { e' with owner := e.owner } = e ∧
          (i ≠ 15 → { put e' with agenda := .readOut w e.page words dest :: s.agenda } = t) ∧
          (i = 15 → { t with env := s.env } = put e' ∧ (∀ m, dest = some m → envGet m t.env = some (.words words)) ∧
            ∀ m, dest ≠ some m → envGet m t.env = envGet m s.env))) ∧
      completes 0x74 (e.status.busy.toNat + 2 * e.status.outValid.toNat)
    readsAs s.engine (fun e' => { s with engine := e' }) ∧
    ∀ (pre post : List Engine) (e : Engine), ((s.engine :: s.others).map Engine.page).Nodup → s.others = pre ++ e :: post →
      readsAs e (fun e' => { s with others := pre ++ e' :: post })

/-- A write to CMD by a worker that has the window or finds it free: the word 0x01000000 is a COMPRESS with no operand record,
any other word is refused (10 R47). The worker then has the window, which is the model's (notes/assumptions/12.md). -/
def Obligations.OnlyCompressMayBeWrittenToCmd : Prop :=
  ∀ (s : State) (w : Nat) (v : Word), (s.engine.owner = none ∨ s.engine.owner = some w) →
    (v ≠ 0x01000000#32 → runEvent (.write w (256 * s.engine.page + 0x70) 4 v) s = .refused .notACommand) ∧
    (v = 0x01000000#32 → runEvent (.write w (256 * s.engine.page + 0x70) 4 v) s =
      exec .compress { s with engine := { s.engine with owner := some w }, line := ⟨.host, w, none, [], none⟩ })

/-- Once another worker has accessed an instance's window since a worker's last access, every access of that worker which
passes the WindowAccess checks is refused: reads and writes, polls, the reads of OUT, and a COMPRESS word with no operand. A
first access after another worker's is not: it takes the window, and the other worker's accesses are refused from then on
(20 R86; the reading of interleaving, and the place of this check before NotACommand, tablesNotLoaded, ReadNoValue and the hold,
are the model's, notes/assumptions/12.md, 30.md). -/
def Obligations.InterleavedAccessIsRefused : Prop :=
  ∀ (s : State) (w o : Nat), s.engine.owner = some o → o ≠ w →
    (w ∈ s.engine.past → accessesRefused w s) ∧
    (w ∉ s.engine.past →
      let base := 256 * s.engine.page
      (∀ off v, off % 4 = 0 → off < 0x70 → ∃ t, runEvent (.write w (base + off) 4 v) s = .next t ∧
        t.engine.owner = some w ∧ accessesRefused o t) ∧
      (∀ n, ∃ t, runEvent (.read w (base + 0x74) 4 (some n)) s = .next t ∧ t.engine.owner = some w ∧ accessesRefused o t) ∧
      runEvent (.write w (base + 0x70) 4 0x01000000#32) s =
        exec .compress { s with
          engine := { s.engine with owner := some w, past := o :: s.engine.past }, line := ⟨.host, w, none, [], none⟩ })

/-- The poll loop goes on exactly when STATUS reads OUT_VALID 1; else it stands next again behind a turn of every engine that
is not idle (20 R77, 70 R362; these turns are the model's schedule, notes/assumptions/20.md). -/
def Obligations.PollWaitsForOutValid : Prop :=
  ∀ (s : State) (w : Nat), s.engine.owner = some w →
    let addr := 256 * s.engine.page + 0x74
    (s.engine.status.outValid = true → runEvent (.poll w addr) s = .next s) ∧
    (s.engine.status.outValid = false →
      ∃ turns, runEvent (.poll w addr) s = .next { s with agenda := turns ++ .poll w addr :: s.agenda } ∧
        (∀ ev ∈ turns, ∃ e ∈ s.engine :: s.others, ev = .engine e.page) ∧
        ∀ e ∈ s.engine :: s.others, e.seq ≠ .idle → .engine e.page ∈ turns)

/-! ### Reset (70_reset_and_hazards.md) -/

/-- After reset every instance is idle with STATUS 0 and holds no request, no working state and no output; there is no
generator, no bound name, no suite and no external process (10 R55, 70 R340, R342). A register of no value is one whose every read faults
(notes/assumptions/3.md). -/
def Obligations.ResetStateIsAsTheSpecSays : Prop :=
  (∀ e ∈ State.reset.engine :: State.reset.others,
    e.status.word = 0 ∧ e.seq = .idle ∧ e.latched = false ∧ (∀ r ∈ requestMarks e, r.2 = false)) ∧
  State.reset.gens = [] ∧ State.reset.env = [] ∧ State.reset.suite = none ∧
  State.reset.singles = [] ∧ State.reset.hold = none

/-- A reset puts an engine that is not busy in its reset state, every request register without a value and its constant tables
as they were, and is refused while it is busy (70 R340, R341). A load of tables leaves an engine ready for COMPRESS exactly when
they are IV, PERM, ROT, NROUNDS and GCALL of 10 R30 to R34, and changes nothing else (70 R345; that it may happen in any state,
also on a busy engine or a ready one, is the model's, notes/assumptions/19.md). Both act on the instance they name, the one
addressed or another, and leave the other instances alone (60 R324; that a reset names one instance is the model's, 28.md, and so
is that an instance is named by its page, 18.md). -/
def Obligations.ResetOfAnEngine : Prop :=
  ∀ (s : State) (t : Tables),
    let isReset : Engine → Engine → Prop := fun e e' =>
      e'.status = ⟨false, false⟩ ∧ e'.seq = .idle ∧ e'.latched = false ∧ (∀ m ∈ requestMarks e', m.2 = false) ∧
        e'.tablesReady = e.tablesReady ∧ e'.page = e.page
    let isLoaded : Engine → Engine → Prop := fun e e' =>
      { e' with tablesReady := e.tablesReady } = e ∧
      (e'.tablesReady = true ↔
        t.iv = [0x6A09E667, 0xBB67AE85, 0x3C6EF372, 0xA54FF53A, 0x510E527F, 0x9B05688C, 0x1F83D9AB, 0x5BE0CD19] ∧
        t.perm = [2, 6, 3, 10, 7, 0, 4, 13, 1, 11, 12, 5, 9, 14, 15, 8] ∧ t.rot = [16, 12, 8, 7] ∧ t.nRounds = 7 ∧
        t.gcall = [⟨0, 4, 8, 12, 0, 1⟩, ⟨1, 5, 9, 13, 2, 3⟩, ⟨2, 6, 10, 14, 4, 5⟩, ⟨3, 7, 11, 15, 6, 7⟩,
          ⟨0, 5, 10, 15, 8, 9⟩, ⟨1, 6, 11, 12, 10, 11⟩, ⟨2, 7, 8, 13, 12, 13⟩, ⟨3, 4, 9, 14, 14, 15⟩])
    (s.engine.status.busy = true → runEvent (.reset s.engine.page) s = .refused .resetWhileBusy) ∧
    (s.engine.status.busy = false → ∃ e', runEvent (.reset s.engine.page) s = .next { s with engine := e' } ∧
      isReset s.engine e') ∧
    (∃ e', runEvent (.loadTables s.engine.page t) s = .next { s with engine := e' } ∧ isLoaded s.engine e') ∧
    (∀ (pre post : List Engine) (e : Engine), ((s.engine :: s.others).map Engine.page).Nodup →
      s.others = pre ++ e :: post →
      (e.status.busy = true → runEvent (.reset e.page) s = .refused .resetWhileBusy) ∧
      (e.status.busy = false →
        ∃ e', runEvent (.reset e.page) s = .next { s with others := pre ++ e' :: post } ∧ isReset e e') ∧
      ∃ e', runEvent (.loadTables e.page t) s = .next { s with others := pre ++ e' :: post } ∧ isLoaded e e')

/-! ### The whole machine -/

/-- Every step keeps every engine instance in a legal state: SEQ is IDLE or 1 to 14, BUSY exactly then set, STATUS never 11,
OUT_VALID and a running sequencer only with a request latched, and between two calls of a ROUND SEQ is that of a ROUND
(10 R45, R46, R49; the position inside a ROUND is the model's, notes/assumptions/7.md). -/
def Obligations.EveryStepKeepsEnginesLegal : Prop :=
  ∀ s t : State, enginesOk s → step s = .next t → enginesOk t

/-- Every step keeps the host's data canonical: bound names rising, each once, every vector bound to a name or under a suite or
a RUN_SINGLE a built one, of a legal block length and padded with zeros (43 R180, R185), at most one retry for each external
call (10 R52, 45 R267), and a proof stage under way only when asked for and after a good witness stage (45 R270). That a worker
has at most one RUN_SINGLE under way is the model's (notes/assumptions/32.md). Only BUILD_VECTOR creates a vector (10 R51): a step leaves a name bound to one only if it was so
before, or by issuing that word. The form of the bound names is the model's (notes/assumptions/22.md). -/
def Obligations.EveryStepKeepsHostDataCanonical : Prop :=
  (∀ s t : State, hostOk s → step s = .next t → hostOk t) ∧
    ∀ (s t : State) (n : Nat) (v : VecRec), step s = .next t → envGet n t.env = some (.vec v) →
      envGet n s.env = some (.vec v) ∨
        ∃ l w rest, s.hold = none ∧ s.agenda = .word l w :: rest ∧ decode w = .ok .buildVector

/-- Both invariants hold after reset. -/
def Obligations.InvariantsHoldAtReset : Prop := enginesOk State.reset ∧ hostOk State.reset

/-- In a legal state no instance's step faults or is refused, be it the one addressed or another: V, MS and HL are always
written when the sequencer reads them (10 R49). -/
def Obligations.LegalEnginesNeverStop : Prop :=
  ∀ s : State, enginesOk s → ∀ e ∈ s.engine :: s.others, ∃ t, runEvent (.engine e.page) s = .next t

/-- No step changes the OPEN parameters, nor the number of instances or any of their window pages (60 R324; that the
parameters stand in the state is the model's, notes/assumptions/4.md). -/
def Obligations.ParametersAndPagesNeverChange : Prop :=
  ∀ s t : State, step s = .next t →
    t.params = s.params ∧ ((t.engine :: t.others).map Engine.page).Perm ((s.engine :: s.others).map Engine.page)

/-- No instruction but COMPRESS and FINALIZE changes STATUS (10 R46). That the compressions of a RUN_SUITE
(45 R260) touch no instance of the state is the model's choice (notes/assumptions/16.md). -/
def Obligations.OnlyCompressAndFinalizeWriteStatus : Prop :=
  ∀ (i : Instr) (s t : State), exec i s = .next t → i ≠ .compress → i ≠ .finalize →
    t.engine.status = s.engine.status

/-- No host operation changes any engine instance, whether it returns a value or an error (60 R312; the suite's own
compressions run elsewhere, notes/assumptions/16.md), and no instruction at all changes an instance other than the one
addressed (60 R324). -/
def Obligations.HostOperationsLeaveTheEngines : Prop :=
  ∀ (i : Instr) (s t : State), exec i s = .next t →
    (i.opClass = .host → t.engine = s.engine) ∧ t.others = s.others ∧ t.engine.page = s.engine.page
end

