-- ==== Sys2Proof/Laws/State.lean ====
section
/-! SUPPORT. One lemma per field per update of the state and of an engine instance. -/

namespace Sys2Proof.Machine

open Sys2Proof

/-! ### setEngine -/

@[simp] theorem setEngine_params (e : Engine) (s : State) : (setEngine e s).params = s.params := rfl
@[simp] theorem setEngine_engine (e : Engine) (s : State) : (setEngine e s).engine = e := rfl
@[simp] theorem setEngine_others (e : Engine) (s : State) : (setEngine e s).others = s.others := rfl
@[simp] theorem setEngine_gens (e : Engine) (s : State) : (setEngine e s).gens = s.gens := rfl
@[simp] theorem setEngine_env (e : Engine) (s : State) : (setEngine e s).env = s.env := rfl
@[simp] theorem setEngine_suite (e : Engine) (s : State) : (setEngine e s).suite = s.suite := rfl
@[simp] theorem setEngine_singles (e : Engine) (s : State) : (setEngine e s).singles = s.singles := rfl
@[simp] theorem setEngine_line (e : Engine) (s : State) : (setEngine e s).line = s.line := rfl
@[simp] theorem setEngine_agenda (e : Engine) (s : State) : (setEngine e s).agenda = s.agenda := rfl
@[simp] theorem setEngine_hold (e : Engine) (s : State) : (setEngine e s).hold = s.hold := rfl
@[simp] theorem setEngine_inputs (e : Engine) (s : State) : (setEngine e s).inputs = s.inputs := rfl

/-! ### setGen -/

@[simp] theorem setGen_params (id : Nat) (g : Gen) (s : State) : (setGen id g s).params = s.params := rfl
@[simp] theorem setGen_engine (id : Nat) (g : Gen) (s : State) : (setGen id g s).engine = s.engine := rfl
@[simp] theorem setGen_others (id : Nat) (g : Gen) (s : State) : (setGen id g s).others = s.others := rfl
@[simp] theorem setGen_gens (id : Nat) (g : Gen) (s : State) : (setGen id g s).gens = s.gens.set id g := rfl
@[simp] theorem setGen_env (id : Nat) (g : Gen) (s : State) : (setGen id g s).env = s.env := rfl
@[simp] theorem setGen_suite (id : Nat) (g : Gen) (s : State) : (setGen id g s).suite = s.suite := rfl
@[simp] theorem setGen_singles (id : Nat) (g : Gen) (s : State) : (setGen id g s).singles = s.singles := rfl
@[simp] theorem setGen_line (id : Nat) (g : Gen) (s : State) : (setGen id g s).line = s.line := rfl
@[simp] theorem setGen_agenda (id : Nat) (g : Gen) (s : State) : (setGen id g s).agenda = s.agenda := rfl
@[simp] theorem setGen_hold (id : Nat) (g : Gen) (s : State) : (setGen id g s).hold = s.hold := rfl
@[simp] theorem setGen_inputs (id : Nat) (g : Gen) (s : State) : (setGen id g s).inputs = s.inputs := rfl

/-! ### holdBusy -/

@[simp] theorem holdBusy_params (s : State) : (holdBusy s).params = s.params := rfl
@[simp] theorem holdBusy_engine (s : State) : (holdBusy s).engine = s.engine := rfl
@[simp] theorem holdBusy_others (s : State) : (holdBusy s).others = s.others := rfl
@[simp] theorem holdBusy_gens (s : State) : (holdBusy s).gens = s.gens := rfl
@[simp] theorem holdBusy_env (s : State) : (holdBusy s).env = s.env := rfl
@[simp] theorem holdBusy_suite (s : State) : (holdBusy s).suite = s.suite := rfl
@[simp] theorem holdBusy_singles (s : State) : (holdBusy s).singles = s.singles := rfl
@[simp] theorem holdBusy_line (s : State) : (holdBusy s).line = s.line := rfl
@[simp] theorem holdBusy_agenda (s : State) : (holdBusy s).agenda = s.agenda := rfl
@[simp] theorem holdBusy_hold (s : State) : (holdBusy s).hold = some (.cmdWhileBusy s.engine.page) := rfl
@[simp] theorem holdBusy_inputs (s : State) : (holdBusy s).inputs = s.inputs := rfl

/-! ### killExternal -/

@[simp] theorem killExternal_params (s : State) : (killExternal s).params = s.params := rfl
@[simp] theorem killExternal_engine (s : State) : (killExternal s).engine = s.engine := rfl
@[simp] theorem killExternal_others (s : State) : (killExternal s).others = s.others := rfl
@[simp] theorem killExternal_gens (s : State) : (killExternal s).gens = s.gens := rfl
@[simp] theorem killExternal_env (s : State) : (killExternal s).env = s.env := rfl
@[simp] theorem killExternal_line (s : State) : (killExternal s).line = s.line := rfl
@[simp] theorem killExternal_agenda (s : State) : (killExternal s).agenda = s.agenda := rfl
@[simp] theorem killExternal_hold (s : State) : (killExternal s).hold = s.hold := rfl
@[simp] theorem killExternal_inputs (s : State) : (killExternal s).inputs = s.inputs := rfl
@[simp] theorem killExternal_suite (s : State) : (killExternal s).suite = none := rfl
@[simp] theorem killExternal_singles (s : State) : (killExternal s).singles = [] := rfl

/-! ### expandCompress -/

@[simp] theorem expandCompress_params (r : VecRec) (s : State) : (expandCompress r s).params = s.params := rfl
@[simp] theorem expandCompress_engine (r : VecRec) (s : State) : (expandCompress r s).engine = s.engine := rfl
@[simp] theorem expandCompress_others (r : VecRec) (s : State) : (expandCompress r s).others = s.others := rfl
@[simp] theorem expandCompress_gens (r : VecRec) (s : State) : (expandCompress r s).gens = s.gens := rfl
@[simp] theorem expandCompress_env (r : VecRec) (s : State) : (expandCompress r s).env = s.env := rfl
@[simp] theorem expandCompress_suite (r : VecRec) (s : State) : (expandCompress r s).suite = s.suite := rfl
@[simp] theorem expandCompress_singles (r : VecRec) (s : State) : (expandCompress r s).singles = s.singles := rfl
@[simp] theorem expandCompress_line (r : VecRec) (s : State) : (expandCompress r s).line = s.line := rfl
@[simp] theorem expandCompress_agenda (r : VecRec) (s : State) :
    (expandCompress r s).agenda = hostSequence s.line.worker s.engine.page r s.line.dest ++ s.agenda := rfl
@[simp] theorem expandCompress_hold (r : VecRec) (s : State) : (expandCompress r s).hold = s.hold := rfl
@[simp] theorem expandCompress_inputs (r : VecRec) (s : State) : (expandCompress r s).inputs = s.inputs := rfl

/-! ### bindTo -/

@[simp] theorem bindTo_params (d : Option Nat) (v : Value) (s : State) : (bindTo d v s).params = s.params := by cases d <;> rfl
@[simp] theorem bindTo_engine (d : Option Nat) (v : Value) (s : State) : (bindTo d v s).engine = s.engine := by cases d <;> rfl
@[simp] theorem bindTo_others (d : Option Nat) (v : Value) (s : State) : (bindTo d v s).others = s.others := by cases d <;> rfl
@[simp] theorem bindTo_gens (d : Option Nat) (v : Value) (s : State) : (bindTo d v s).gens = s.gens := by cases d <;> rfl
@[simp] theorem bindTo_suite (d : Option Nat) (v : Value) (s : State) : (bindTo d v s).suite = s.suite := by cases d <;> rfl
@[simp] theorem bindTo_singles (d : Option Nat) (v : Value) (s : State) : (bindTo d v s).singles = s.singles := by cases d <;> rfl
@[simp] theorem bindTo_line (d : Option Nat) (v : Value) (s : State) : (bindTo d v s).line = s.line := by cases d <;> rfl
@[simp] theorem bindTo_agenda (d : Option Nat) (v : Value) (s : State) : (bindTo d v s).agenda = s.agenda := by cases d <;> rfl
@[simp] theorem bindTo_hold (d : Option Nat) (v : Value) (s : State) : (bindTo d v s).hold = s.hold := by cases d <;> rfl
@[simp] theorem bindTo_inputs (d : Option Nat) (v : Value) (s : State) : (bindTo d v s).inputs = s.inputs := by cases d <;> rfl

/-! ### bindResult -/

@[simp] theorem bindResult_params (v : Value) (s : State) : (bindResult v s).params = s.params := by simp [bindResult]
@[simp] theorem bindResult_engine (v : Value) (s : State) : (bindResult v s).engine = s.engine := by simp [bindResult]
@[simp] theorem bindResult_others (v : Value) (s : State) : (bindResult v s).others = s.others := by simp [bindResult]
@[simp] theorem bindResult_gens (v : Value) (s : State) : (bindResult v s).gens = s.gens := by simp [bindResult]
@[simp] theorem bindResult_suite (v : Value) (s : State) : (bindResult v s).suite = s.suite := by simp [bindResult]
@[simp] theorem bindResult_singles (v : Value) (s : State) : (bindResult v s).singles = s.singles := by simp [bindResult]
@[simp] theorem bindResult_line (v : Value) (s : State) : (bindResult v s).line = s.line := by simp [bindResult]
@[simp] theorem bindResult_agenda (v : Value) (s : State) : (bindResult v s).agenda = s.agenda := by simp [bindResult]
@[simp] theorem bindResult_hold (v : Value) (s : State) : (bindResult v s).hold = s.hold := by simp [bindResult]
@[simp] theorem bindResult_inputs (v : Value) (s : State) : (bindResult v s).inputs = s.inputs := by simp [bindResult]

/-! ### raiseError -/

@[simp] theorem raiseError_params (e : ErrorKind) (s : State) : (raiseError e s).params = s.params := by simp [raiseError]
@[simp] theorem raiseError_engine (e : ErrorKind) (s : State) : (raiseError e s).engine = s.engine := by simp [raiseError]
@[simp] theorem raiseError_others (e : ErrorKind) (s : State) : (raiseError e s).others = s.others := by simp [raiseError]
@[simp] theorem raiseError_gens (e : ErrorKind) (s : State) : (raiseError e s).gens = s.gens := by simp [raiseError]
@[simp] theorem raiseError_suite (e : ErrorKind) (s : State) : (raiseError e s).suite = s.suite := by simp [raiseError]
@[simp] theorem raiseError_singles (e : ErrorKind) (s : State) : (raiseError e s).singles = s.singles := by simp [raiseError]
@[simp] theorem raiseError_line (e : ErrorKind) (s : State) : (raiseError e s).line = s.line := by simp [raiseError]
@[simp] theorem raiseError_agenda (e : ErrorKind) (s : State) : (raiseError e s).agenda = s.agenda := by simp [raiseError]
@[simp] theorem raiseError_hold (e : ErrorKind) (s : State) : (raiseError e s).hold = s.hold := by simp [raiseError]
@[simp] theorem raiseError_inputs (e : ErrorKind) (s : State) : (raiseError e s).inputs = s.inputs := by simp [raiseError]

/-! ### liftHold -/

@[simp] theorem liftHold_params (s : State) : (liftHold s).params = s.params := by simp only [liftHold]; split <;> rfl
@[simp] theorem liftHold_engine (s : State) : (liftHold s).engine = s.engine := by simp only [liftHold]; split <;> rfl
@[simp] theorem liftHold_others (s : State) : (liftHold s).others = s.others := by simp only [liftHold]; split <;> rfl
@[simp] theorem liftHold_gens (s : State) : (liftHold s).gens = s.gens := by simp only [liftHold]; split <;> rfl
@[simp] theorem liftHold_env (s : State) : (liftHold s).env = s.env := by simp only [liftHold]; split <;> rfl
@[simp] theorem liftHold_suite (s : State) : (liftHold s).suite = s.suite := by simp only [liftHold]; split <;> rfl
@[simp] theorem liftHold_singles (s : State) : (liftHold s).singles = s.singles := by simp only [liftHold]; split <;> rfl
@[simp] theorem liftHold_line (s : State) : (liftHold s).line = s.line := by simp only [liftHold]; split <;> rfl
@[simp] theorem liftHold_agenda (s : State) : (liftHold s).agenda = s.agenda := by simp only [liftHold]; split <;> rfl
/-- Lifting a hold writes the hold only. -/
theorem liftHold_eq (s : State) :
    liftHold s = { s with hold := if s.hold = some (.cmdWhileBusy s.engine.page) then none else s.hold } := by
  unfold liftHold
  split <;> rfl

@[simp] theorem liftHold_inputs (s : State) : (liftHold s).inputs = s.inputs := by simp only [liftHold]; split <;> rfl

@[simp] theorem bindTo_none (v : Value) (s : State) : bindTo none v s = s := rfl
@[simp] theorem bindTo_some (n : Nat) (v : Value) (s : State) :
    bindTo (some n) v s = { s with env := envSet n v s.env } := rfl

/-- Replacing the engine by itself changes nothing. -/
@[simp] theorem setEngine_engine_self (s : State) : setEngine s.engine s = s := rfl
@[simp] theorem setEngine_setEngine (e e' : Engine) (s : State) : setEngine e (setEngine e' s) = setEngine e s := rfl

/-! ### latchRequest -/

@[simp] theorem latchRequest_page (r : VecRec) (e : Engine) : (latchRequest r e).page = e.page := rfl
@[simp] theorem latchRequest_hIn (r : VecRec) (e : Engine) : (latchRequest r e).hIn = e.hIn := rfl
@[simp] theorem latchRequest_mIn (r : VecRec) (e : Engine) : (latchRequest r e).mIn = e.mIn := rfl
@[simp] theorem latchRequest_t0In (r : VecRec) (e : Engine) : (latchRequest r e).t0In = e.t0In := rfl
@[simp] theorem latchRequest_t1In (r : VecRec) (e : Engine) : (latchRequest r e).t1In = e.t1In := rfl
@[simp] theorem latchRequest_bIn (r : VecRec) (e : Engine) : (latchRequest r e).bIn = e.bIn := rfl
@[simp] theorem latchRequest_dIn (r : VecRec) (e : Engine) : (latchRequest r e).dIn = e.dIn := rfl
@[simp] theorem latchRequest_v (r : VecRec) (e : Engine) : (latchRequest r e).v = initV r := rfl
@[simp] theorem latchRequest_ms (r : VecRec) (e : Engine) : (latchRequest r e).ms = r.m := rfl
@[simp] theorem latchRequest_hl (r : VecRec) (e : Engine) : (latchRequest r e).hl = r.h := rfl
@[simp] theorem latchRequest_latched (r : VecRec) (e : Engine) : (latchRequest r e).latched = true := rfl
@[simp] theorem latchRequest_out (r : VecRec) (e : Engine) : (latchRequest r e).out = e.out := rfl
@[simp] theorem latchRequest_status (r : VecRec) (e : Engine) : (latchRequest r e).status = e.status := rfl
@[simp] theorem latchRequest_seq (r : VecRec) (e : Engine) : (latchRequest r e).seq = e.seq := rfl
@[simp] theorem latchRequest_tablesReady (r : VecRec) (e : Engine) : (latchRequest r e).tablesReady = e.tablesReady := rfl
@[simp] theorem latchRequest_owner (r : VecRec) (e : Engine) : (latchRequest r e).owner = e.owner := rfl
@[simp] theorem latchRequest_past (r : VecRec) (e : Engine) : (latchRequest r e).past = e.past := rfl

/-! ### finalizeEngine -/

@[simp] theorem finalizeEngine_page (e : Engine) : (finalizeEngine e).page = e.page := rfl
@[simp] theorem finalizeEngine_hIn (e : Engine) : (finalizeEngine e).hIn = e.hIn := rfl
@[simp] theorem finalizeEngine_mIn (e : Engine) : (finalizeEngine e).mIn = e.mIn := rfl
@[simp] theorem finalizeEngine_t0In (e : Engine) : (finalizeEngine e).t0In = e.t0In := rfl
@[simp] theorem finalizeEngine_t1In (e : Engine) : (finalizeEngine e).t1In = e.t1In := rfl
@[simp] theorem finalizeEngine_bIn (e : Engine) : (finalizeEngine e).bIn = e.bIn := rfl
@[simp] theorem finalizeEngine_dIn (e : Engine) : (finalizeEngine e).dIn = e.dIn := rfl
@[simp] theorem finalizeEngine_v (e : Engine) : (finalizeEngine e).v = e.v := rfl
@[simp] theorem finalizeEngine_ms (e : Engine) : (finalizeEngine e).ms = e.ms := rfl
@[simp] theorem finalizeEngine_hl (e : Engine) : (finalizeEngine e).hl = e.hl := rfl
@[simp] theorem finalizeEngine_latched (e : Engine) : (finalizeEngine e).latched = e.latched := rfl
@[simp] theorem finalizeEngine_out (e : Engine) : (finalizeEngine e).out = finalizeOut e.v e.hl := rfl
@[simp] theorem finalizeEngine_status (e : Engine) : (finalizeEngine e).status = ⟨false, true⟩ := rfl
@[simp] theorem finalizeEngine_seq (e : Engine) : (finalizeEngine e).seq = .idle := rfl
@[simp] theorem finalizeEngine_tablesReady (e : Engine) : (finalizeEngine e).tablesReady = e.tablesReady := rfl
@[simp] theorem finalizeEngine_owner (e : Engine) : (finalizeEngine e).owner = e.owner := rfl
@[simp] theorem finalizeEngine_past (e : Engine) : (finalizeEngine e).past = e.past := rfl

/-! ### transactEngine -/

@[simp] theorem transactEngine_page (r : VecRec) (e : Engine) : (transactEngine r e).page = e.page := rfl
@[simp] theorem transactEngine_hIn (r : VecRec) (e : Engine) : (transactEngine r e).hIn = e.hIn := rfl
@[simp] theorem transactEngine_mIn (r : VecRec) (e : Engine) : (transactEngine r e).mIn = e.mIn := rfl
@[simp] theorem transactEngine_t0In (r : VecRec) (e : Engine) : (transactEngine r e).t0In = e.t0In := rfl
@[simp] theorem transactEngine_t1In (r : VecRec) (e : Engine) : (transactEngine r e).t1In = e.t1In := rfl
@[simp] theorem transactEngine_bIn (r : VecRec) (e : Engine) : (transactEngine r e).bIn = e.bIn := rfl
@[simp] theorem transactEngine_dIn (r : VecRec) (e : Engine) : (transactEngine r e).dIn = e.dIn := rfl
@[simp] theorem transactEngine_v (r : VecRec) (e : Engine) : (transactEngine r e).v = (compressRun r).2 := rfl
@[simp] theorem transactEngine_ms (r : VecRec) (e : Engine) : (transactEngine r e).ms = (compressRun r).1 := rfl
@[simp] theorem transactEngine_hl (r : VecRec) (e : Engine) : (transactEngine r e).hl = r.h := rfl
@[simp] theorem transactEngine_latched (r : VecRec) (e : Engine) : (transactEngine r e).latched = true := rfl
@[simp] theorem transactEngine_out (r : VecRec) (e : Engine) : (transactEngine r e).out = compress r := rfl
@[simp] theorem transactEngine_status (r : VecRec) (e : Engine) : (transactEngine r e).status = ⟨false, true⟩ := rfl
@[simp] theorem transactEngine_seq (r : VecRec) (e : Engine) : (transactEngine r e).seq = .idle := rfl
@[simp] theorem transactEngine_tablesReady (r : VecRec) (e : Engine) : (transactEngine r e).tablesReady = e.tablesReady := rfl
@[simp] theorem transactEngine_owner (r : VecRec) (e : Engine) : (transactEngine r e).owner = e.owner := rfl
@[simp] theorem transactEngine_past (r : VecRec) (e : Engine) : (transactEngine r e).past = e.past := rfl

/-! ### commandEngine -/

@[simp] theorem commandEngine_page (r : VecRec) (e : Engine) : (commandEngine r e).page = e.page := rfl
@[simp] theorem commandEngine_hIn (r : VecRec) (e : Engine) : (commandEngine r e).hIn = e.hIn := rfl
@[simp] theorem commandEngine_mIn (r : VecRec) (e : Engine) : (commandEngine r e).mIn = e.mIn := rfl
@[simp] theorem commandEngine_t0In (r : VecRec) (e : Engine) : (commandEngine r e).t0In = e.t0In := rfl
@[simp] theorem commandEngine_t1In (r : VecRec) (e : Engine) : (commandEngine r e).t1In = e.t1In := rfl
@[simp] theorem commandEngine_bIn (r : VecRec) (e : Engine) : (commandEngine r e).bIn = e.bIn := rfl
@[simp] theorem commandEngine_dIn (r : VecRec) (e : Engine) : (commandEngine r e).dIn = e.dIn := rfl
@[simp] theorem commandEngine_v (r : VecRec) (e : Engine) : (commandEngine r e).v = initV r := rfl
@[simp] theorem commandEngine_ms (r : VecRec) (e : Engine) : (commandEngine r e).ms = r.m := rfl
@[simp] theorem commandEngine_hl (r : VecRec) (e : Engine) : (commandEngine r e).hl = r.h := rfl
@[simp] theorem commandEngine_latched (r : VecRec) (e : Engine) : (commandEngine r e).latched = true := rfl
@[simp] theorem commandEngine_out (r : VecRec) (e : Engine) : (commandEngine r e).out = e.out := rfl
@[simp] theorem commandEngine_status (r : VecRec) (e : Engine) : (commandEngine r e).status = ⟨true, false⟩ := rfl
@[simp] theorem commandEngine_seq (r : VecRec) (e : Engine) : (commandEngine r e).seq = .at 1 := rfl
@[simp] theorem commandEngine_tablesReady (r : VecRec) (e : Engine) : (commandEngine r e).tablesReady = e.tablesReady := rfl
@[simp] theorem commandEngine_owner (r : VecRec) (e : Engine) : (commandEngine r e).owner = e.owner := rfl
@[simp] theorem commandEngine_past (r : VecRec) (e : Engine) : (commandEngine r e).past = e.past := rfl

/-! ### putRequest -/

@[simp] theorem putRequest_page (r : VecRec) (e : Engine) : (putRequest r e).page = e.page := rfl
@[simp] theorem putRequest_hIn (r : VecRec) (e : Engine) : (putRequest r e).hIn = r.h.map fun w => ⟨w, true⟩ := rfl
@[simp] theorem putRequest_mIn (r : VecRec) (e : Engine) : (putRequest r e).mIn = r.m.map fun w => ⟨w, true⟩ := rfl
@[simp] theorem putRequest_t0In (r : VecRec) (e : Engine) : (putRequest r e).t0In = ⟨r.t0, true⟩ := rfl
@[simp] theorem putRequest_t1In (r : VecRec) (e : Engine) : (putRequest r e).t1In = ⟨r.t1, true⟩ := rfl
@[simp] theorem putRequest_bIn (r : VecRec) (e : Engine) : (putRequest r e).bIn = ⟨r.b, true⟩ := rfl
@[simp] theorem putRequest_dIn (r : VecRec) (e : Engine) : (putRequest r e).dIn = ⟨r.d, true⟩ := rfl
@[simp] theorem putRequest_v (r : VecRec) (e : Engine) : (putRequest r e).v = e.v := rfl
@[simp] theorem putRequest_ms (r : VecRec) (e : Engine) : (putRequest r e).ms = e.ms := rfl
@[simp] theorem putRequest_hl (r : VecRec) (e : Engine) : (putRequest r e).hl = e.hl := rfl
@[simp] theorem putRequest_latched (r : VecRec) (e : Engine) : (putRequest r e).latched = e.latched := rfl
@[simp] theorem putRequest_out (r : VecRec) (e : Engine) : (putRequest r e).out = e.out := rfl
@[simp] theorem putRequest_status (r : VecRec) (e : Engine) : (putRequest r e).status = e.status := rfl
@[simp] theorem putRequest_seq (r : VecRec) (e : Engine) : (putRequest r e).seq = e.seq := rfl
@[simp] theorem putRequest_tablesReady (r : VecRec) (e : Engine) : (putRequest r e).tablesReady = e.tablesReady := rfl
@[simp] theorem putRequest_owner (r : VecRec) (e : Engine) : (putRequest r e).owner = e.owner := rfl
@[simp] theorem putRequest_past (r : VecRec) (e : Engine) : (putRequest r e).past = e.past := rfl

end Sys2Proof.Machine
end

