-- ==== Sys2Proof/Laws/Env.lean ====
section
/-! SUPPORT. Bound names: reading after binding, and that binding keeps the canonical form. -/

namespace Sys2Proof.Machine

open Sys2Proof

@[simp] theorem envGet_envSet_same (n : Nat) (v : Value) (env : List (Nat × Value)) :
    envGet n (envSet n v env) = some v := by
  induction env with
  | nil => simp [envSet, envGet]
  | cons x rest ih =>
    obtain ⟨k, w⟩ := x
    simp only [envSet]
    split
    · simp [envGet]
    · split
      · simp [envGet]
      · rename_i h1 h2
        have hk : k ≠ n := fun h => h2 h.symm
        simp [envGet, hk, ih]

theorem envGet_envSet_other {n m : Nat} (h : n ≠ m) (v : Value) (env : List (Nat × Value)) :
    envGet m (envSet n v env) = envGet m env := by
  induction env with
  | nil => simp [envSet, envGet, h]
  | cons x rest ih =>
    obtain ⟨k, w⟩ := x
    simp only [envSet]
    split
    · simp [envGet, h]
    · split
      · rename_i h1 h2
        subst h2
        simp [envGet, h]
      · simp only [envGet]
        split
        · rfl
        · exact ih

/-- The canonical form, said of the first name and the rest. -/
theorem envWf_cons {k : Nat} {v : Value} {rest : List (Nat × Value)} :
    envWf ((k, v) :: rest) = true ↔ (∀ x ∈ rest.head?, k < x.1) ∧ envWf rest = true := by
  cases rest with
  | nil => simp [envWf]
  | cons y ys => obtain ⟨k', v'⟩ := y; simp [envWf]

/-- The first name after binding `n` is `n` or the first name before. -/
theorem envSet_head (n : Nat) (v : Value) (env : List (Nat × Value)) :
    ∀ x ∈ (envSet n v env).head?, x.1 = n ∨ ∃ y ∈ env.head?, x.1 = y.1 := by
  cases env with
  | nil => simp [envSet]
  | cons y ys =>
    obtain ⟨k, w⟩ := y
    simp only [envSet]
    split
    · simp
    · split
      · simp
      · simp

/-- Binding keeps the canonical form. -/
theorem envSet_wf (n : Nat) (v : Value) (env : List (Nat × Value)) (h : envWf env = true) :
    envWf (envSet n v env) = true := by
  induction env with
  | nil => simp [envSet, envWf]
  | cons x rest ih =>
    obtain ⟨k, w⟩ := x
    have hc := envWf_cons.mp h
    simp only [envSet]
    split
    · rename_i hlt
      exact envWf_cons.mpr ⟨by simpa using hlt, h⟩
    · split
      · rename_i heq
        exact envWf_cons.mpr ⟨by simpa [heq] using hc.1, hc.2⟩
      · rename_i h1 h2
        refine envWf_cons.mpr ⟨fun x hx => ?_, ih hc.2⟩
        rcases envSet_head n v rest x hx with e | ⟨y, hy, e⟩
        · omega
        · exact e ▸ hc.1 y hy

theorem bindTo_wf (d : Option Nat) (v : Value) (s : State) (h : envWf s.env = true) :
    envWf (bindTo d v s).env = true := by
  cases d with
  | none => simpa using h
  | some n => exact envSet_wf n v s.env h

/-- What a name is bound to after binding another: the value bound, or what it was bound to before. -/
theorem envGet_bindTo {n : Nat} {d : Option Nat} {v w : Value} {s : State} (h : envGet n (bindTo d v s).env = some w) :
    w = v ∨ envGet n s.env = some w := by
  cases d with
  | none => exact .inr h
  | some m =>
    change envGet n (envSet m v s.env) = some w at h
    by_cases hm : m = n
    · subst hm; rw [envGet_envSet_same] at h; exact .inl (Option.some.inj h).symm
    · rw [envGet_envSet_other hm] at h; exact .inr h

/-- Binding a value that is no vector leaves a name bound to a vector only where it was so before. -/
theorem envGet_bindTo_vec {n : Nat} {d : Option Nat} {v : Value} {x : VecRec} {s : State} (hv : ∀ y, v ≠ .vec y)
    (h : envGet n (bindTo d v s).env = some (.vec x)) : envGet n s.env = some (.vec x) :=
  (envGet_bindTo h).resolve_left fun e => hv x e.symm

/-- Binding an operation's result is what `boundResult` says, where the line and the names are those of `s`. -/
theorem boundResult_bindResult {s u : State} (v : Value) (hl : u.line = s.line) (he : u.env = s.env) :
    boundResult s (bindResult v u) v := by
  constructor
  · intro n hn
    simp [bindResult, hl, hn]
  · intro n hn
    cases hd : s.line.dest with
    | none => simp [bindResult, hl, hd, he]
    | some m =>
      have hm : m ≠ n := fun h => hn (by rw [hd, h])
      simp [bindResult, hl, hd, he, envGet_envSet_other hm]

end Sys2Proof.Machine
end

