-- ==== Sys2Proof/Laws/Engines.lean ====
section
/-! SUPPORT. Addressing an engine instance: what `focus` and `withEngine` can do, and that whatever holds of every instance
and is kept by the operation itself is kept through them. -/

namespace Sys2Proof.Machine

open Sys2Proof

/-- Taking an instance out of a list leaves the rest, with the one given in its place. -/
theorem swapIn_mem {page : Nat} {e x : Engine} {es es' : List Engine} (h : swapIn page e es = some (x, es')) :
    x ∈ es ∧ x.page = page ∧ ∀ y ∈ es', y = e ∨ y ∈ es := by
  induction es generalizing es' with
  | nil => simp [swapIn] at h
  | cons z zs ih =>
    simp only [swapIn] at h
    split at h
    · rename_i hz
      simp only [Option.some.injEq, Prod.mk.injEq] at h
      obtain ⟨rfl, rfl⟩ := h
      refine ⟨by simp, hz, fun y hy => ?_⟩
      rcases List.mem_cons.mp hy with rfl | hy
      · exact .inl rfl
      · exact .inr (List.mem_cons_of_mem _ hy)
    · cases hs : swapIn page e zs with
      | none => simp [hs] at h
      | some p =>
        obtain ⟨w, ws⟩ := p
        simp only [hs, Option.some.injEq, Prod.mk.injEq] at h
        obtain ⟨rfl, rfl⟩ := h
        obtain ⟨h1, h2, h3⟩ := ih hs
        refine ⟨List.mem_cons_of_mem _ h1, h2, fun y hy => ?_⟩
        rcases List.mem_cons.mp hy with rfl | hy
        · exact .inr (by simp)
        · exact (h3 y hy).imp id (List.mem_cons_of_mem _)

/-- Addressing an instance only moves instances. -/
theorem focus_cases {page : Nat} {s t : State} (h : focus page s = some t) :
    t = s ∨ ∃ e os, swapIn page s.engine s.others = some (e, os) ∧ t = { s with engine := e, others := os } := by
  simp only [focus] at h
  split at h
  · exact .inl (Option.some.inj h).symm
  · cases hs : swapIn page s.engine s.others with
    | none => simp [hs] at h
    | some p =>
      obtain ⟨e, os⟩ := p
      simp only [hs, Option.some.injEq] at h
      exact .inr ⟨e, os, rfl, h.symm⟩

@[simp] theorem focus_self (s : State) : focus s.engine.page s = some s := by simp [focus]

/-- What holds of every instance holds of every instance after addressing another. -/
theorem focus_keeps {Q : Engine → Prop} {page : Nat} {s t : State} (h : focus page s = some t)
    (hq : ∀ e ∈ s.engine :: s.others, Q e) : ∀ e ∈ t.engine :: t.others, Q e := by
  rcases focus_cases h with rfl | ⟨e, os, hs, rfl⟩
  · exact hq
  · obtain ⟨h1, -, h3⟩ := swapIn_mem hs
    intro x hx
    rcases List.mem_cons.mp hx with rfl | hx
    · exact hq _ (List.mem_cons_of_mem _ h1)
    · rcases h3 x hx with rfl | hx
      · exact hq _ (by simp)
      · exact hq _ (List.mem_cons_of_mem _ hx)

/-- Everything but the instances is as before after addressing another. -/
theorem focus_frame {page : Nat} {s t : State} (h : focus page s = some t) :
    t = { s with engine := t.engine, others := t.others } := by
  rcases focus_cases h with rfl | ⟨e, os, -, rfl⟩ <;> rfl

/-- Acting on the instance already addressed is the action itself. -/
@[simp] theorem withEngine_self (a : Refusal) (s : State) (f : State → StepResult) :
    withEngine s.engine.page a s f = f s := by simp [withEngine]

@[simp] theorem onEngine_none (s : State) (f : State → StepResult) : onEngine none s f = f s := rfl

/-- What `withEngine` can answer: the action's own next state on the instance found, with the former instance addressed
again where it is still there. -/
theorem withEngine_next {page : Nat} {a : Refusal} {s u : State} {f : State → StepResult}
    (h : withEngine page a s f = .next u) :
    f s = .next u ∨ ∃ t w, focus page s = some t ∧ f t = .next w ∧ (u = w ∨ focus s.engine.page w = some u) := by
  simp only [withEngine] at h
  split at h
  · exact .inl h
  · cases ht : focus page s with
    | none => simp [ht] at h
    | some t =>
      simp only [ht] at h
      cases hf : f t with
      | fault x => simp [hf] at h
      | refused x => simp [hf] at h
      | next w =>
        simp only [hf, Host.Outcome.next.injEq] at h
        refine .inr ⟨t, w, rfl, hf, ?_⟩
        cases hb : focus s.engine.page w with
        | none => exact .inl (by simpa [hb] using h.symm)
        | some v => exact .inr (by simpa [hb] using h)

/-- A property of every instance that the action keeps is kept through `withEngine`. -/
theorem withEngine_keeps {Q : Engine → Prop} {page : Nat} {a : Refusal} {s u : State} {f : State → StepResult}
    (h : withEngine page a s f = .next u) (hq : ∀ e ∈ s.engine :: s.others, Q e)
    (hf : ∀ t w, (∀ e ∈ t.engine :: t.others, Q e) → f t = .next w → ∀ e ∈ w.engine :: w.others, Q e) :
    ∀ e ∈ u.engine :: u.others, Q e := by
  rcases withEngine_next h with h | ⟨t, w, ht, hw, rfl | hu⟩
  · exact hf _ _ hq h
  · exact hf _ _ (focus_keeps ht hq) hw
  · exact focus_keeps hu (hf _ _ (focus_keeps ht hq) hw)

/-- A property of the rest of the state that the action keeps is kept through `withEngine`. -/
theorem withEngine_keeps_rest {P : State → Prop} {page : Nat} {a : Refusal} {s u : State} {f : State → StepResult}
    (hP : ∀ (t : State) (e : Engine) (os : List Engine), P t → P { t with engine := e, others := os })
    (h : withEngine page a s f = .next u) (hs : P s) (hf : ∀ t w, P t → f t = .next w → P w) : P u := by
  rcases withEngine_next h with h | ⟨t, w, ht, hw, rfl | hu⟩
  · exact hf _ _ hs h
  · exact hf _ _ (focus_frame ht ▸ hP _ _ _ hs) hw
  · exact focus_frame hu ▸ hP _ _ _ (hf _ _ (focus_frame ht ▸ hP _ _ _ hs) hw)

/-- Taking out an instance that stands behind instances of other pages. -/
theorem swapIn_append {e x : Engine} {pre post : List Engine} (h : ∀ y ∈ pre, y.page ≠ x.page) :
    swapIn x.page e (pre ++ x :: post) = some (x, pre ++ e :: post) := by
  induction pre with
  | nil => simp [swapIn]
  | cons y ys ih =>
    simp only [List.cons_append, swapIn]
    rw [if_neg (h y (by simp)), ih fun z hz => h z (by simp [hz])]

/-- Instances of distinct pages: the instance addressed and the ones before `e` have pages other than `e`'s. -/
theorem pages_distinct {s : State} {e : Engine} {pre post : List Engine}
    (hd : ((s.engine :: s.others).map Engine.page).Nodup) (ho : s.others = pre ++ e :: post) :
    s.engine.page ≠ e.page ∧ (∀ y ∈ pre, y.page ≠ e.page) ∧ ∀ y ∈ pre, y.page ≠ s.engine.page := by
  simp only [ho, List.map_cons, List.map_append, List.nodup_cons, List.nodup_append, List.mem_append, List.mem_cons,
    List.mem_map, not_or, not_exists, not_and] at hd
  obtain ⟨⟨h1, h2, -⟩, -, -, h3⟩ := hd
  exact ⟨h2, fun y hy => h3 _ ⟨y, hy, rfl⟩ _ (.inl rfl), h1⟩

/-- Acting on an instance of the others acts on it as if it were addressed, and the rest stay where they are, the instance
addressed too. -/
theorem withEngine_other {a : Refusal} {s u : State} {e : Engine} {pre post : List Engine} {f : State → StepResult}
    (hd : ((s.engine :: s.others).map Engine.page).Nodup) (ho : s.others = pre ++ e :: post)
    (hf : f { s with engine := e, others := pre ++ s.engine :: post } = .next u)
    (hp : u.engine.page = e.page) (hu : u.others = pre ++ s.engine :: post) :
    withEngine e.page a s f = .next { u with engine := s.engine, others := pre ++ u.engine :: post } := by
  obtain ⟨h1, h2, h3⟩ := pages_distinct hd ho
  have hfocus : focus e.page s = some { s with engine := e, others := pre ++ s.engine :: post } := by
    simp only [focus, if_neg h1, ho, swapIn_append h2]
  have hback : focus s.engine.page u = some { u with engine := s.engine, others := pre ++ u.engine :: post } := by
    simp only [focus, hu, swapIn_append h3]
    rw [if_neg (hp ▸ h1.symm)]
  simp only [withEngine, if_neg h1, hfocus, hf, hback, Option.getD_some]

/-- A stop of the action on an instance of the others is the stop of the whole. -/
theorem withEngine_other_refused {a r : Refusal} {s : State} {e : Engine} {pre post : List Engine} {f : State → StepResult}
    (hd : ((s.engine :: s.others).map Engine.page).Nodup) (ho : s.others = pre ++ e :: post)
    (hf : f { s with engine := e, others := pre ++ s.engine :: post } = .refused r) :
    withEngine e.page a s f = .refused r := by
  obtain ⟨h1, h2, -⟩ := pages_distinct hd ho
  simp only [withEngine, if_neg h1, focus, ho, swapIn_append h2, hf]

theorem withEngine_other_fault {a : Refusal} {x : Fault} {s : State} {e : Engine} {pre post : List Engine}
    {f : State → StepResult} (hd : ((s.engine :: s.others).map Engine.page).Nodup) (ho : s.others = pre ++ e :: post)
    (hf : f { s with engine := e, others := pre ++ s.engine :: post } = .fault x) :
    withEngine e.page a s f = .fault x := by
  obtain ⟨h1, h2, -⟩ := pages_distinct hd ho
  simp only [withEngine, if_neg h1, focus, ho, swapIn_append h2, hf]

/-- There is nothing to act on at a page that is no instance's. -/
theorem withEngine_absent {a : Refusal} {s : State} {page : Nat} {f : State → StepResult}
    (h : ∀ e ∈ s.engine :: s.others, e.page ≠ page) : withEngine page a s f = .refused a := by
  have hs : swapIn page s.engine s.others = none := by
    cases hs : swapIn page s.engine s.others with
    | none => rfl
    | some p => exact absurd (swapIn_mem hs).2.1 (h _ (List.mem_cons_of_mem _ (swapIn_mem hs).1))
  simp only [withEngine, if_neg (h s.engine (by simp)), focus, hs]

/-- A window claim changes only who owns the window. -/
theorem claimWindow_frame {w : Nat} {e e' : Engine} (h : claimWindow w e = some e') :
    e' = { e with owner := some w, past := e'.past } := by
  simp only [claimWindow] at h
  split at h
  · rename_i ho
    cases h; rfl
  · split at h
    · rename_i o ho heq
      cases h
      cases e
      simp_all
    · split at h
      · cases h
      · cases h; rfl

/-- The state after a claim. -/
theorem claim_ok {w : Nat} {s t : State} (h : claim w s = .ok t) :
    ∃ e, claimWindow w s.engine = some e ∧ t = setEngine e s := by
  simp only [claim] at h
  split at h
  · cases h
  · rename_i e he
    exact ⟨e, he, (Except.ok.inj h).symm⟩

end Sys2Proof.Machine
end

