-- ==== Sys2Proof/Laws/Exec.lean ====
section
/-! SUPPORT. What each instruction can do when it answers a next state, said once: what it leaves alone, and how it may
change the engine addressed. -/

namespace Sys2Proof.Machine

open Sys2Proof

/-- The parts of the state no instruction writes. -/
def SameSurroundings (s t : State) : Prop :=
  t.params = s.params ∧ t.others = s.others ∧ t.line = s.line

/-- The ways an instruction may change the engine addressed. -/
inductive EngineChange (e : Engine) : Engine → Prop where
  | same : EngineChange e e
  | latch (r : VecRec) : EngineChange e (latchRequest r e)
  | mix (v : Vector Word 16) : e.latched = true → EngineChange e { e with v := v }
  | schedule (ms : Vector Word 16) : e.latched = true → EngineChange e { e with ms := ms }
  | finalize : e.latched = true → EngineChange e (finalizeEngine e)
  | transact (r : VecRec) : e.status.busy = false → EngineChange e (transactEngine r e)
  | command (r : VecRec) : e.status.busy = false → EngineChange e (commandEngine r e)

@[simp] theorem sameSurroundings_refl (s : State) : SameSurroundings s s := ⟨rfl, rfl, rfl⟩

theorem whenLatched_next {r : Reg} {s t : State} {f : Engine → Engine} (h : whenLatched r s f = .next t) :
    s.engine.latched = true ∧ t = setEngine (f s.engine) s := by
  simp only [whenLatched] at h
  split at h
  · rename_i hl; exact ⟨hl, (Host.Outcome.next.inj h).symm⟩
  · cases h

/-- What a transaction leaves. -/
theorem compressTransaction_cases (r : VecRec) (s : State) :
    (s.engine.status.busy = true ∧ compressTransaction r s = holdBusy s) ∨ (s.engine.status.busy = false ∧
      compressTransaction r s = bindResult (.words (ofWords (compress r))) (setEngine (transactEngine r s.engine) s)) := by
  cases hb : s.engine.status.busy <;> simp [compressTransaction, hb]

/-- What a command leaves. -/
theorem compressCommand_cases (r : VecRec) (s : State) :
    (s.engine.status.busy = true ∧ compressCommand r s = holdBusy s) ∨ (s.engine.status.busy = false ∧
      compressCommand r s = setEngine (commandEngine r s.engine) s) := by
  cases hb : s.engine.status.busy <;> simp [compressCommand, hb]

/-- COMPRESS answers a next state by holding, by a transaction, by taking the command, or by its window expansion. -/
theorem execCompress_next {s t : State} (h : execCompress s = .next t) :
    (s.engine.status.busy = true ∧ t = holdBusy s) ∨
    (∃ r, s.engine.status.busy = false ∧
      t = bindResult (.words (ofWords (compress r))) (setEngine (transactEngine r s.engine) s)) ∨
    (∃ r, s.engine.status.busy = false ∧ t = setEngine (commandEngine r s.engine) s) ∨
    (∃ r, t = expandCompress r s) := by
  simp only [execCompress] at h
  rcases hc : compressArgs s with _ | _ | r <;> simp only [hc] at h
  · cases h
  · split at h
    · rcases hr : readRequest s.engine with x | r <;> simp only [hr] at h
      · cases h
      · obtain rfl := Host.Outcome.next.inj h
        split
        · exact (compressTransaction_cases r s).imp id fun x => .inl ⟨r, x⟩
        · exact (compressCommand_cases r s).imp id fun x => .inr (.inl ⟨r, x⟩)
    · cases h
  · split at h
    · obtain rfl := Host.Outcome.next.inj h
      split
      · exact (compressTransaction_cases r s).imp id fun x => .inl ⟨r, x⟩
      · exact .inr (.inr (.inr ⟨r, rfl⟩))
    · cases h

theorem execInit_next {s t : State} (h : execInit s = .next t) :
    ∃ r, readRequest s.engine = .ok r ∧ t = setEngine (latchRequest r s.engine) s := by
  simp only [execInit] at h
  split at h
  · cases h
  · rename_i r hr; exact ⟨r, hr, (Host.Outcome.next.inj h).symm⟩

theorem execG_next {a b c d x y : Nibble} {s t : State} (h : execG a b c d x y s = .next t) :
    s.engine.latched = true ∧
      t = setEngine { s.engine with v := gCall s.engine.ms s.engine.v ⟨a, b, c, d, x, y⟩ } s := by
  simp only [execG] at h
  split at h
  · exact whenLatched_next h
  · cases h

theorem execRound_next {s t : State} (h : execRound s = .next t) :
    s.engine.latched = true ∧ t = setEngine { s.engine with v := roundV s.engine.ms s.engine.v } s :=
  whenLatched_next h

theorem execPermute_next {s t : State} (h : execPermute s = .next t) :
    s.engine.latched = true ∧ t = setEngine { s.engine with ms := permuteMs s.engine.ms } s :=
  whenLatched_next h

theorem execFinalize_next {s t : State} (h : execFinalize s = .next t) :
    s.engine.latched = true ∧ t = liftHold (setEngine (finalizeEngine s.engine) s) := by
  simp only [execFinalize] at h
  split at h
  · rename_i hl; exact ⟨hl, (Host.Outcome.next.inj h).symm⟩
  · cases h

/-- The host operations that draw: they write the generators and the bound names. -/
theorem execLcgNew_next {s t : State} (h : execLcgNew s = .next t) :
    ∃ seed, lcgNewArgs s = some seed ∧
      t = bindResult (.gen s.gens.length) { s with gens := s.gens ++ [⟨seed, none⟩] } := by
  simp only [execLcgNew] at h
  split at h
  · cases h
  · rename_i seed hs; exact ⟨seed, hs, (Host.Outcome.next.inj h).symm⟩

theorem execLcgNext_next {s t : State} (h : execLcgNext s = .next t) :
    ∃ id g, lcgNextArgs s = some id ∧ freeGen id s = .ok g ∧
      t = bindResult (.int (lcgStep g.seed).toNat) (setGen id { g with seed := lcgSeed g.seed } s) := by
  simp only [execLcgNext] at h
  split at h
  · cases h
  · rename_i id hid
    split at h
    · rename_i x _; cases x <;> cases h
    · rename_i g hg; exact ⟨id, g, hid, hg, (Host.Outcome.next.inj h).symm⟩

theorem execBuildVector_next {s t : State} (h : execBuildVector s = .next t) :
    ∃ a, buildArgs s = some a ∧
      ((blockLenOk a.blockLen = false ∧ t = raiseError (.invalidBlockLength a.blockLen.toNat) s) ∨
       (blockLenOk a.blockLen = true ∧ ∃ g, freeGen a.gen s = .ok g ∧
         t = bindResult (.vec (builtVector a g.seed))
          (setGen a.gen { g with seed := (drawWords (a.blockLen.toNat / 4) g.seed).2 } s))) := by
  simp only [execBuildVector] at h
  split at h
  · cases h
  · rename_i a ha
    refine ⟨a, ha, ?_⟩
    split at h
    · rename_i hb
      split at h
      · rename_i x _; cases x <;> cases h
      · rename_i g hg; exact .inr ⟨hb, g, hg, (Host.Outcome.next.inj h).symm⟩
    · rename_i hb; exact .inl ⟨by simpa using hb, (Host.Outcome.next.inj h).symm⟩

/-- Returning a value or an error binds one name at most, and to no vector where the value is none. -/
theorem returnOr_next {α : Type} {f : α → Value} {r : Except ErrorKind α} {s t : State} (h : returnOr f r s = .next t)
    (hf : ∀ a x, f a ≠ .vec x) : ∃ v, (∀ x, v ≠ .vec x) ∧ t = bindResult v s := by
  cases r with
  | ok a => exact ⟨f a, hf a, (Host.Outcome.next.inj h).symm⟩
  | error e => exact ⟨.error e, by simp, (Host.Outcome.next.inj h).symm⟩

/-- The host operations that only return a value, which is no vector. -/
theorem execToFixedBinary_next {s t : State} (h : execToFixedBinary s = .next t) :
    ∃ v, (∀ x, v ≠ .vec x) ∧ t = bindResult v s := by
  simp only [execToFixedBinary] at h
  split at h
  · cases h
  · exact returnOr_next h (by simp)

theorem execFromBinary_next {s t : State} (h : execFromBinary s = .next t) :
    ∃ v, (∀ x, v ≠ .vec x) ∧ t = bindResult v s := by
  simp only [execFromBinary] at h
  split at h
  · cases h
  · exact returnOr_next h (by simp)

theorem execSerializeVector_next {s t : State} (h : execSerializeVector s = .next t) :
    ∃ v, (∀ x, v ≠ .vec x) ∧ t = bindResult v s := by
  simp only [execSerializeVector] at h
  split at h
  · cases h
  · rename_i a _; exact ⟨_, by simp only [serializeAs]; split <;> simp, (Host.Outcome.next.inj h).symm⟩

theorem execChainCv_next {s t : State} (h : execChainCv s = .next t) :
    ∃ v, (∀ x, v ≠ .vec x) ∧ t = bindResult v s := by
  simp only [execChainCv] at h
  split at h
  · cases h
  · exact ⟨_, by simp, (Host.Outcome.next.inj h).symm⟩

/-- The host operations that call the outside world: they return a value, no vector, and use up inputs, or a suite abort
arrived and killed every external process. -/
theorem execRunSuite_next {s t : State} (h : execRunSuite s = .next t) :
    (∃ v x, (∀ y, v ≠ .vec y) ∧ t = bindResult v { s with inputs := x }) ∨ ∃ x, t = killExternal { s with inputs := x } := by
  simp only [execRunSuite] at h
  split at h
  · cases h
  · split at h
    · obtain rfl := Host.Outcome.next.inj h
      split
      · exact .inr ⟨_, rfl⟩
      · rename_i os x _
        exact .inl ⟨.suite (suiteResult os), x, by simp, rfl⟩
    · cases h

theorem execRunSingle_next {s t : State} (h : execRunSingle s = .next t) :
    (∃ v x, (∀ y, v ≠ .vec y) ∧ t = bindResult v { s with inputs := x }) ∨ ∃ x, t = killExternal { s with inputs := x } := by
  simp only [execRunSingle] at h
  split at h
  · cases h
  · obtain rfl := Host.Outcome.next.inj h
    split
    · exact .inr ⟨_, rfl⟩
    · rename_i rep x _
      exact .inl ⟨.single rep, x, by simp, rfl⟩

/-- A request is written exactly when no field is unwritten. -/
theorem firstUnwritten_none {e : Engine} : firstUnwritten e = none ↔ requestWritten e := by
  simp only [firstUnwritten, requestMarks, requestWritten, Option.map_eq_none_iff, List.find?_eq_none, List.mem_append,
    List.mem_map, List.mem_finRange, true_and, List.mem_cons, List.not_mem_nil, or_false, Bool.not_eq_true',
    Bool.not_eq_false]
  constructor
  · intro h
    exact ⟨fun i => h _ (.inl (.inl ⟨i, rfl⟩)), fun i => h _ (.inl (.inr ⟨i, rfl⟩)), h _ (.inr (.inl rfl)),
      h _ (.inr (.inr (.inl rfl))), h _ (.inr (.inr (.inr (.inl rfl)))), h _ (.inr (.inr (.inr (.inr rfl))))⟩
  · rintro ⟨h1, h2, h3, h4, h5, h6⟩ x ((⟨i, rfl⟩ | ⟨i, rfl⟩) | rfl | rfl | rfl | rfl)
    exacts [h1 i, h2 i, h3, h4, h5, h6]

/-- A written request is read as a whole. -/
theorem readRequest_ok {e : Engine} (h : requestWritten e) : readRequest e = .ok (requestOf e) := by
  simp [readRequest, firstUnwritten_none.mpr h]

/-- A request with an unwritten field is not read. -/
theorem readRequest_error {e : Engine} (h : ¬ requestWritten e) : ∃ r, readRequest e = .error r := by
  cases hf : firstUnwritten e with
  | none => exact absurd (firstUnwritten_none.mp hf) h
  | some r => exact ⟨r, by simp [readRequest, hf]⟩

/-- A latched engine's micro-operations complete. -/
theorem execG_next_of_latched {s : State} {f : GFields} (h : legalG.contains f = true) (hl : s.engine.latched = true) :
    execG f.a f.b f.c f.d f.x f.y s = .next (setEngine { s.engine with v := gCall s.engine.ms s.engine.v f } s) := by
  simp only [execG]
  rw [if_pos h]
  simp [whenLatched, hl]

theorem execRound_next_of_latched {s : State} (hl : s.engine.latched = true) :
    execRound s = .next (setEngine { s.engine with v := roundV s.engine.ms s.engine.v } s) := by
  simp [execRound, whenLatched, hl]

theorem execPermute_next_of_latched {s : State} (hl : s.engine.latched = true) :
    execPermute s = .next (setEngine { s.engine with ms := permuteMs s.engine.ms } s) := by
  simp [execPermute, whenLatched, hl]

theorem execFinalize_next_of_latched {s : State} (hl : s.engine.latched = true) :
    execFinalize s = .next (liftHold (setEngine (finalizeEngine s.engine) s)) := by
  simp [execFinalize, hl]

theorem execInit_next_of_written {s : State} (h : requestWritten s.engine) :
    execInit s = .next (setEngine (latchRequest (requestOf s.engine) s.engine) s) := by
  simp [execInit, readRequest_ok h]

/-- Every instruction leaves its surroundings alone. -/
theorem exec_surroundings {i : Instr} {s t : State} (h : exec i s = .next t) : SameSurroundings s t := by
  cases i with
  | compress =>
    rcases execCompress_next h with ⟨-, rfl⟩ | ⟨r, -, rfl⟩ | ⟨r, -, rfl⟩ | ⟨r, rfl⟩ <;> simp [SameSurroundings]
  | init => obtain ⟨r, -, rfl⟩ := execInit_next h; simp [SameSurroundings]
  | g a b c d x y => obtain ⟨-, rfl⟩ := execG_next h; simp [SameSurroundings]
  | round => obtain ⟨-, rfl⟩ := execRound_next h; simp [SameSurroundings]
  | permute => obtain ⟨-, rfl⟩ := execPermute_next h; simp [SameSurroundings]
  | finalize => obtain ⟨-, rfl⟩ := execFinalize_next h; simp [SameSurroundings]
  | lcgNew => obtain ⟨_, -, rfl⟩ := execLcgNew_next h; simp [SameSurroundings]
  | lcgNext => obtain ⟨_, _, -, -, rfl⟩ := execLcgNext_next h; simp [SameSurroundings]
  | toFixedBinary => obtain ⟨_, -, rfl⟩ := execToFixedBinary_next h; simp [SameSurroundings]
  | fromBinary => obtain ⟨_, -, rfl⟩ := execFromBinary_next h; simp [SameSurroundings]
  | buildVector =>
    obtain ⟨_, -, ⟨-, rfl⟩ | ⟨-, _, -, rfl⟩⟩ := execBuildVector_next h <;> simp [SameSurroundings]
  | serializeVector => obtain ⟨_, -, rfl⟩ := execSerializeVector_next h; simp [SameSurroundings]
  | runSuite => obtain ⟨_, _, -, rfl⟩ | ⟨_, rfl⟩ := execRunSuite_next h <;> simp [SameSurroundings]
  | runSingle => obtain ⟨_, _, -, rfl⟩ | ⟨_, rfl⟩ := execRunSingle_next h <;> simp [SameSurroundings]
  | chainCv => obtain ⟨_, -, rfl⟩ := execChainCv_next h; simp [SameSurroundings]

/-- No instruction touches the external processes of the interleaved views, but that a suite abort arriving during a
RUN_SUITE or a RUN_SINGLE kills them all. -/
theorem exec_external {i : Instr} {s t : State} (h : exec i s = .next t) :
    (t.suite = s.suite ∧ t.singles = s.singles) ∨
      ((i = .runSuite ∨ i = .runSingle) ∧ ∃ x, t = killExternal { s with inputs := x }) := by
  cases i with
  | compress =>
    rcases execCompress_next h with ⟨-, rfl⟩ | ⟨r, -, rfl⟩ | ⟨r, -, rfl⟩ | ⟨r, rfl⟩ <;> simp
  | init => obtain ⟨r, -, rfl⟩ := execInit_next h; simp
  | g a b c d x y => obtain ⟨-, rfl⟩ := execG_next h; simp
  | round => obtain ⟨-, rfl⟩ := execRound_next h; simp
  | permute => obtain ⟨-, rfl⟩ := execPermute_next h; simp
  | finalize => obtain ⟨-, rfl⟩ := execFinalize_next h; simp
  | lcgNew => obtain ⟨_, -, rfl⟩ := execLcgNew_next h; simp
  | lcgNext => obtain ⟨_, _, -, -, rfl⟩ := execLcgNext_next h; simp
  | toFixedBinary => obtain ⟨_, -, rfl⟩ := execToFixedBinary_next h; simp
  | fromBinary => obtain ⟨_, -, rfl⟩ := execFromBinary_next h; simp
  | buildVector =>
    obtain ⟨_, -, ⟨-, rfl⟩ | ⟨-, _, -, rfl⟩⟩ := execBuildVector_next h <;> simp
  | serializeVector => obtain ⟨_, -, rfl⟩ := execSerializeVector_next h; simp
  | runSuite =>
    obtain ⟨_, _, -, rfl⟩ | ⟨x, rfl⟩ := execRunSuite_next h
    · simp
    · exact .inr ⟨.inl rfl, x, rfl⟩
  | runSingle =>
    obtain ⟨_, _, -, rfl⟩ | ⟨x, rfl⟩ := execRunSingle_next h
    · simp
    · exact .inr ⟨.inr rfl, x, rfl⟩
  | chainCv => obtain ⟨_, -, rfl⟩ := execChainCv_next h; simp

/-- Every instruction changes the engine addressed in one of the ways of `EngineChange`. -/
theorem exec_engineChange {i : Instr} {s t : State} (h : exec i s = .next t) : EngineChange s.engine t.engine := by
  cases i with
  | compress =>
    rcases execCompress_next h with ⟨-, rfl⟩ | ⟨r, hb, rfl⟩ | ⟨r, hb, rfl⟩ | ⟨r, rfl⟩
    · exact .same
    · simpa using .transact r hb
    · exact .command r hb
    · exact .same
  | init => obtain ⟨r, -, rfl⟩ := execInit_next h; exact .latch r
  | g a b c d x y => obtain ⟨hl, rfl⟩ := execG_next h; exact .mix _ hl
  | round => obtain ⟨hl, rfl⟩ := execRound_next h; exact .mix _ hl
  | permute => obtain ⟨hl, rfl⟩ := execPermute_next h; exact .schedule _ hl
  | finalize => obtain ⟨hl, rfl⟩ := execFinalize_next h; simpa using .finalize hl
  | lcgNew => obtain ⟨_, -, rfl⟩ := execLcgNew_next h; simpa using .same
  | lcgNext => obtain ⟨_, _, -, -, rfl⟩ := execLcgNext_next h; simpa using .same
  | toFixedBinary => obtain ⟨_, -, rfl⟩ := execToFixedBinary_next h; simpa using .same
  | fromBinary => obtain ⟨_, -, rfl⟩ := execFromBinary_next h; simpa using .same
  | buildVector =>
    obtain ⟨_, -, ⟨-, rfl⟩ | ⟨-, _, -, rfl⟩⟩ := execBuildVector_next h <;> simpa using .same
  | serializeVector => obtain ⟨_, -, rfl⟩ := execSerializeVector_next h; simpa using .same
  | runSuite => obtain ⟨_, _, -, rfl⟩ | ⟨_, rfl⟩ := execRunSuite_next h <;> simpa using .same
  | runSingle => obtain ⟨_, _, -, rfl⟩ | ⟨_, rfl⟩ := execRunSingle_next h <;> simpa using .same
  | chainCv => obtain ⟨_, -, rfl⟩ := execChainCv_next h; simpa using .same

/-- Every instruction keeps the canonical form of the bound names. -/
theorem exec_envWf {i : Instr} {s t : State} (h : exec i s = .next t) (hw : envWf s.env = true) : envWf t.env = true := by
  have bind : ∀ (v : Value) (u : State), u.env = s.env → envWf (bindResult v u).env = true :=
    fun v u hu => bindTo_wf _ v u (hu ▸ hw)
  cases i with
  | compress =>
    rcases execCompress_next h with ⟨-, rfl⟩ | ⟨r, -, rfl⟩ | ⟨r, -, rfl⟩ | ⟨r, rfl⟩
    · exact hw
    · exact bind _ _ rfl
    · exact hw
    · exact hw
  | init => obtain ⟨r, -, rfl⟩ := execInit_next h; simpa only [setEngine_env] using hw
  | g a b c d x y => obtain ⟨-, rfl⟩ := execG_next h; simpa only [setEngine_env] using hw
  | round => obtain ⟨-, rfl⟩ := execRound_next h; simpa only [setEngine_env] using hw
  | permute => obtain ⟨-, rfl⟩ := execPermute_next h; simpa only [setEngine_env] using hw
  | finalize => obtain ⟨-, rfl⟩ := execFinalize_next h; simpa only [liftHold_env, setEngine_env] using hw
  | lcgNew => obtain ⟨_, -, rfl⟩ := execLcgNew_next h; exact bind _ _ rfl
  | lcgNext => obtain ⟨_, _, -, -, rfl⟩ := execLcgNext_next h; exact bind _ _ rfl
  | toFixedBinary => obtain ⟨_, -, rfl⟩ := execToFixedBinary_next h; exact bind _ _ rfl
  | fromBinary => obtain ⟨_, -, rfl⟩ := execFromBinary_next h; exact bind _ _ rfl
  | buildVector =>
    obtain ⟨_, -, ⟨-, rfl⟩ | ⟨-, _, -, rfl⟩⟩ := execBuildVector_next h <;> exact bind _ _ rfl
  | serializeVector => obtain ⟨_, -, rfl⟩ := execSerializeVector_next h; exact bind _ _ rfl
  | runSuite =>
    obtain ⟨_, _, -, rfl⟩ | ⟨_, rfl⟩ := execRunSuite_next h
    · exact bind _ _ rfl
    · exact hw
  | runSingle =>
    obtain ⟨_, _, -, rfl⟩ | ⟨_, rfl⟩ := execRunSingle_next h
    · exact bind _ _ rfl
    · exact hw
  | chainCv => obtain ⟨_, -, rfl⟩ := execChainCv_next h; exact bind _ _ rfl

end Sys2Proof.Machine
end

