-- ==== Sys2Proof/Laws/Oracle.lean ====
section
/-! SUPPORT. External calls and suites: what a call can give, and the shape of a suite's outcomes. -/

namespace Sys2Proof.Machine

open Sys2Proof

/-- No suite abort arrives. -/
theorem drawAttempt_of_noAbort {c : ExtCall} {x : Inputs} (h : .abort ∉ x.answers) :
    ∃ a y, drawAttempt c x = (some a, y) ∧ .abort ∉ y.answers := by
  simp only [drawAttempt]
  split
  · rename_i a rest ha; rw [ha] at h; exact ⟨a, _, rfl, fun hm => h (List.mem_cons_of_mem _ hm)⟩
  · rename_i ha; rw [ha] at h; simp at h
  · rename_i ha; exact ⟨_, _, rfl, by simp [ha]⟩

/-- A call gives what its first attempt counts as, unless that is a timeout; then what its second attempt counts as; and
nothing where a suite abort arrives in place of one of these. -/
theorem callExternal_cases (p : Params) (c : ExtCall) (x : Inputs) :
    (∃ y, drawAttempt c x = (none, y) ∧ callExternal p c x = (none, y)) ∨
    (∃ a y, drawAttempt c x = (some a, y) ∧ classify (externalTimeout p) a ≠ .timeout ∧
      callExternal p c x = (some (classify (externalTimeout p) a), y)) ∨
    ∃ a y, drawAttempt c x = (some a, y) ∧ classify (externalTimeout p) a = .timeout ∧
      callExternal p c x = ((drawAttempt c y).1.map (classify (externalTimeout p)), (drawAttempt c y).2) := by
  rcases h : drawAttempt c x with ⟨_ | a, y⟩
  · exact .inl ⟨y, rfl, by simp [callExternal, h]⟩
  · cases hc : classify (externalTimeout p) a
    · exact .inr (.inl ⟨a, y, rfl, by simp [hc], by simp [callExternal, h, hc]⟩)
    · exact .inr (.inl ⟨a, y, rfl, by simp [hc], by simp [callExternal, h, hc]⟩)
    · exact .inr (.inr ⟨a, y, rfl, hc, by simp [callExternal, h, hc]⟩)

/-- Where no suite abort arrives a call gives a result. -/
theorem callExternal_of_noAbort {p : Params} {c : ExtCall} {x : Inputs} (h : .abort ∉ x.answers) :
    ∃ r y, callExternal p c x = (some r, y) ∧ .abort ∉ y.answers := by
  obtain ⟨a, y, ha, hy⟩ := drawAttempt_of_noAbort (c := c) h
  rcases callExternal_cases p c x with ⟨_, h1, -⟩ | ⟨b, z, h1, -, h2⟩ | ⟨b, z, h1, -, h2⟩
  · rw [ha] at h1; cases h1
  · rw [ha] at h1; cases h1; exact ⟨_, _, h2, hy⟩
  · rw [ha] at h1; cases h1
    obtain ⟨b, w, hb, hw⟩ := drawAttempt_of_noAbort (c := c) hy
    exact ⟨_, _, by rw [h2, hb]; rfl, hw⟩

/-- Every vector has exactly one outcome. -/
theorem suiteOutcomes_length {p : Params} {c : Nat} {vs : List VecRec} {x y : Inputs} {os : List SuiteOutcome}
    (h : suiteOutcomes p c vs x = (some os, y)) : os.length = vs.length := by
  induction vs generalizing x y os with
  | nil => cases h; rfl
  | cons v vs ih =>
    simp only [suiteOutcomes] at h
    split at h
    · cases h
    · rename_i r z _
      obtain ⟨h1, h2⟩ := Prod.mk.inj h
      obtain ⟨os', ho, rfl⟩ := Option.map_eq_some_iff.mp h1
      simp [ih (Prod.ext ho h2)]

/-! ### RUN_SINGLE in the interleaved view -/

/-- A stage that ended starts the proof stage or returns the report. -/
theorem stageEnded_cases (x : SingleRun) (st : Stage) (s : State) :
    (x.witness = none ∧ wantsProof x.prove st = true ∧
      stageEnded x st s = { s with singles := setSingle { x with witness := some st, retries := 0 } s.singles }) ∨
    ∃ rep, stageEnded x st s = reportSingle x rep s := by
  simp only [stageEnded]
  split
  · exact .inr ⟨_, rfl⟩
  · rename_i hw
    split
    · rename_i hp; exact .inl ⟨hw, hp, rfl⟩
    · exact .inr ⟨_, rfl⟩

/-- What the end of a RUN_SINGLE's process can do: a suite abort arrived, a fresh process starts, or the stage ends. -/
theorem singleAnswer_next {w : Nat} {s t : State} (h : singleAnswer w s = .next t) :
    ∃ x, findSingle w s.singles = some x ∧
      ((∃ y, t = killExternal { s with inputs := y }) ∨
       (∃ y, t = { s with singles := setSingle { x with retries := 1 } s.singles, inputs := y }) ∨
       ∃ st y, t = stageEnded x st { s with inputs := y }) := by
  simp only [singleAnswer] at h
  split at h
  · cases h
  · rename_i x hx
    refine ⟨x, hx, ?_⟩
    split at h
    · exact .inl ⟨_, (Host.Outcome.next.inj h).symm⟩
    · split at h
      · exact .inr (.inl ⟨_, (Host.Outcome.next.inj h).symm⟩)
      · exact .inr (.inr ⟨_, _, (Host.Outcome.next.inj h).symm⟩)

/-! ### RUN_SUITE in the interleaved view -/

/-- What a launch can do: the process of a vector that has no outcome starts, the tables loaded and a worker free. -/
theorem suiteLaunch_next {j : Nat} {s t : State} (h : suiteLaunch j s = .next t) :
    ∃ u x, s.suite = some u ∧ u.slots[j]? = some x ∧ x.running = false ∧ x.outcome = none ∧
      liveProcesses u.slots < nWorkers s.params ∧ s.engine.tablesReady = true ∧
      t = { s with suite := some (setSlot j { x with running := true } u) } := by
  simp only [suiteLaunch] at h
  split at h
  · cases h
  · rename_i u hu
    split at h
    · cases h
    · rename_i x hx
      split at h
      · rename_i hc
        split at h
        · rename_i hr
          exact ⟨u, x, hu, hx, hc.1, hc.2.1, hc.2.2, hr, (Host.Outcome.next.inj h).symm⟩
        · cases h
      · cases h

/-- What the end of a vector's process can do: a suite abort arrived, or the vector's slot takes the attempt. -/
theorem suiteAnswer_next {j : Nat} {s t : State} (h : suiteAnswer j s = .next t) :
    ∃ u x, s.suite = some u ∧ u.slots[j]? = some x ∧ x.running = true ∧
      ((∃ y, drawAttempt (.circuit u.circuit x.vec) s.inputs = (none, y) ∧ t = killExternal { s with inputs := y }) ∨
       ∃ a y, drawAttempt (.circuit u.circuit x.vec) s.inputs = (some a, y) ∧
         t = { s with
           suite := some (setSlot j (slotAfter (classify (externalTimeout s.params) a) x) u), inputs := y }) := by
  simp only [suiteAnswer] at h
  split at h
  · cases h
  · rename_i u hu
    split at h
    · cases h
    · rename_i x hx
      split at h
      · rename_i hr
        split at h
        · rename_i y hd
          exact ⟨u, x, hu, hx, hr, .inl ⟨y, hd, (Host.Outcome.next.inj h).symm⟩⟩
        · rename_i a y hd
          exact ⟨u, x, hu, hx, hr, .inr ⟨a, y, hd, (Host.Outcome.next.inj h).symm⟩⟩
      · cases h

/-- What closing a suite can do: every vector has its outcome, and the SuiteResult is returned. -/
theorem suiteClose_next {s t : State} (h : suiteClose s = .next t) :
    ∃ u os, s.suite = some u ∧ finishedOutcomes u.slots = some os ∧
      t = bindTo u.dest (.suite (suiteResult os)) { s with suite := none } := by
  simp only [suiteClose] at h
  split at h
  · cases h
  · rename_i u hu
    split at h
    · cases h
    · rename_i os ho
      exact ⟨u, os, hu, ho, (Host.Outcome.next.inj h).symm⟩

/-- Events one after another, cut in two. -/
theorem runEvents_append (xs ys : List Event) (s : State) :
    runEvents (xs ++ ys) s =
      match runEvents xs s with
      | .next t => runEvents ys t
      | .fault x => .fault x
      | .refused x => .refused x := by
  induction xs generalizing s with
  | nil => rfl
  | cons x xs ih =>
    simp only [List.cons_append, runEvents]
    cases runEvent x s <;> simp [ih]

@[simp] theorem answersOf_nil (used : List Arrival) (j : Nat) : answersOf [] used j = [] := rfl

/-- A launch takes no answer. -/
@[simp] theorem answersOf_launch (evs : List Event) (used : List Arrival) (i j : Nat) :
    answersOf (.suiteLaunch i :: evs) used j = answersOf evs used j := rfl

/-- The end of a process takes one answer, which is its vector's. -/
theorem answersOf_answer (evs : List Event) (a : Arrival) (used : List Arrival) (i j : Nat) :
    answersOf (.suiteAnswer i :: evs) (a :: used) j = (if i = j then [a] else []) ++ answersOf evs used j := by
  simp only [answersOf, List.filterMap_cons, answeredVector, List.zip_cons_cons, List.filter_cons]
  split <;> simp_all

/-! ### Suite results -/

theorem indexFrom_length (k : Nat) (os : List SuiteOutcome) : (indexFrom k os).length = os.length := by
  induction os generalizing k with
  | nil => rfl
  | cons o os ih => simp [indexFrom, ih]

/-- The entry at place `j` is the outcome at `j` under its index. -/
theorem indexFrom_getElem? (k j : Nat) (os : List SuiteOutcome) :
    (indexFrom k os)[j]? = os[j]?.map fun o => (k + j, o) := by
  induction os generalizing k j with
  | nil => simp [indexFrom]
  | cons o os ih =>
    cases j with
    | zero => simp [indexFrom]
    | succ j => simp [indexFrom, ih, Nat.add_assoc, Nat.add_comm 1 j]

/-- No index differs exactly when the outputs are equal. -/
theorem diffIndices_nil (e a : Vector Word 16) : diffIndices e a = [] ↔ e = a := by
  simp only [diffIndices, List.filter_eq_nil_iff, List.mem_finRange, forall_const]
  constructor
  · intro h
    apply Vector.ext
    intro i hi
    simpa using h ⟨i, hi⟩
  · rintro rfl i
    simp

/-- A comparison passes exactly when the outputs are equal (45 R263). -/
theorem compareOutputs_pass (v : VecRec) (e a : Vector Word 16) : compareOutputs v e a = .pass ↔ e = a := by
  simp only [compareOutputs]
  split
  · rename_i h; simp [(diffIndices_nil e a).mp h]
  · rename_i h
    simp only [reduceCtorEq, false_iff]
    exact fun he => h ((diffIndices_nil e a).mpr he)

end Sys2Proof.Machine
end

