-- ==== Sys2Proof/Laws/Window.lean ====
section
/-! SUPPORT. The register window: what a read and a write may touch, and reading after writing. -/

namespace Sys2Proof.Machine

open Sys2Proof

/-- A read target is a word register other than CMD. -/
theorem readTarget_ok {off size : Nat} {r : WinReg} (h : readTarget off size = .ok r) :
    size = 4 ∧ off % 4 = 0 ∧ windowReg off = some r ∧ r ≠ .cmd := by
  unfold readTarget at h
  by_cases hb : accessShape off size = true
  · have hs := hb
    simp only [accessShape, Bool.and_eq_true, beq_iff_eq] at hs
    rw [if_pos hb] at h
    split at h
    · cases h
    · cases h
    · rename_i r' hne hr
      cases h
      exact ⟨hs.1, hs.2, hr, hne⟩
  · rw [if_neg hb] at h; cases h

/-- A write target is a request register or CMD. -/
theorem writeTarget_ok {off size : Nat} {r : WinReg} (h : writeTarget off size = .ok r) :
    size = 4 ∧ off % 4 = 0 ∧ windowReg off = some r ∧ r ≠ .status ∧ ∀ i, r ≠ .out i := by
  unfold writeTarget at h
  by_cases hb : accessShape off size = true
  · have hs := hb
    simp only [accessShape, Bool.and_eq_true, beq_iff_eq] at hs
    rw [if_pos hb] at h
    split at h
    · cases h
    · cases h
    · cases h
    · rename_i r' hne hno hr
      cases h
      exact ⟨hs.1, hs.2, hr, hne, fun i e => hno i e⟩
  · rw [if_neg hb] at h; cases h

/-- The reserved offsets have no register (20 R71). -/
theorem windowReg_reserved {off : Nat} (h4 : off % 4 = 0) (h : off < 256) (hr : off = 0x78 ∨ off = 0x7C ∨ 0xC0 ≤ off) :
    windowReg off = none := by
  have all : ∀ k : Fin 64, (k.val = 30 ∨ k.val = 31 ∨ 48 ≤ k.val) → windowReg (4 * k.val) = none := by decide +kernel
  have := all ⟨off / 4, by omega⟩ (by simp only []; omega)
  rwa [show 4 * (off / 4) = off by omega] at this

/-- The offsets of OUT (20 R71). -/
theorem windowReg_out {off : Nat} (h4 : off % 4 = 0) (h : 0x80 ≤ off) (hlt : off < 0xC0) :
    windowReg off = some (.out ⟨off / 4 - 32, by omega⟩) := by
  have all : ∀ i : Fin 16, windowReg (4 * (32 + i.val)) = some (.out i) := by decide +kernel
  have := all ⟨off / 4 - 32, by omega⟩
  rwa [show 4 * (32 + (off / 4 - 32)) = off by omega] at this

/-- The offsets of the request registers, which may be read and written; `B_IN` and `D_IN` stand at 0x68 and 0x6C (20 R71). -/
theorem windowReg_request {off : Nat} (h4 : off % 4 = 0) (h : off < 0x70) :
    ∃ r, windowReg off = some r ∧ readTarget off 4 = .ok r ∧ writeTarget off 4 = .ok r ∧ r ≠ .cmd ∧ r ≠ .status ∧
      (∀ i, r ≠ .out i) ∧ (off = 0x68 ∨ off = 0x6C ↔ r = .bIn ∨ r = .dIn) := by
  have all : ∀ k : Fin 28, ∃ r, windowReg (4 * k.val) = some r ∧ readTarget (4 * k.val) 4 = .ok r ∧
      writeTarget (4 * k.val) 4 = .ok r ∧ r ≠ .cmd ∧ r ≠ .status ∧ (∀ i, r ≠ .out i) ∧
      (4 * k.val = 0x68 ∨ 4 * k.val = 0x6C ↔ r = .bIn ∨ r = .dIn) := by
    intro k
    fin_cases k <;> exact ⟨_, rfl, rfl, rfl, by decide, by decide, by decide, by decide⟩
  have := all ⟨off / 4, by omega⟩
  simpa only [show 4 * (off / 4) = off by omega] using this

/-- A window read changes nothing but who owns the window. -/
theorem windowRead_ok {w off size : Nat} {s t : State} {v : Word} (h : windowRead w off size s = .ok (v, t)) :
    ∃ r, readTarget off size = .ok r ∧ claim w s = .ok t ∧ readReg t.engine r = .ok v := by
  simp only [windowRead] at h
  split at h
  · cases h
  · rename_i r hr
    split at h
    · cases h
    · rename_i t' ht
      split at h
      · cases h
      · rename_i v' hv
        cases h
        exact ⟨r, hr, ht, hv⟩

/-- The page and the offset of an address in a window. -/
theorem pageOf_window (p : Nat) {off : Nat} (h : off < 256) : pageOf (256 * p + off) = p := by
  unfold pageOf
  omega

theorem offsetOf_window (p : Nat) {off : Nat} (h : off < 256) : offsetOf (256 * p + off) = off := by
  unfold offsetOf
  omega

/-- A worker that has the window, or finds it free, takes it. -/
theorem claim_of_owner {w : Nat} {s : State} (h : s.engine.owner = none ∨ s.engine.owner = some w) :
    claim w s = .ok (setEngine { s.engine with owner := some w } s) := by
  rcases h with h | h
  · simp [claim, claimWindow, h]
  · have he : { s.engine with owner := some w } = s.engine := by rw [← h]
    simp only [claim, claimWindow, h, if_true]
    rw [he]

/-- A worker that has the window keeps it. -/
theorem claim_self {w : Nat} {s : State} (h : s.engine.owner = some w) : claim w s = .ok s := by
  simp [claim, claimWindow, h]

/-- A worker whose accesses have ended is refused. -/
theorem claim_refused {w o : Nat} {s : State} (h : s.engine.owner = some o) (hne : o ≠ w) (hp : w ∈ s.engine.past) :
    claim w s = .error (.refused .interleavedWindowAccess) := by
  simp [claim, claimWindow, h, hne, hp]

/-- A read of the window of the instance addressed. -/
theorem memRead_here {w off size : Nat} {d : Option Nat} {s t : State} {v : Word} (h : off < 256)
    (hr : windowRead w off size s = .ok (v, t)) :
    memRead w (256 * s.engine.page + off) size d s = .next (bindTo d (.int v.toNat) t) := by
  simp only [memRead, pageOf_window _ h, offsetOf_window _ h, withEngine_self, hr]

theorem memRead_here_stop {w off size : Nat} {d : Option Nat} {s : State} {x : Stop} (h : off < 256)
    (hr : windowRead w off size s = .error x) :
    memRead w (256 * s.engine.page + off) size d s = stopResult x := by
  simp only [memRead, pageOf_window _ h, offsetOf_window _ h, withEngine_self, hr]

/-- Reading a word request register after writing it. -/
theorem readReg_writeReg_hIn (i : Fin 8) (v : Word) (e : Engine) :
    readReg (writeReg (.hIn i) v e) (.hIn i) = .ok v := by
  simp [readReg, writeReg, reqRead, ReqReg.put]

theorem readReg_writeReg_mIn (i : Fin 16) (v : Word) (e : Engine) :
    readReg (writeReg (.mIn i) v e) (.mIn i) = .ok v := by
  simp [readReg, writeReg, reqRead, ReqReg.put]

/-- Reading `B_IN` after writing it gives bits [7:0] (20 R72). -/
theorem readReg_writeReg_bIn (v : Word) (e : Engine) :
    readReg (writeReg .bIn v e) .bIn = .ok (zext32 (v.extractLsb' 0 8)) := by
  simp [readReg, writeReg, reqRead, ReqReg.put, Except.map]

/-- A write touches request registers only: it keeps everything INIT, ROUND, PERMUTE, FINALIZE and the window's reads of
STATUS and OUT use. -/
theorem writeReg_frame (r : WinReg) (v : Word) (e : Engine) :
    writeReg r v e =
      { e with hIn := (writeReg r v e).hIn, mIn := (writeReg r v e).mIn, t0In := (writeReg r v e).t0In,
               t1In := (writeReg r v e).t1In, bIn := (writeReg r v e).bIn, dIn := (writeReg r v e).dIn } := by
  cases r <;> rfl

end Sys2Proof.Machine
end

