-- ==== Sys2Proof/Laws/Agents.lean ====
section
/-! SUPPORT. Steps, events and the engine agent: what each can do when it answers a next state. -/

namespace Sys2Proof.Machine

open Sys2Proof

/-- A word that is issued and answers a next state decodes, may be issued by its issuer, and is issued on its instance. -/
theorem issueWord_next {l : Line} {w : Word} {s t : State} (h : issueWord l w s = .next t) :
    ∃ i, decode w = .ok i ∧ mayIssue l.issuer i.opClass = true ∧
      onEngine l.engine { s with line := l } (issueAs l w i) = .next t := by
  simp only [issueWord] at h
  split at h
  · cases h
  · rename_i i hi
    split at h
    · rename_i hm; exact ⟨i, hi, hm, h⟩
    · cases h

/-- What the sequencer's issue can do when it answers a next state: one of its words in turn, executed, and its move. -/
theorem sequencerIssue_next {w : Word} {i : Instr} {s t : State} (h : sequencerIssue w i s = .next t) :
    w ∈ sequencerWords s.engine ∧ ∃ u, exec i s = .next u ∧ t = setEngine (advanceSeq i u.engine) u := by
  simp only [sequencerIssue] at h
  split at h
  · rename_i hw
    split at h
    · rename_i u hu; exact ⟨by simpa using hw, u, hu, (Host.Outcome.next.inj h).symm⟩
    · cases h
    · cases h
  · cases h

/-- What the host's issue can do when it answers a next state: the operation, after its worker took the window where the word
is a write to CMD. -/
theorem hostIssue_next {i : Instr} {s t : State} (h : hostIssue i s = .next t) :
    exec i s = .next t ∨ ∃ u, i = .compress ∧ claim s.line.worker s = .ok u ∧ exec i u = .next t := by
  simp only [hostIssue] at h
  split at h
  · rename_i hc
    split at h
    · rename_i x _; cases x <;> cases h
    · rename_i u hu; exact .inr ⟨u, hc.1, hu, h⟩
  · exact .inl h

/-- The instruction at each sequencer position. -/
theorem microWord_decode (n : Nibble) :
    (n = 15 ∧ microWord n = none) ∨ ∃ w, microWord n = some w ∧
      ((n = 0 ∧ decode w = .ok .init) ∨ (n = 14 ∧ decode w = .ok .finalize) ∨
       (n.toNat % 2 = 1 ∧ n.toNat ≤ 13 ∧ decode w = .ok .round) ∨
       (n ≠ 0 ∧ n.toNat % 2 = 0 ∧ n.toNat ≤ 12 ∧ decode w = .ok .permute)) := by
  by_cases h0 : n = 0
  · subst h0; exact .inr ⟨_, rfl, .inl ⟨rfl, rfl⟩⟩
  by_cases h14 : n = 14
  · subst h14; exact .inr ⟨_, rfl, .inr (.inl ⟨rfl, rfl⟩)⟩
  by_cases h15 : n = 15
  · exact .inl ⟨h15, by simp [microWord, h15]⟩
  have hlt : n.toNat < 16 := n.isLt
  have a14 : n.toNat ≠ 14 := fun e => h14 (BitVec.eq_of_toNat_eq e)
  have a15 : n.toNat ≠ 15 := fun e => h15 (BitVec.eq_of_toNat_eq e)
  by_cases hodd : n.toNat % 2 = 1
  · exact .inr ⟨0x04000000#32, by rw [microWord, if_neg h0, if_neg h14, if_neg h15, if_pos hodd],
      .inr (.inr (.inl ⟨hodd, by omega, rfl⟩))⟩
  · exact .inr ⟨0x05000000#32, by rw [microWord, if_neg h0, if_neg h14, if_neg h15, if_neg hodd],
      .inr (.inr (.inr ⟨h0, by omega, by omega, rfl⟩))⟩

/-- The G of call `k` of a round. -/
def callInstr (k : Fin 8) : Instr :=
  let f := gcallTable[k]
  .g f.a f.b f.c f.d f.x f.y

/-- A call's word decodes to its G, whose tuple is legal. -/
theorem callWord_decode :
    ∀ k : Fin 8, decode (callWord k) = .ok (callInstr k) ∧ legalG.contains gcallTable[k] = true := by decide

theorem isRoundStep_iff (n : Nibble) : isRoundStep n = true ↔ n.toNat % 2 = 1 ∧ n.toNat ≤ 13 := by
  simp [isRoundStep]

/-- What the sequencer may issue: INIT at 0, FINALIZE at 14, ROUND or its first call at a ROUND, PERMUTE between two ROUNDs,
and the next call inside a ROUND. -/
theorem sequencerWords_cases {e : Engine} {w : Word} {i : Instr} (hw : w ∈ sequencerWords e) (hd : decode w = .ok i) :
    (∃ n, e.seq = .at n ∧
      ((n = 0 ∧ i = .init) ∨ (n = 14 ∧ i = .finalize) ∨ (isRoundStep n = true ∧ (i = .round ∨ i = callInstr 0)) ∨
       (n ≠ 0 ∧ n.toNat % 2 = 0 ∧ n.toNat ≤ 12 ∧ i = .permute))) ∨
    ∃ n k, e.seq = .midRound n k ∧ isRoundStep n = true ∧ i = callInstr k := by
  rcases hs : e.seq with _ | n | ⟨n, k⟩ <;> simp only [sequencerWords, hs] at hw
  · simp at hw
  · refine .inl ⟨n, rfl, ?_⟩
    rcases List.mem_append.mp hw with hw | hw
    · rcases microWord_decode n with ⟨-, hn⟩ | ⟨w', hw', hi⟩
      · simp [hn] at hw
      · simp only [hw', Option.toList_some, List.mem_singleton] at hw
        subst hw
        simp only [hd, Except.ok.injEq] at hi
        rcases hi with hi | hi | ⟨h1, h2, h3⟩ | hi
        · exact .inl hi
        · exact .inr (.inl hi)
        · exact .inr (.inr (.inl ⟨(isRoundStep_iff n).mpr ⟨h1, h2⟩, .inl h3⟩))
        · exact .inr (.inr (.inr hi))
    · split at hw
      · rename_i hr
        simp only [List.mem_singleton] at hw
        subst hw
        rw [(callWord_decode 0).1] at hd
        exact .inr (.inr (.inl ⟨hr, .inr (Except.ok.inj hd).symm⟩))
      · simp at hw
  · split at hw
    · rename_i hr
      simp only [List.mem_singleton] at hw
      subst hw
      rw [(callWord_decode k).1] at hd
      exact .inr ⟨n, k, rfl, hr, (Except.ok.inj hd).symm⟩
    · simp at hw

/-- An idle sequencer, as FINALIZE leaves it, stays idle. -/
theorem advanceSeq_idle {i : Instr} {e : Engine} (h : e.seq = .idle) : advanceSeq i e = e := by
  simp [advanceSeq, h]

/-- The engine's step issues its first word in turn and then moves SEQ. -/
theorem engineStep_eq {s : State} {w : Word} {i : Instr} (hw : (sequencerWords s.engine).head? = some w)
    (hd : decode w = .ok i) (hc : i.opClass = .microOp) :
    engineStep s = match exec i { s with line := sequencerLine } with
      | .next t => .next (setEngine (advanceSeq i t.engine) t)
      | .fault x => .fault x
      | .refused x => .refused x := by
  have hm : mayIssue sequencerLine.issuer i.opClass = true := by rw [hc]; rfl
  have hmem : w ∈ sequencerWords s.engine := List.mem_of_mem_head? (by simp [hw])
  have hi : issueWord sequencerLine w s = sequencerIssue w i { s with line := sequencerLine } := by
    simp only [issueWord, hd, hm, if_true]; rfl
  have he : engineStep s = issueWord sequencerLine w s := by
    rcases hs : s.engine.seq with _ | n | ⟨n, k⟩
    · simp [sequencerWords, hs] at hw
    · simp only [engineStep, hs, hw]
    · simp only [engineStep, hs, hw]
  rw [he, hi]
  cases hx : exec i { s with line := sequencerLine } <;> simp [sequencerIssue, hmem, hx]

theorem microWord_odd {n : Nibble} (h13 : n.toNat ≤ 13) (hodd : n.toNat % 2 = 1) :
    microWord n = some 0x04000000#32 := by
  revert h13 hodd
  revert n
  decide

theorem microWord_even {n : Nibble} (h1 : 1 ≤ n.toNat) (h13 : n.toNat ≤ 13) (heven : n.toNat % 2 = 0) :
    microWord n = some 0x05000000#32 := by
  revert h1 h13 heven
  revert n
  decide

/-- The engine's step of a latched engine at an odd position. -/
theorem engineStep_odd {s : State} {n : Nibble} (hs : s.engine.seq = .at n) (hl : s.engine.latched = true)
    (h13 : n.toNat ≤ 13) (hodd : n.toNat % 2 = 1) :
    engineStep s = .next { s with
      engine := { s.engine with v := roundV s.engine.ms s.engine.v, seq := .at (n + 1) }, line := sequencerLine } := by
  rw [engineStep_eq (i := .round) (w := 0x04000000#32) (by simp [sequencerWords, hs, microWord_odd h13 hodd]) rfl rfl]
  simp only [exec]
  rw [execRound_next_of_latched (by simpa using hl)]
  simp [advanceSeq, hs, isCall, setEngine]

/-- The engine's step of a latched engine at an even position from 2 to 12. -/
theorem engineStep_even {s : State} {n : Nibble} (hs : s.engine.seq = .at n) (hl : s.engine.latched = true)
    (h1 : 1 ≤ n.toNat) (h13 : n.toNat ≤ 13) (heven : n.toNat % 2 = 0) :
    engineStep s = .next { s with
      engine := { s.engine with ms := permuteMs s.engine.ms, seq := .at (n + 1) }, line := sequencerLine } := by
  rw [engineStep_eq (i := .permute) (w := 0x05000000#32) (by simp [sequencerWords, hs, microWord_even h1 h13 heven]) rfl rfl]
  simp only [exec]
  rw [execPermute_next_of_latched (by simpa using hl)]
  simp [advanceSeq, hs, isCall, setEngine]

/-- The engine's step of a latched engine inside a ROUND: the next call. -/
theorem engineStep_call {s : State} {n : Nibble} {k : Fin 8} (hs : s.engine.seq = .midRound n k)
    (hl : s.engine.latched = true) (hr : isRoundStep n = true) :
    engineStep s = .next { s with
      engine := { s.engine with
        v := gCall s.engine.ms s.engine.v gcallTable[k], seq := if k = 7 then .at (n + 1) else .midRound n (k + 1) },
      line := sequencerLine } := by
  rw [engineStep_eq (i := callInstr k) (w := callWord k) (by simp [sequencerWords, hs, hr]) (callWord_decode k).1 rfl]
  simp only [exec, callInstr]
  rw [execG_next_of_latched (f := gcallTable[k]) (callWord_decode k).2 (by simpa using hl)]
  simp only [advanceSeq, setEngine, hs]
  split <;> rfl

/-- The engine's last step. -/
theorem engineStep_last {s : State} (hs : s.engine.seq = .at 14) (hl : s.engine.latched = true) :
    engineStep s = .next (liftHold (setEngine (finalizeEngine s.engine) { s with line := sequencerLine })) := by
  rw [engineStep_eq (i := .finalize) (w := 0x06000000#32) (by rw [sequencerWords, hs]; rfl) rfl rfl]
  simp only [exec]
  rw [execFinalize_next_of_latched (by simpa using hl)]
  simp only []
  rw [advanceSeq_idle (by simp), setEngine_engine_self]

/-- The engine's step when it answers a next state: nothing while idle, else one of the sequencer's words in turn. -/
theorem engineStep_next {s t : State} (h : engineStep s = .next t) :
    (s.engine.seq = .idle ∧ t = s) ∨
    ∃ w i u, w ∈ sequencerWords s.engine ∧ decode w = .ok i ∧ i.opClass = .microOp ∧
      exec i { s with line := sequencerLine } = .next u ∧ t = setEngine (advanceSeq i u.engine) u := by
  have key : ∀ o : Option Word, (∀ w, o = some w → w ∈ sequencerWords s.engine) →
      (match o with | none => .refused .reservedSeq | some w => issueWord sequencerLine w s) = Host.Outcome.next t →
      ∃ w i u, w ∈ sequencerWords s.engine ∧ decode w = .ok i ∧ i.opClass = .microOp ∧
        exec i { s with line := sequencerLine } = .next u ∧ t = setEngine (advanceSeq i u.engine) u := by
    intro o ho h
    cases o with
    | none => cases h
    | some w =>
      obtain ⟨i, hd, hm, hi⟩ := issueWord_next h
      obtain ⟨-, u, hu, rfl⟩ := sequencerIssue_next (show sequencerIssue w i { s with line := sequencerLine } = .next t from hi)
      refine ⟨w, i, u, ho w rfl, hd, ?_, hu, rfl⟩
      cases hc : i.opClass <;> simp [mayIssue, sequencerLine, hc] at hm ⊢
  rcases hs : s.engine.seq with _ | n | ⟨n, k⟩
  · left; simp only [engineStep, hs] at h; exact ⟨rfl, (Host.Outcome.next.inj h).symm⟩
  · right; simp only [engineStep, hs] at h; exact key _ (fun w hw => List.mem_of_mem_head? (by simp [hw])) h
  · right; simp only [engineStep, hs] at h; exact key _ (fun w hw => List.mem_of_mem_head? (by simp [hw])) h

/-- The step under no hold is the next event of the agenda. -/
theorem step_event {s : State} {ev : Event} {rest : List Event} (hh : s.hold = none) (ha : s.agenda = ev :: rest) :
    step s = keepHeld ev (runEvent ev { s with agenda := rest }) := by
  unfold step
  rw [hh, ha]

/-- The step under a hold. -/
theorem step_held {s : State} {hd : Hold} (hh : s.hold = some hd) : step s = heldTurn hd s := by
  unfold step
  rw [hh]

/-- The step with nothing scheduled. -/
theorem step_quiet {s : State} (hh : s.hold = none) (ha : s.agenda = []) : step s = quietTurn s := by
  unfold step
  rw [hh, ha]

/-- An event whose outcome is a next state under no hold is that outcome. -/
theorem keepHeld_next {ev : Event} {o : StepResult} {t : State} (ho : o = .next t) (hh : t.hold = none) :
    keepHeld ev o = .next t := by
  subst ho
  simp [keepHeld, hh]

/-- What a step can do when it answers a next state. -/
theorem step_cases {s t : State} (h : step s = .next t) :
    (∃ hd, s.hold = some hd ∧ heldTurn hd s = .next t) ∨
    (s.hold = none ∧ s.agenda = [] ∧ quietTurn s = .next t) ∨
    ∃ ev rest u, s.hold = none ∧ s.agenda = ev :: rest ∧ runEvent ev { s with agenda := rest } = .next u ∧
      (t = u ∨ t = { u with agenda := ev :: u.agenda }) := by
  simp only [step] at h
  split at h
  · rename_i hd hh; exact .inl ⟨hd, hh, h⟩
  · rename_i hh
    split at h
    · rename_i ha; exact .inr (.inl ⟨hh, ha, h⟩)
    · rename_i ev rest ha
      refine .inr (.inr ⟨ev, rest, ?_⟩)
      simp only [keepHeld] at h
      split at h
      · rename_i u hu
        refine ⟨u, hh, ha, hu, ?_⟩
        obtain rfl := Host.Outcome.next.inj h
        split
        · exact .inr rfl
        · exact .inl rfl
      · cases h
      · cases h

/-- The quiet step is nothing, or one engine's turn. -/
theorem quietTurn_cases (s : State) : quietTurn s = .next s ∨ ∃ page, quietTurn s = engineTurn page s := by
  simp only [quietTurn]
  split
  · exact .inl rfl
  · exact .inr ⟨_, rfl⟩

end Sys2Proof.Machine
end

