-- ==== Sys2Proof/Laws/Encoding.lean ====
section
/-! SUPPORT. Words and their fields: a word is put together again from its selector and its operand fields. -/

namespace Sys2Proof

/-- A Format N word is its selector over 24 zero bits. -/
theorem packN_opField {w : Word} (h : w.extractLsb' 0 24 = 0#24) : packN (opField w) = w := by
  apply BitVec.eq_of_getLsbD_eq
  intro i hi
  have h1 := congrArg (fun x : BitVec 24 => x.getLsbD i) h
  simp only [packN, opField, BitVec.getLsbD_append, BitVec.getLsbD_extractLsb'] at *
  by_cases hlt : i < 24
  · simp [hlt] at *
    exact h1
  · have hi' : 24 + (i - 24) = i := by omega
    simp [hlt, hi']
    omega

/-- A Format G word is put together from its six nibbles. -/
theorem packG_gFieldsOf {w : Word} (h : opField w = 0x03#8) : packG (gFieldsOf w) = w := by
  apply BitVec.eq_of_getLsbD_eq
  intro i hi
  have h1 := congrArg (fun x : BitVec 8 => x.getLsbD (i - 24)) h
  simp only [packG, gFieldsOf, nibbleField, opField, BitVec.getLsbD_append, BitVec.getLsbD_extractLsb'] at *
  interval_cases i <;> simp at * <;> simp [*]

/-- A selector of Format N names an operation whose word is that selector over zeros. -/
theorem formatN_all :
    ∀ op : Byte, (formatN op).all (fun i => decide (encode i = packN op) && i.wf) = true := by decide +kernel

theorem formatN_some {op : Byte} {i : Instr} (h : formatN op = some i) : encode i = packN op ∧ i.wf = true := by
  simpa [h] using formatN_all op

/-- The selectors Format N leaves unnamed, Format G's aside (30 R105). -/
theorem formatN_none :
    ∀ op : Byte, op ≠ 3#8 →
      (formatN op = none ↔ op.toNat = 0 ∨ (7 ≤ op.toNat ∧ op.toNat ≤ 15) ∨ 25 ≤ op.toNat) := by decide +kernel

end Sys2Proof
end

