-- ==== Sys2Proof/Laws/Fairness.lean ====
section
/-! SUPPORT. Every COMPRESS completes under weak fairness (70_reset_and_hazards.md R362): what a step can do to one instance,
and that a busy instance, in a run that never stops and is weakly fair to it, ends its compression. -/

namespace Sys2Proof.Machine

open Sys2Proof

/-- How far a compression has come: eight marks for each position, one for each call of a ROUND under way. -/
def seqRank : Seq → Nat
  | .idle => 0
  | .at n => 8 * n.toNat
  | .midRound n k => 8 * n.toNat + k.val

/-- What a step can do to an instance: it keeps its page and stays legal, and while busy it stands, gets further, or ends. -/
def Moves (e e' : Engine) : Prop :=
  e'.page = e.page ∧ (engineOk e → engineOk e' ∧
    (e.status.busy = true → e'.seq = e.seq ∨ seqRank e.seq < seqRank e'.seq ∨ e'.status.busy = false))

theorem Moves.refl (e : Engine) : Moves e e := ⟨rfl, fun h => ⟨h, fun _ => .inl rfl⟩⟩

/-- An action on the instance addressed leaves the others and moves that instance. -/
def MovesHere (s t : State) : Prop := t.others = s.others ∧ Moves s.engine t.engine

theorem MovesHere.of_same {s t : State} (ho : t.others = s.others) (he : t.engine = s.engine) : MovesHere s t :=
  ⟨ho, he ▸ Moves.refl _⟩

/-- Every instance stays where it is and moves. -/
def MovesAll (s t : State) : Prop := List.Forall₂ Moves (instances s) (instances t)

theorem MovesHere.all {s t : State} (h : MovesHere s t) : MovesAll s t := by
  refine List.Forall₂.cons h.2 ?_
  rw [h.1]
  exact List.forall₂_same.mpr fun e _ => Moves.refl e

/-- Every way an instruction changes an engine is a move. -/
theorem EngineChange.moves {e e' : Engine} (h : EngineChange e e') : Moves e e' := by
  cases h with
  | same => exact Moves.refl e
  | latch r =>
    refine ⟨rfl, fun ⟨h1, h2, _⟩ => ⟨⟨?_, h2, fun _ => rfl⟩, fun _ => .inl rfl⟩⟩
    unfold seqOk at *
    simp only [latchRequest_seq, latchRequest_status, latchRequest_latched]
    split at h1 <;> simp_all
  | mix v hl => exact ⟨rfl, fun h => ⟨⟨h.1, h.2.1, fun _ => hl⟩, fun _ => .inl rfl⟩⟩
  | schedule ms hl => exact ⟨rfl, fun h => ⟨⟨h.1, h.2.1, fun _ => hl⟩, fun _ => .inl rfl⟩⟩
  | finalize hl => exact ⟨rfl, fun _ => ⟨⟨rfl, by simp, fun _ => hl⟩, fun _ => .inr (.inr rfl)⟩⟩
  | transact r hb => exact ⟨rfl, fun _ => ⟨⟨rfl, by simp, fun _ => rfl⟩, fun _ => .inr (.inr rfl)⟩⟩
  | command r hb =>
    exact ⟨rfl, fun _ => ⟨⟨⟨rfl, by decide, by decide, rfl⟩, by simp, fun _ => rfl⟩, fun h => by simp [hb] at h⟩⟩

theorem exec_moves {i : Instr} {s t : State} (h : exec i s = .next t) : MovesHere s t :=
  ⟨(exec_surroundings h).2.1, (exec_engineChange h).moves⟩

/-- A micro-operation but FINALIZE keeps STATUS and SEQ, and what was latched. -/
theorem exec_micro_keeps {i : Instr} {s t : State} (hc : i.opClass = .microOp) (hf : i ≠ .finalize)
    (h : exec i s = .next t) :
    t.engine.status = s.engine.status ∧ t.engine.seq = s.engine.seq ∧ t.engine.page = s.engine.page ∧
      (s.engine.latched = true → t.engine.latched = true) := by
  cases i <;> simp [Instr.opClass] at hc
  · obtain ⟨r, -, rfl⟩ := execInit_next h; exact ⟨rfl, rfl, rfl, fun _ => rfl⟩
  · obtain ⟨-, rfl⟩ := execG_next h; exact ⟨rfl, rfl, rfl, fun h => h⟩
  · obtain ⟨-, rfl⟩ := execRound_next h; exact ⟨rfl, rfl, rfl, fun h => h⟩
  · obtain ⟨-, rfl⟩ := execPermute_next h; exact ⟨rfl, rfl, rfl, fun h => h⟩
  · exact absurd rfl hf

/-- Moving SEQ on from a legal position gets the compression further and stays legal. -/
theorem advanceSeq_moves {w : Word} {i : Instr} {e e' : Engine} (hw : w ∈ sequencerWords e) (hd : decode w = .ok i)
    (hf : i ≠ .finalize) (hst : e'.status = e.status) (hq : e'.seq = e.seq) (hp : e'.page = e.page)
    (hl : e.latched = true → e'.latched = true) : Moves e (advanceSeq i e') := by
  have hpage : (advanceSeq i e').page = e.page := by
    rw [← hp]; simp only [advanceSeq]; split
    · rfl
    · split <;> rfl
    · split <;> rfl
  refine ⟨hpage, fun ⟨h1, h2, h3⟩ => ?_⟩
  have v1 : e'.status.busy = true → e'.status.outValid = false := by rw [hst]; exact h2
  have v2 : e'.status.outValid = true → e'.latched = true := fun h => hl (h3 (hst ▸ h))
  have succ : ∀ n : Nibble, n.toNat ≤ 13 → (n + 1).toNat = n.toNat + 1 := by
    intro n h; rw [BitVec.toNat_add]; simp; omega
  rcases sequencerWords_cases hw hd with ⟨n, hn, h⟩ | ⟨n, k, hn, -, rfl⟩
  · simp only [seqOk, hn] at h1
    rw [hn] at hq
    have step : n.toNat ≤ 13 → isCall i = false → engineOk (advanceSeq i e') ∧
        (e.status.busy = true → (advanceSeq i e').seq = e.seq ∨ seqRank e.seq < seqRank (advanceSeq i e').seq ∨
          (advanceSeq i e').status.busy = false) := by
      intro h13 hcall
      have hs := succ n h13
      simp only [advanceSeq, hq, hcall, hn, Bool.false_eq_true, if_false]
      refine ⟨⟨⟨hst ▸ h1.1, ?_, ?_, hl h1.2.2.2⟩, v1, v2⟩, fun _ => .inr (.inl ?_)⟩
      · show 1 ≤ (n + 1).toNat; omega
      · show (n + 1).toNat ≤ 14; omega
      · simp only [seqRank]; omega
    rcases h with ⟨rfl, -⟩ | ⟨-, h⟩ | ⟨hr, rfl | rfl⟩ | ⟨-, -, h5, rfl⟩
    · simp at h1
    · exact absurd h hf
    · exact step ((isRoundStep_iff n).mp hr).2 rfl
    · have hr := (isRoundStep_iff n).mp hr
      have hcall : isCall (callInstr 0) = true := rfl
      simp only [advanceSeq, hq, hn, hcall, if_true]
      refine ⟨⟨⟨hst ▸ h1.1, hr.1, hr.2, by decide, hl h1.2.2.2⟩, v1, v2⟩, fun _ => .inr (.inl ?_)⟩
      simp [seqRank]
    · exact step (by omega) rfl
  · simp only [seqOk, hn] at h1
    rw [hn] at hq
    have hs := succ n h1.2.2.1
    simp only [advanceSeq, hq, hn]
    by_cases hk : k = 7
    · rw [if_pos hk]
      refine ⟨⟨⟨hst ▸ h1.1, ?_, ?_, hl h1.2.2.2.2⟩, v1, v2⟩, fun _ => .inr (.inl ?_)⟩
      · show 1 ≤ (n + 1).toNat; omega
      · show (n + 1).toNat ≤ 14; omega
      · simp only [seqRank]; omega
    · rw [if_neg hk]
      have next : ∀ k : Fin 8, k ≠ 7 → k + 1 ≠ 0 ∧ (k + 1).val = k.val + 1 := by decide
      obtain ⟨hk0, hkv⟩ := next k hk
      refine ⟨⟨⟨hst ▸ h1.1, h1.2.1, h1.2.2.1, hk0, hl h1.2.2.2.2⟩, v1, v2⟩, fun _ => .inr (.inl ?_)⟩
      simp only [seqRank]; omega

/-- A word of the sequencer in its turn, executed, with SEQ moved on. -/
theorem turn_moves {w : Word} {i : Instr} {s s' u : State} (he : s'.engine = s.engine) (ho : s'.others = s.others)
    (hw : w ∈ sequencerWords s.engine) (hd : decode w = .ok i) (hc : i.opClass = .microOp)
    (h : exec i s' = .next u) : MovesHere s (setEngine (advanceSeq i u.engine) u) := by
  have hm := exec_moves h
  refine ⟨hm.1.trans ho, ?_⟩
  rw [setEngine_engine]
  by_cases hf : i = .finalize
  · subst hf
    obtain ⟨-, rfl⟩ := execFinalize_next h
    rw [advanceSeq_idle (by simp)]
    exact he ▸ hm.2
  · obtain ⟨h1, h2, h3, h4⟩ := exec_micro_keeps hc hf h
    rw [he] at h1 h2 h3 h4
    exact advanceSeq_moves hw hd hf h1 h2 h3 h4

theorem engineStep_moves {s t : State} (h : engineStep s = .next t) : MovesHere s t := by
  rcases engineStep_next h with ⟨-, rfl⟩ | ⟨w, i, u, hw, hd, hc, hu, rfl⟩
  · exact .of_same rfl rfl
  · exact turn_moves (s' := { s with line := sequencerLine }) rfl rfl hw hd hc hu

/-- A claim keeps SEQ and STATUS, so what moves after it moves from before it. -/
theorem claim_then {w : Nat} {s t u : State} (h : claim w s = .ok t) (hu : MovesHere t u) : MovesHere s u := by
  obtain ⟨e, he, rfl⟩ := claim_ok h
  have hf := claimWindow_frame he
  have hm : Moves s.engine e → Moves s.engine u.engine := fun hm =>
    ⟨hu.2.1.trans (by rw [setEngine_engine]; exact hm.1), fun ho => by
      have := hu.2.2 (hm.2 ho).1
      rw [setEngine_engine, hf] at this
      exact this⟩
  refine ⟨hu.1, hm ?_⟩
  rw [hf]
  exact ⟨rfl, fun h => ⟨h, fun _ => .inl rfl⟩⟩

theorem claim_moves {w : Nat} {s t : State} (h : claim w s = .ok t) : MovesHere s t :=
  claim_then h (.of_same rfl rfl)

theorem bindTo_moves {d : Option Nat} {v : Value} {s t : State} (h : MovesHere s t) : MovesHere s (bindTo d v t) :=
  ⟨by simpa using h.1, by simpa using h.2⟩

theorem issueAs_moves {l : Line} {w : Word} {i : Instr} {s t : State} (hd : decode w = .ok i)
    (hm : mayIssue l.issuer i.opClass = true) (h : issueAs l w i s = .next t) : MovesHere s t := by
  simp only [issueAs] at h
  split at h
  · rcases hostIssue_next h with h | ⟨u, -, hc, h⟩
    · exact exec_moves h
    · exact claim_then hc (exec_moves h)
  · rename_i hl
    obtain ⟨hw, u, hu, rfl⟩ := sequencerIssue_next h
    have hc : i.opClass = .microOp := by cases hi : i.opClass <;> simp [mayIssue, hl, hi] at hm ⊢
    exact turn_moves rfl rfl hw hd hc hu

theorem windowWrite_moves {w off size : Nat} {v : Word} {s t : State} (h : windowWrite w off size v s = .next t) :
    MovesHere s t := by
  unfold windowWrite at h
  split at h
  · rename_i x _; cases x <;> cases h
  · split at h
    · rename_i x _; cases x <;> cases h
    · rename_i u hu
      refine claim_then hu ?_
      split at h
      · unfold cmdWrite at h
        split at h
        · exact exec_moves (s := { u with line := commandLine w }) h
        · cases h
      · rename_i r _ _
        obtain rfl := Host.Outcome.next.inj h
        refine ⟨rfl, ?_⟩
        rw [setEngine_engine, writeReg_frame]
        exact ⟨rfl, fun h => ⟨h, fun _ => .inl rfl⟩⟩

theorem resetEngine_moves {s t : State} (h : resetEngine s = .next t) : MovesHere s t := by
  unfold resetEngine at h
  split at h
  · cases h
  · rename_i hb
    obtain rfl := Host.Outcome.next.inj h
    exact ⟨rfl, rfl, fun _ => ⟨⟨rfl, by simp [Engine.reset], by simp [Engine.reset]⟩, fun hbusy => absurd hbusy hb⟩⟩

theorem loadTables_moves {x : Tables} {s t : State} (h : loadTables x s = .next t) : MovesHere s t := by
  obtain rfl := Host.Outcome.next.inj h
  exact ⟨rfl, rfl, fun h => ⟨h, fun _ => .inl rfl⟩⟩

/-- The instance at a page among the others. -/
theorem swapIn_split {page : Nat} {e x : Engine} {es es' : List Engine} (h : swapIn page e es = some (x, es')) :
    ∃ pre post, es = pre ++ x :: post ∧ x.page = page := by
  obtain ⟨hx, hp, -⟩ := swapIn_mem h
  obtain ⟨pre, post, rfl⟩ := List.append_of_mem hx
  exact ⟨pre, post, rfl, hp⟩

/-- Acting on an instance by its page moves it and leaves every other where it is. -/
theorem withEngine_moves {page : Nat} {a : Refusal} {s u : State} {f : State → StepResult}
    (hd : ((instances s).map Engine.page).Nodup) (h : withEngine page a s f = .next u)
    (hf : ∀ t w, f t = .next w → MovesHere t w) : MovesAll s u := by
  by_cases hp : s.engine.page = page
  · subst hp
    rw [withEngine_self] at h
    exact (hf _ _ h).all
  · cases hs : swapIn page s.engine s.others with
    | none => simp [withEngine, focus, hp, hs] at h
    | some x =>
      obtain ⟨e, os⟩ := x
      obtain ⟨pre, post, ho, rfl⟩ := swapIn_split hs
      have hs' := swapIn_append (e := s.engine) (post := post) (pages_distinct hd ho).2.1
      cases hw : f { s with engine := e, others := pre ++ s.engine :: post } with
      | fault x => simp [withEngine, focus, hp, ho, hs', hw] at h
      | refused x => simp [withEngine, focus, hp, ho, hs', hw] at h
      | next w =>
        have hm := hf _ _ hw
        rw [withEngine_other hd ho hw hm.2.1 hm.1] at h
        obtain rfl := Host.Outcome.next.inj h
        refine List.Forall₂.cons (Moves.refl _) ?_
        rw [ho]
        refine List.rel_append ?_ (List.Forall₂.cons hm.2 ?_) <;> exact List.forall₂_same.mpr fun e _ => Moves.refl e

/-- An event moves every instance in its place. -/
theorem runEvent_moves {ev : Event} {s t : State} (hd : ((instances s).map Engine.page).Nodup)
    (h : runEvent ev s = .next t) : MovesAll s t := by
  cases ev with
  | word l w =>
    obtain ⟨i, hi, hm, h⟩ := issueWord_next h
    cases hl : l.engine with
    | none => rw [hl] at h; exact (issueAs_moves (s := { s with line := l }) hi hm h).all
    | some p =>
      rw [hl] at h
      exact withEngine_moves (s := { s with line := l }) hd h fun t w hw => issueAs_moves hi hm hw
  | read w a z d =>
    refine withEngine_moves hd h fun u v hv => ?_
    cases hw : windowRead w (offsetOf a) z u with
    | error x => rw [hw] at hv; cases x <;> cases hv
    | ok p =>
      rw [hw] at hv
      obtain ⟨r, -, hc, -⟩ := windowRead_ok hw
      obtain rfl := Host.Outcome.next.inj hv
      exact bindTo_moves (claim_moves hc)
  | write w a z v => exact withEngine_moves hd h fun u t ht => windowWrite_moves ht
  | poll w a =>
    refine withEngine_moves hd h fun u v hv => ?_
    cases hw : windowRead w (offsetOf a) 4 u with
    | error x => rw [hw] at hv; cases x <;> cases hv
    | ok p =>
      rw [hw] at hv
      obtain ⟨r, -, hc, -⟩ := windowRead_ok hw
      dsimp only at hv
      split at hv <;> (obtain rfl := Host.Outcome.next.inj hv; exact ⟨(claim_moves hc).1, (claim_moves hc).2⟩)
  | readOut w p g d =>
    refine withEngine_moves hd h fun u v hv => ?_
    cases hw : windowRead w (0x80 + 4 * g.length) 4 u with
    | error x => rw [hw] at hv; cases x <;> cases hv
    | ok p =>
      rw [hw] at hv
      obtain ⟨r, -, hc, -⟩ := windowRead_ok hw
      dsimp only at hv
      split at hv <;> obtain rfl := Host.Outcome.next.inj hv
      · exact bindTo_moves (claim_moves hc)
      · exact ⟨(claim_moves hc).1, (claim_moves hc).2⟩
  | engine p => exact withEngine_moves hd h fun u t ht => engineStep_moves ht
  | reset p => exact withEngine_moves hd h fun u t ht => resetEngine_moves ht
  | loadTables p x => exact withEngine_moves hd h fun u t ht => loadTables_moves ht
  | drawBegin w id =>
    simp only [runEvent, drawBegin] at h
    split at h <;> try split at h
    all_goals first | (cases h; done) | (cases h; exact MovesHere.all (.of_same rfl rfl))
  | drawEnd w id d =>
    simp only [runEvent, drawEnd] at h
    split at h <;> try split at h
    all_goals first | (cases h; done) | (cases h; exact MovesHere.all (bindTo_moves (.of_same rfl rfl)))
  | suiteOpen l =>
    simp only [runEvent, suiteOpen] at h
    split at h <;> try split at h
    all_goals first | (cases h; done) | (cases h; exact MovesHere.all (.of_same rfl rfl))
  | suiteLaunch j =>
    obtain ⟨_, _, -, -, -, -, -, -, rfl⟩ := suiteLaunch_next (j := j) h
    exact MovesHere.all (.of_same rfl rfl)
  | suiteAnswer j =>
    obtain ⟨_, _, -, -, -, ⟨_, -, rfl⟩ | ⟨_, _, -, rfl⟩⟩ := suiteAnswer_next (j := j) h
    · exact MovesHere.all (.of_same rfl rfl)
    · exact MovesHere.all (.of_same rfl rfl)
  | suiteClose =>
    obtain ⟨_, _, -, -, rfl⟩ := suiteClose_next h
    exact MovesHere.all (bindTo_moves (.of_same rfl rfl))
  | suiteAbort =>
    obtain rfl := Host.Outcome.next.inj h
    exact MovesHere.all (.of_same rfl rfl)
  | singleOpen l =>
    simp only [runEvent, singleOpen] at h
    split at h <;> try split at h
    all_goals first | (cases h; done) | (cases h; exact MovesHere.all (.of_same rfl rfl))
  | singleAnswer w =>
    obtain ⟨x, -, ⟨y, rfl⟩ | ⟨y, rfl⟩ | ⟨st, y, rfl⟩⟩ := singleAnswer_next h
    · exact MovesHere.all (.of_same rfl rfl)
    · exact MovesHere.all (.of_same rfl rfl)
    · rcases stageEnded_cases x st { s with inputs := y } with ⟨-, -, e⟩ | ⟨rep, e⟩ <;> rw [e]
      · exact MovesHere.all (.of_same rfl rfl)
      · exact MovesHere.all (bindTo_moves (.of_same rfl rfl))
  | randomized w g c b d =>
    obtain rfl := Host.Outcome.next.inj h
    exact MovesHere.all (.of_same rfl rfl)

/-- A step moves every instance in its place. -/
theorem step_moves {s t : State} (hd : ((instances s).map Engine.page).Nodup) (h : step s = .next t) : MovesAll s t := by
  rcases step_cases h with ⟨x, -, h⟩ | ⟨-, -, h⟩ | ⟨ev, rest, u, -, -, h, ht⟩
  · cases x
    refine withEngine_moves hd h fun u v hv => ?_
    unfold heldStep at hv
    split at hv
    · exact engineStep_moves hv
    · obtain rfl := Host.Outcome.next.inj hv; exact .of_same rfl rfl
  · rcases quietTurn_cases s with hq | ⟨p, hq⟩ <;> rw [hq] at h
    · obtain rfl := Host.Outcome.next.inj h; exact MovesHere.all (.of_same rfl rfl)
    · exact withEngine_moves hd h fun u t ht => engineStep_moves ht
  · have hm := runEvent_moves (s := { s with agenda := rest }) hd h
    rcases ht with rfl | rfl <;> exact hm

/-! ### Runs -/

theorem MovesAll.pages {s t : State} (h : MovesAll s t) :
    (instances t).map Engine.page = (instances s).map Engine.page := by
  unfold MovesAll at h
  generalize instances s = l at h
  generalize instances t = l' at h
  induction h with
  | nil => rfl
  | cons h _ ih => simp [ih, h.1]

/-- The instance at its place after a step. -/
theorem MovesAll.place {s t : State} (h : MovesAll s t) {j : Nat} {e : Engine} (he : (instances s)[j]? = some e) :
    ∃ e', (instances t)[j]? = some e' ∧ Moves e e' := by
  obtain ⟨hlen, hall⟩ := List.forall₂_iff_get.mp h
  obtain ⟨hj, rfl⟩ := List.getElem?_eq_some_iff.mp he
  have hj' : j < (instances t).length := hlen ▸ hj
  exact ⟨(instances t)[j], by simp [hj'], hall j hj hj'⟩

theorem seqRank_le {e : Engine} (h : engineOk e) : seqRank e.seq ≤ 112 := by
  have h1 := h.1
  unfold seqOk at h1
  rcases hq : e.seq with _ | n | ⟨n, k⟩ <;> rw [hq] at h1 <;> simp only [seqRank]
  · omega
  · omega
  · have := k.isLt; omega

/-- Under weak fairness, in a run that never stops from a legal state whose instances have distinct pages, every busy instance
comes to be not busy: its COMPRESS completes (70 R362). -/
theorem compress_completes {run : Nat → State} (hrun : isRun run) (hfair : weaklyFair run)
    (h0 : enginesOk (run 0)) (hd0 : ((instances (run 0)).map Engine.page).Nodup) (page k : Nat) :
    ∃ n, k ≤ n ∧ ¬ busyAt page (run n) := by
  have hd : ∀ n, ((instances (run n)).map Engine.page).Nodup := by
    intro n
    induction n with
    | zero => exact hd0
    | succ n ih => rw [(step_moves ih (hrun n)).pages]; exact ih
  have hall : ∀ n, MovesAll (run n) (run (n + 1)) := fun n => step_moves (hd n) (hrun n)
  have hok : ∀ n, enginesOk (run n) := by
    intro n
    induction n with
    | zero => exact h0
    | succ n ih =>
      intro e' he'
      obtain ⟨j, hj, rfl⟩ := List.getElem_of_mem he'
      obtain ⟨hlen, hrel⟩ := List.forall₂_iff_get.mp (hall n)
      have hj0 : j < (instances (run n)).length := hlen ▸ hj
      exact (hrel j hj0 hj).2 (ih _ (List.getElem_mem hj0)) |>.1
  by_contra hc
  push Not at hc
  obtain ⟨e, he, hpe, -⟩ := hc k le_rfl
  obtain ⟨j, hj, hje⟩ := List.getElem_of_mem he
  have hat : ∀ n, ∃ x, (instances (run n))[j]? = some x ∧ x.page = page := by
    have hpages : ∀ n, (instances (run n)).map Engine.page = (instances (run k)).map Engine.page := by
      have : ∀ n, (instances (run n)).map Engine.page = (instances (run 0)).map Engine.page := by
        intro n
        induction n with
        | zero => rfl
        | succ n ih => rw [(hall n).pages, ih]
      intro n; rw [this n, this k]
    intro n
    have h1 : ((instances (run n)).map Engine.page)[j]? = some page := by
      rw [hpages n]; simp [hj, hje, hpe]
    simpa using h1
  choose x hx hxp using hat
  have huniq : ∀ n y, y ∈ instances (run n) → y.page = page → y = x n := fun n y hy hyp =>
    List.inj_on_of_nodup_map (hd n) hy (List.mem_of_getElem? (hx n)) (hyp.trans (hxp n).symm)
  have hbusy : ∀ n, k ≤ n → (x n).status.busy = true := by
    intro n hn
    obtain ⟨y, hy, hyp, hb⟩ := hc n hn
    exact huniq n y hy hyp ▸ hb
  have hmove : ∀ n, Moves (x n) (x (n + 1)) := by
    intro n
    obtain ⟨y, hy, hm⟩ := (hall n).place (hx n)
    rw [hx (n + 1)] at hy
    exact Option.some.inj hy ▸ hm
  have hle : ∀ n, k ≤ n →
      seqRank (x n).seq ≤ seqRank (x (n + 1)).seq ∧ ((x n).seq ≠ (x (n + 1)).seq → seqRank (x n).seq < seqRank (x (n + 1)).seq) := by
    intro n hn
    rcases ((hmove n).2 (hok n _ (List.mem_of_getElem? (hx n)))).2 (hbusy n hn) with h | h | h
    · exact ⟨by rw [h], fun hne => absurd h.symm hne⟩
    · exact ⟨h.le, fun _ => h⟩
    · rw [hbusy (n + 1) (by omega)] at h; cases h
  have hmono : ∀ a b, k ≤ a → a ≤ b → seqRank (x a).seq ≤ seqRank (x b).seq := by
    intro a b ha hab
    induction b, hab using Nat.le_induction with
    | base => exact le_rfl
    | succ b hb ih => exact ih.trans (hle b (by omega)).1
  have hgrow : ∀ m, ∃ n, k ≤ n ∧ m ≤ seqRank (x n).seq := by
    intro m
    induction m with
    | zero => exact ⟨k, le_rfl, Nat.zero_le _⟩
    | succ m ih =>
      obtain ⟨a, ha, hm⟩ := ih
      obtain ⟨n, hn, y, hy, y', hy', hyp, hyp', hne⟩ := hfair page a fun n hn => hc n (by omega)
      rw [huniq n y hy hyp, huniq (n + 1) y' hy' hyp'] at hne
      exact ⟨n + 1, by omega, by have := (hle n (by omega)).2 hne; have := hmono a n ha hn; omega⟩
  obtain ⟨n, -, hn⟩ := hgrow 113
  have := seqRank_le (hok n _ (List.mem_of_getElem? (hx n)))
  omega

end Sys2Proof.Machine
end

