-- ==== Sys2Proof/Laws/Host.lean ====
section
/-! SUPPORT. The host operations' functions: draws, bit strings, and judging a circuit's words. -/

namespace Sys2Proof.Machine

open Sys2Proof

/-! ### Draws (41_generator.md) -/

/-- The word drawn, as a number (41 R141, R142). -/
theorem lcgStep_toNat (seed : BitVec 64) : (lcgStep seed).toNat = (1664525 * seed.toNat + 1013904223) % 2 ^ 32 := by
  simp [lcgStep, lcgMultiplier, lcgIncrement, Nat.add_comm]

/-- Word `i` of `k` draws is what the generator gives after `i` draws. -/
theorem drawWords_getD (k i : Nat) (seed : BitVec 64) :
    (drawWords k seed).1.getD i 0 = if i < k then lcgStep (lcgSeed^[i] seed) else 0 := by
  induction k generalizing seed i with
  | zero => simp [drawWords]
  | succ k ih =>
    cases i with
    | zero => simp [drawWords]
    | succ i =>
      simp only [drawWords, List.getD_cons_succ, ih]
      simp

theorem drawWords_seed (k : Nat) (seed : BitVec 64) : (drawWords k seed).2 = lcgSeed^[k] seed := by
  induction k generalizing seed with
  | zero => rfl
  | succ k ih =>
    simp only [drawWords, ih]
    rfl

/-! ### Vectors (10_state.md R51) -/

/-- What BUILD_VECTOR returns for a legal block length is a built vector. -/
theorem isBuilt_builtVector {a : BuildArgs} (seed : BitVec 64) (h : blockLenOk a.blockLen = true) :
    isBuilt (builtVector a seed) := by
  refine ⟨h, fun i hi => ?_⟩
  have hi' : ¬ i.val < a.blockLen.toNat / 4 := by simpa [builtVector] using hi
  simp only [builtVector, padMessage, Fin.getElem_fin, Vector.getElem_ofFn, drawWords_getD, if_neg hi']

/-- The vectors a list of names gives are all bound to names. -/
theorem resolveVecs_bound {env : List (Nat × Value)} {ns : List Nat} {vs : List VecRec} (h : resolveVecs env ns = some vs) :
    ∀ v ∈ vs, ∃ n, envGet n env = some (.vec v) := by
  induction ns generalizing vs with
  | nil => simp only [resolveVecs, Option.some.injEq] at h; simp [← h]
  | cons n ns ih =>
    simp only [resolveVecs] at h
    split at h
    · rename_i v ws hv hw
      obtain rfl := Option.some.inj h
      intro x hx
      rcases List.mem_cons.mp hx with rfl | hx
      · exact ⟨n, hv⟩
      · exact ih hw x hx
    · cases h

/-- The vectors of a suite are all bound to names. -/
theorem suiteArgs_bound {s : State} {a : SuiteArgs} (h : suiteArgs s = some a) :
    ∀ v ∈ a.vectors, ∃ n, envGet n s.env = some (.vec v) := by
  simp only [suiteArgs] at h
  split at h
  · split at h
    · rename_i vs c hv _
      obtain rfl := Option.some.inj h
      simp only [vectorsArg] at hv
      split at hv
      · exact resolveVecs_bound hv
      all_goals cases hv
    · cases h
  · cases h

/-- The vector of a RUN_SINGLE is bound to a name. -/
theorem singleArgs_bound {s : State} {a : SingleArgs} (h : singleArgs s = some a) :
    ∃ n, envGet n s.env = some (.vec a.vec) := by
  simp only [singleArgs] at h
  split at h
  · split at h
    · rename_i v p hv _
      obtain rfl := Option.some.inj h
      simp only [typedArg] at hv
      split at hv
      · cases hv
      · rename_i arg _
        cases arg with
        | lit l => cases l <;> simp [resolveArg, literalValue, asVec] at hv
        | name n =>
          refine ⟨n, ?_⟩
          simp only [resolveArg] at hv
          cases hg : envGet n s.env with
          | none => rw [hg] at hv; cases hv
          | some w => rw [hg] at hv; cases w <;> simp [asVec] at hv; rw [hv]
        | names ns => simp [resolveArg] at hv
    · cases h
  · cases h

/-- A name an instruction leaves bound to a vector was bound to it before, or BUILD_VECTOR built it. -/
theorem exec_vectors {i : Instr} {s t : State} (h : exec i s = .next t) {n : Nat} {v : VecRec}
    (hv : envGet n t.env = some (.vec v)) : envGet n s.env = some (.vec v) ∨ (i = .buildVector ∧ isBuilt v) := by
  have bind : ∀ {w : Value} {u : State}, envGet n (bindResult w u).env = some (.vec v) → (∀ y, w ≠ .vec y) →
      u.env = s.env → envGet n s.env = some (.vec v) :=
    fun hb hw hu => hu ▸ envGet_bindTo_vec hw hb
  cases i with
  | compress =>
    rcases execCompress_next h with ⟨-, rfl⟩ | ⟨r, -, rfl⟩ | ⟨r, -, rfl⟩ | ⟨r, rfl⟩
    · exact .inl hv
    · exact .inl (bind hv (by simp) rfl)
    · exact .inl hv
    · exact .inl hv
  | init => obtain ⟨r, -, rfl⟩ := execInit_next h; exact .inl (by simpa only [setEngine_env] using hv)
  | g a b c d x y => obtain ⟨-, rfl⟩ := execG_next h; exact .inl (by simpa only [setEngine_env] using hv)
  | round => obtain ⟨-, rfl⟩ := execRound_next h; exact .inl (by simpa only [setEngine_env] using hv)
  | permute => obtain ⟨-, rfl⟩ := execPermute_next h; exact .inl (by simpa only [setEngine_env] using hv)
  | finalize => obtain ⟨-, rfl⟩ := execFinalize_next h; exact .inl (by simpa only [liftHold_env, setEngine_env] using hv)
  | lcgNew => obtain ⟨_, -, rfl⟩ := execLcgNew_next h; exact .inl (bind hv (by simp) rfl)
  | lcgNext => obtain ⟨_, _, -, -, rfl⟩ := execLcgNext_next h; exact .inl (bind hv (by simp) rfl)
  | toFixedBinary => obtain ⟨_, hw, rfl⟩ := execToFixedBinary_next h; exact .inl (bind hv hw rfl)
  | fromBinary => obtain ⟨_, hw, rfl⟩ := execFromBinary_next h; exact .inl (bind hv hw rfl)
  | buildVector =>
    obtain ⟨a, -, ⟨-, rfl⟩ | ⟨hb, g, -, rfl⟩⟩ := execBuildVector_next h
    · exact .inl (bind hv (by simp) rfl)
    · rcases envGet_bindTo hv with e | hs
      · obtain rfl := Value.vec.inj e
        exact .inr ⟨rfl, isBuilt_builtVector _ hb⟩
      · exact .inl hs
  | serializeVector => obtain ⟨_, hw, rfl⟩ := execSerializeVector_next h; exact .inl (bind hv hw rfl)
  | runSuite =>
    obtain ⟨_, _, hw, rfl⟩ | ⟨_, rfl⟩ := execRunSuite_next h
    · exact .inl (bind hv hw rfl)
    · exact .inl hv
  | runSingle =>
    obtain ⟨_, _, hw, rfl⟩ | ⟨_, rfl⟩ := execRunSingle_next h
    · exact .inl (bind hv hw rfl)
    · exact .inl hv
  | chainCv => obtain ⟨_, hw, rfl⟩ := execChainCv_next h; exact .inl (bind hv hw rfl)

/-! ### Bit strings (42_serialization.md) -/

@[simp] theorem fixedBits_length (n : Nat) (w : Word) : (fixedBits n w).length = n := by
  induction n with
  | zero => rfl
  | succ n ih => simp [fixedBits, ih]

/-- The `i`-th bit from the left. -/
theorem fixedBits_getElem? {n i : Nat} (w : Word) (h : i < n) :
    (fixedBits n w)[i]? = some (w.getLsbD (n - 1 - i)) := by
  induction n generalizing i with
  | zero => omega
  | succ n ih =>
    cases i with
    | zero => simp [fixedBits]
    | succ i =>
      simp only [fixedBits, List.getElem?_cons_succ, ih (Nat.lt_of_succ_lt_succ h), Nat.add_sub_cancel]
      congr 2
      omega

/-- The number the low bits of a word spell. -/
theorem bitsValue_fixedBits (n : Nat) (w : Word) : bitsValue (fixedBits n w) = w.toNat % 2 ^ n := by
  have key : ∀ x, (fixedBits n w).foldl (fun x b => 2 * x + b.toNat) x = 2 ^ n * x + w.toNat % 2 ^ n := by
    induction n with
    | zero => intro x; simp [fixedBits, Nat.mod_one]
    | succ n ih =>
      intro x
      have e : w.toNat % 2 ^ (n + 1) = (w.getLsbD n).toNat * 2 ^ n + w.toNat % 2 ^ n := by
        simp only [BitVec.getLsbD]
        rw [Nat.pow_succ, Nat.mod_mul, Nat.toNat_testBit]
        ring
      simp only [fixedBits, List.foldl_cons, ih]
      rw [e]
      ring
  simp [bitsValue, key]

/-! ### Words as values (30 R104) -/

/-- Sixteen words read back from their numbers. -/
theorem toWords_toNat (v : Vector Word 16) : toWords 16 (v.toList.map BitVec.toNat) = some v := by
  unfold toWords
  rw [dif_pos ⟨by simp, by simp; intro a _; exact a.isLt⟩]
  congr 1
  apply Vector.ext
  intro i hi
  simp

/-- A circuit that answers with the engine's words passes (45 R260). -/
theorem judge_of_compress (v : VecRec) (o e : Text) :
    judge v (.value (.words ((compress v).toList.map BitVec.toNat)) o e) = .pass := by
  simp only [judge, parseOutput, toWords_toNat]
  exact (compareOutputs_pass _ _ _).mpr rfl

/-- The indices of a suite's entries. -/
theorem indexFrom_fst (k : Nat) (os : List SuiteOutcome) : (indexFrom k os).map Prod.fst = List.range' k os.length := by
  induction os generalizing k with
  | nil => rfl
  | cons o os ih => simp [indexFrom, ih, List.range'_succ]

/-- A suite passes exactly when every entry does (45 R265). -/
theorem indexFrom_all (k : Nat) (os : List SuiteOutcome) :
    os.all (· == .pass) = true ↔ ∀ e ∈ indexFrom k os, e.2 = .pass := by
  induction os generalizing k with
  | nil => simp [indexFrom]
  | cons o os ih => simp only [List.all_cons, Bool.and_eq_true, beq_iff_eq, indexFrom, List.forall_mem_cons, ih (k + 1)]

end Sys2Proof.Machine
end

