-- ==== Sys2Proof/Laws/Mix.lean ====
section
/-! SUPPORT. The words of V, MS and OUT one by one: reading after replacing, and what INIT, PERMUTE, FINALIZE and G leave in
each place. -/

namespace Sys2Proof.Machine

open Sys2Proof

/-- The engine's rotation is rotation to the right. -/
theorem rotr32_eq {n : Nat} (x : Word) (h : n < 32) : rotr32 x n = x.rotateRight n := by
  simp [rotr32, BitVec.rotateRight, BitVec.rotateRightAux, Nat.mod_eq_of_lt h]

/-- The four V indices of a legal tuple differ (30 R103). -/
theorem legalG_distinct {f : GFields} (h : legalG.contains f = true) :
    f.a ≠ f.b ∧ f.a ≠ f.c ∧ f.a ≠ f.d ∧ f.b ≠ f.c ∧ f.b ≠ f.d ∧ f.c ≠ f.d := by
  have key : ∀ f ∈ legalG, f.a ≠ f.b ∧ f.a ≠ f.c ∧ f.a ≠ f.d ∧ f.b ≠ f.c ∧ f.b ≠ f.d ∧ f.c ≠ f.d := by decide
  exact key f (by simpa using h)

@[simp] theorem nib_setNib_same (v : Vector Word 16) (i : Nibble) (w : Word) : nib (setNib v i w) i = w := by
  simp [nib, setNib]

theorem nib_setNib_other {i j : Nibble} (h : i ≠ j) (v : Vector Word 16) (w : Word) :
    nib (setNib v i w) j = nib v j := by
  have hn : i.toNat ≠ j.toNat := fun e => h (BitVec.eq_of_toNat_eq e)
  simp [nib, setNib, hn]

/-- Every index of a 16-word file is a nibble. -/
theorem getElem_eq_nib (v : Vector Word 16) (i : Nat) (h : i < 16) : v[i] = nib v (BitVec.ofNat 4 i) := by
  have : i % 16 = i := Nat.mod_eq_of_lt h
  simp [nib, this]

/-- Two 16-word files are equal when they agree at every nibble. -/
theorem ext_nib {v w : Vector Word 16} (h : ∀ i : Nibble, nib v i = nib w i) : v = w := by
  apply Vector.ext
  intro i hi
  rw [getElem_eq_nib v i hi, getElem_eq_nib w i hi, h]

/-- A G call writes only the four words its tuple names. -/
theorem gCall_other {ms v : Vector Word 16} {f : GFields} {i : Nibble} (ha : f.a ≠ i) (hb : f.b ≠ i) (hc : f.c ≠ i)
    (hd : f.d ≠ i) : nib (gCall ms v f) i = nib v i := by
  simp [gCall, nib_setNib_other, ha, hb, hc, hd]

/-- PERMUTE gathers: place `i` takes the word that was at `PERM[i]`. -/
theorem permuteMs_getElem (ms : Vector Word 16) (i : Nat) (h : i < 16) :
    (permuteMs ms)[i] = ms[(permTable[i]).val] := by
  simp [permuteMs]

/-- The first half of the output. -/
theorem finalizeOut_low (v : Vector Word 16) (hl : Vector Word 8) (i : Nat) (h : i < 8) :
    (finalizeOut v hl)[i] = v[i] ^^^ v[i + 8] := by
  simp only [finalizeOut]
  rw [Vector.getElem_append_left h]
  simp

/-- The second half of the output. -/
theorem finalizeOut_high (v : Vector Word 16) (hl : Vector Word 8) (i : Nat) (h : i < 8) :
    (finalizeOut v hl)[i + 8] = v[i + 8] ^^^ hl[i] := by
  simp only [finalizeOut]
  rw [Vector.getElem_append_right (by omega) (by omega)]
  simp

/-- Rows 0 and 1 of the state INIT seeds. -/
theorem initV_chaining (r : VecRec) (i : Nat) (h : i < 8) : (initV r)[i] = r.h[i] := by
  simp only [initV]
  rw [Vector.getElem_append_left h]

/-- The upper half of the working state INIT seeds (44 R204). -/
theorem initV_upper (r : VecRec) (i : Nat) (h : i < 8) :
    (initV r)[i + 8] =
      (#v[ivTable[0], ivTable[1], ivTable[2], ivTable[3], r.t0, r.t1, zext32 r.b, zext32 r.d] : Vector Word 8)[i] := by
  simp only [initV]
  rw [Vector.getElem_append_right (by omega) (by omega)]
  simp

/-- A compression of two or more rounds is a round, a PERMUTE, and the rounds left. -/
theorem runRounds_step (n : Nat) (ms v : Vector Word 16) :
    runRounds (n + 2) ms v = runRounds (n + 1) (permuteMs ms) (roundV ms v) := rfl

end Sys2Proof.Machine
end

