-- ==== Sys2Proof/Laws/PerInstr.lean ====
section
/-! SUPPORT. Statements about every instruction as syntax, one lemma per constructor.
SelectorRange: the selector of an instruction's word lies in the range 30_encoding.md R105 gives its class. -/

namespace Sys2Proof.Laws.SelectorRange

open Sys2Proof

/-- The selector range of a class: COMPRESS 0x01, micro-operations 0x02 to 0x06, host operations 0x10 to 0x18 (30 R105). -/
def lowest : OpClass → Nat
  | .engineCommand => 0x01
  | .microOp => 0x02
  | .host => 0x10

/-- The other end of the range. -/
def highest : OpClass → Nat
  | .engineCommand => 0x01
  | .microOp => 0x06
  | .host => 0x18

/-- The selector of an instruction's word is in the range of its class. -/
def Statement (i : Instr) : Prop :=
  lowest i.opClass ≤ (opField (encode i)).toNat ∧ (opField (encode i)).toNat ≤ highest i.opClass

theorem compress : Statement .compress := by unfold Statement; decide
theorem init : Statement .init := by unfold Statement; decide
theorem round : Statement .round := by unfold Statement; decide
theorem permute : Statement .permute := by unfold Statement; decide
theorem finalize : Statement .finalize := by unfold Statement; decide
theorem lcgNew : Statement .lcgNew := by unfold Statement; decide
theorem lcgNext : Statement .lcgNext := by unfold Statement; decide
theorem toFixedBinary : Statement .toFixedBinary := by unfold Statement; decide
theorem fromBinary : Statement .fromBinary := by unfold Statement; decide
theorem buildVector : Statement .buildVector := by unfold Statement; decide
theorem serializeVector : Statement .serializeVector := by unfold Statement; decide
theorem runSuite : Statement .runSuite := by unfold Statement; decide
theorem runSingle : Statement .runSingle := by unfold Statement; decide
theorem chainCv : Statement .chainCv := by unfold Statement; decide

/-- The selector of a Format G word is 0x03 whatever its operands. -/
theorem opField_packG (f : GFields) : opField (packG f) = 0x03#8 := by
  apply BitVec.eq_of_getLsbD_eq
  intro i hi
  simp [opField, packG]
  grind

theorem g (a b c d x y : Nibble) : Statement (.g a b c d x y) := by
  have h := opField_packG ⟨a, b, c, d, x, y⟩
  simp [Statement, lowest, highest, Instr.opClass, encode, h]

end Sys2Proof.Laws.SelectorRange
end

