-- ==== Sys2Proof/Tests/Slice0.lean ====
section
/-! SUPPORT. Tests of one step or one function each, against the values the spec prints (95_test_vectors.md and the rules
named), and for every statement with hypotheses a concrete state that meets them together. -/

set_option Elab.async false

namespace Sys2Proof.Tests

open Sys2Proof Sys2Proof.Machine

/-! ### Small states -/

/-- One idle instance at page 2 holding a written request; names 0 to 2 for a free generator of seed 6429, one in use and one
that does not exist, 3 for a number, 4 and 5 for vectors. -/
def idleState (view : View) : State where
  params := ⟨9, 1, .w8, view⟩
  engine := putRequest selfCheck2 (Engine.reset 2)
  others := [Engine.reset 5]
  gens := [⟨6429, none⟩, ⟨0, some 1⟩]
  env := [(0, .gen 0), (1, .gen 1), (2, .gen 2), (3, .int 1), (4, .vec selfCheck1), (5, .vec selfCheck2)]
  suite := none
  singles := []
  line := Line.empty
  agenda := []
  hold := none
  inputs := ⟨[], [], [], 0⟩

/-- That state with an operand record and the name 7 for the result. -/
def withArgs (args : List (Key × Arg)) : State := { idleState .transaction with line := ⟨.host, 0, none, args, some 7⟩ }

/-- The instance after the COMPRESS command, at sequencer position `n`. -/
def runningState (n : Nibble) : State :=
  let s := idleState .sequenced
  setEngine { commandEngine selfCheck2 s.engine with seq := .at n } s

/-- An instance with nothing written. -/
def freshState : State := setEngine (Engine.reset 2) (idleState .transaction)

/-- A word as the next event. -/
def wordState (issuer : Issuer) (engine : Option Nat) (w : Word) (s : State) : State :=
  { s with agenda := [.word ⟨issuer, 0, engine, [], none⟩ w] }

/-- Whether an outcome is a next state, and which stop it is. -/
def completes (o : StepResult) : Bool :=
  match o with
  | .next _ => true
  | .fault _ => false
  | .refused _ => false

/-- The value an operation bound to name 7. -/
def result (o : StepResult) : Option Value :=
  match o with
  | .next t => envGet 7 t.env
  | .fault _ => none
  | .refused _ => none

/-- Something of the next state. -/
def after {α : Type} (o : StepResult) (f : State → α) : Option α :=
  match o with
  | .next t => some (f t)
  | .fault _ => none
  | .refused _ => none

/-- The fault or refusal of an outcome. -/
def stopOf (o : StepResult) : Option (Fault ⊕ Refusal) :=
  match o with
  | .next _ => none
  | .fault f => some (.inl f)
  | .refused r => some (.inr r)

/-! ### Well-formedness and decoding (30 R103 to R107, 95 section 9.1) -/

theorem test_wf_rejects_foreign_tuple : (Instr.g 0 4 8 12 1 0).wf = false := by decide
theorem test_wf_accepts_table : legalG.all (fun f => (Instr.g f.a f.b f.c f.d f.x f.y).wf) = true := by decide

theorem test_decode_compress : decode 0b00000001000000000000000000000000#32 = .ok .compress := by decide
theorem test_decode_init : decode 0b00000010000000000000000000000000#32 = .ok .init := by decide
theorem test_decode_g0 : decode 0b00000011000001001000110000000001#32 = .ok (.g 0 4 8 12 0 1) := by decide
theorem test_decode_g1 : decode 0x03159D23#32 = .ok (.g 1 5 9 13 2 3) := by decide
theorem test_decode_g2 : decode 0x0326AE45#32 = .ok (.g 2 6 10 14 4 5) := by decide
theorem test_decode_g3 : decode 0x0337BF67#32 = .ok (.g 3 7 11 15 6 7) := by decide
theorem test_decode_g4 : decode 0x0305AF89#32 = .ok (.g 0 5 10 15 8 9) := by decide
theorem test_decode_g5 : decode 0x0316BCAB#32 = .ok (.g 1 6 11 12 10 11) := by decide
theorem test_decode_g6 : decode 0x03278DCD#32 = .ok (.g 2 7 8 13 12 13) := by decide
/-- The word the layout of 30 R102 gives G7 (opcode_table.json); the word printed for it in 30 R103 has two equal V indices,
which R103 refuses. -/
theorem test_decode_g7 :
    decode 0b00000011001101001001111011101111#32 = .ok (.g 3 4 9 14 14 15) ∧
      decode 0x033449EF#32 = .error .illegalGFields := by decide
theorem test_decode_round : decode 0b00000100000000000000000000000000#32 = .ok .round := by decide
theorem test_decode_permute : decode 0b00000101000000000000000000000000#32 = .ok .permute := by decide
theorem test_decode_finalize : decode 0b00000110000000000000000000000000#32 = .ok .finalize := by decide
theorem test_decode_lcgNew : decode 0b00010000000000000000000000000000#32 = .ok .lcgNew := by decide
theorem test_decode_lcgNext : decode 0b00010001000000000000000000000000#32 = .ok .lcgNext := by decide
theorem test_decode_toFixedBinary : decode 0b00010010000000000000000000000000#32 = .ok .toFixedBinary := by decide
theorem test_decode_fromBinary : decode 0b00010011000000000000000000000000#32 = .ok .fromBinary := by decide
theorem test_decode_buildVector : decode 0b00010100000000000000000000000000#32 = .ok .buildVector := by decide
theorem test_decode_serializeVector : decode 0b00010101000000000000000000000000#32 = .ok .serializeVector := by decide
theorem test_decode_runSuite : decode 0b00010110000000000000000000000000#32 = .ok .runSuite := by decide
theorem test_decode_runSingle : decode 0b00010111000000000000000000000000#32 = .ok .runSingle := by decide
theorem test_decode_chainCv : decode 0b00011000000000000000000000000000#32 = .ok .chainCv := by decide

theorem test_decode_reserved :
    ([0x00000000, 0x07000000, 0x0F000000, 0x19000000, 0xFFFFFFFF] : List Word).map decode =
      List.replicate 5 (.error .reservedOp) := by decide
theorem test_decode_operand_bits :
    ([0x01000001, 0x04800000, 0x18FFFFFF] : List Word).map decode =
      List.replicate 3 (.error .nonZeroOperandField) := by decide
theorem test_decode_illegal_g :
    ([0x03048C00, 0x03000000, 0x03484C01] : List Word).map decode = List.replicate 3 (.error .illegalGFields) := by
  decide
theorem test_only_compress_is_a_command :
    isCommandWord 0x01000000#32 = true ∧
      ([0x02000000, 0x03048C01, 0x01000001, 0x10000000, 0x00000000] : List Word).all (fun w => !isCommandWord w) = true := by
  decide

/-! ### The engine -/

/-- 95 section 2, G-8, G-9, G-10, G-13. -/
theorem test_g_vectors :
    mixG ⟨0, 0, 0, 0⟩ 1 2 = ⟨0x00000013, 0x20260202, 0x13010100, 0x13000100⟩ ∧
    mixG ⟨0, 0, 0, 0⟩ 2 1 = ⟨0x00000023, 0x40460404, 0x23020200, 0x23000200⟩ ∧
    mixG ⟨0xFFFFFFFF, 0xFFFFFFFF, 0xFFFFFFFF, 0xFFFFFFFF⟩ 0xFFFFFFFF 0xFFFFFFFF =
      ⟨0x000FFFDC, 0x3DB81BE4, 0xDC020DFE, 0xDC000DFF⟩ ∧
    mixG ⟨0x12345678, 0x9ABCDEF0, 0x0FEDCBA9, 0x87654321⟩ 0xDEADBEEF 0xCAFEBABE =
      ⟨0xBBE38D05, 0xAB406B67, 0xC5706E25, 0xFE0C9581⟩ := by decide +kernel

/-- 95 section 1.1 and 3.2. -/
theorem test_self_checks : compress selfCheck1 = selfCheckOut1 ∧ compress selfCheck2 = selfCheckOut2 := by
  decide +kernel

/-- 95 section 8, C4 and C7: the high counter word and a block length above 64. -/
theorem test_corner_cases :
    (compress { selfCheck1 with t1 := 1 })[0] = 0x9D7EFDC4 ∧ (compress { selfCheck1 with t0 := 1 })[0] = 0x93D8E54B ∧
      (compress { selfCheck1 with b := 200 })[15] = 0xB513D721 ∧
      (compress { selfCheck1 with d := 0x80 })[0] = 0xD1598123 := by decide +kernel

/-- 95 section 3.1, the first G call of the known vector, and that G writes its four words alone. -/
theorem test_g_step :
    after (exec (.g 0 4 8 12 0 1) (setEngine (latchRequest selfCheck1 (Engine.reset 0)) freshState))
        (fun t => (t.engine.v[0], t.engine.v[4], t.engine.v[8], t.engine.v[12], t.engine.v[1])) =
      some (0xEB2778D5, 0x5A8196B9, 0x70C46342, 0xCDD3C1C3, 0xBB67AE85) := by decide +kernel

/-- 95 section 3.1, INIT state. -/
theorem test_init_step :
    after (exec .init (setEngine (putRequest selfCheck1 (Engine.reset 0)) freshState))
        (fun t => (t.engine.v[7], t.engine.v[11], t.engine.v[14], t.engine.v[15], t.engine.hl[7])) =
      some (0x5BE0CD19, 0xA54FF53A, 0x40, 3, 0x5BE0CD19) := by decide +kernel

/-- 95 section 3.2, V after round 1. -/
theorem test_round_step :
    after (exec .round (runningState 1)) (fun t => (t.engine.v[0], t.engine.v[15], t.engine.ms[0])) =
      some (0xABEA62FC, 0xF6AF13A5, 0) := by decide +kernel

/-- 95 section 3.2: MS of round 2 is the permutation, gathered. -/
theorem test_permute_step :
    after (exec .permute (runningState 2)) (fun t => t.engine.ms.toList.map BitVec.toNat) =
      some [2, 6, 3, 10, 7, 0, 4, 13, 1, 11, 12, 5, 9, 14, 15, 8] := by decide +kernel

/-- 44 R212 on the INIT state: OUT[0] = V[0] ^ V[8] = 0, OUT[12] = V[12] ^ HL[4]. -/
theorem test_finalize_step :
    after (exec .finalize (runningState 14)) (fun t => (t.engine.out[0], t.engine.out[12], t.engine.status.word)) =
      some (0, 0x510E527F, 2) := by decide +kernel

/-- 95 P6: COMPRESS of the registers in the transaction view. -/
theorem test_compress_step :
    after (exec .compress (idleState .transaction)) (fun t => (t.engine.out, t.engine.status.word)) =
      some (selfCheckOut2, 2) := by decide +kernel

/-- 95 P1, the CMD write in the sequenced view: STATUS 01, SEQ 1. -/
theorem test_command_step :
    after (exec .compress (idleState .sequenced)) (fun t => (t.engine.status.word, t.engine.seq)) =
      some (1, .at 1) := by decide +kernel

/-- 95 P5: a second command while busy holds. -/
theorem test_second_command_holds :
    after (exec .compress (runningState 1)) (fun t => t.hold) = some (some (.cmdWhileBusy 2)) := by decide +kernel

/-- 95 section 1.1: the first eight words of the known vector's output are its chaining value. -/
theorem test_chainCv_step :
    result (exec .chainCv (withArgs [(.out, .lit (.words (ofWords selfCheckOut1)))])) =
      some (.words [0xB559333C, 0xC9D88819, 0x896CD50D, 0x1C8C81DA, 0xE16C7D9D, 0xCBFBBBD4, 0xBF21CAFE, 0xFB59C23E]) := by
  decide +kernel

/-! ### Generator and builder (95 sections 5.1, 5.2) -/

theorem test_lcg_values :
    lcgStep 6429 = 0xBA46C7D8 ∧ lcgStep 0xBA46C7D8 = 0x69BF2957 ∧ lcgStep 0 = 0x3C6EF35F ∧
      lcgStep 0xFFFFFFFFFFFFFFFF = 0x3C558D52 ∧ lcgStep 0x10000191D = 0xBA46C7D8 := by decide

theorem test_lcgNew_step :
    after (exec .lcgNew (withArgs [(.seed, .lit (.int (2 ^ 64 - 1)))]))
        (fun t => (envGet 7 t.env, t.gens.map Gen.seed)) =
      some (some (.gen 2), [6429, 0, 0xFFFFFFFFFFFFFFFF]) := by decide

theorem test_lcgNext_step :
    after (exec .lcgNext (withArgs [(.gen, .name 0)])) (fun t => (envGet 7 t.env, t.gens.map Gen.seed)) =
      some (some (.int 0xBA46C7D8), [0xBA46C7D8, 0]) := by decide

/-- `b = 4`: one draw and fifteen zero words. -/
theorem test_build_four :
    after (exec .buildVector (withArgs [(.gen, .name 0), (.b, .lit (.int 4)), (.d, .lit (.int 3))]))
        (fun t => (envGet 7 t.env, (t.gens.map Gen.seed).head?)) =
      some (some (.vec ⟨ivTable, #v[0xBA46C7D8, 0, 0, 0, 0, 0, 0, 0, 0, 0, 0, 0, 0, 0, 0, 0], 0, 0, 4, 3⟩),
        some 0xBA46C7D8) := by decide +kernel

/-- `b = 3`: the error, and the generator unchanged. -/
theorem test_build_three :
    after (exec .buildVector (withArgs [(.gen, .name 0), (.b, .lit (.int 3)), (.d, .lit (.int 3))]))
        (fun t => (envGet 7 t.env, (t.gens.map Gen.seed).head?)) =
      some (some (.error (.invalidBlockLength 3)), some 6429) := by decide +kernel

/-! ### Serialization (95 section 5.3) -/

theorem test_toFixed_step :
    result (exec .toFixedBinary (withArgs [(.value, .lit (.int 0x6A09E667))])) =
      some (.chars "01101010000010011110011001100111".toList) := by decide +kernel
theorem test_toFixed_widths :
    toFixedBinary 255 8 = .ok (List.replicate 8 true) ∧ toFixedBinary 0 0 = .ok [] ∧
      toFixedBinary 256 8 = .error (.serializationRange 256 8) ∧ toFixedBinary 1 0 = .error (.serializationRange 1 0) ∧
      toFixedBinary 5 40 = .ok (List.replicate 37 false ++ [true, false, true]) := by decide +kernel
theorem test_fromBinary_step :
    result (exec .fromBinary (withArgs [(.bits, .lit (.chars "0000000011111111111111111111111111111111".toList))])) =
      some (.int 0xFFFFFFFF) := by decide +kernel
theorem test_fromBinary_range :
    fromBinary [] = .ok 0 ∧ fromBinary [true, false, true] = .ok 5 ∧
      fromBinary (true :: List.replicate 32 false) = .error (.serializationRange 4294967296 32) := by decide +kernel

/-- 20 R79: keys h, m, b, d, t; `t` is low word first. -/
theorem test_serialize_record :
    result (exec .serializeVector { withArgs [(.vec, .name 4), (.form, .lit (.form .record))] with
        env := [(4, .vec ⟨Vector.replicate 8 1, Vector.replicate 16 0, 5, 10, 64, 3⟩)] }) =
      some (.record (Char.ofNat 123 ::
        "\"h\":[1,1,1,1,1,1,1,1],\"m\":[0,0,0,0,0,0,0,0,0,0,0,0,0,0,0,0],\"b\":64,\"d\":3,\"t\":[5,10]".toList
          ++ [Char.ofNat 125])) := by decide +kernel

/-- 20 R80: the bit form with `BD_SER_WIDTH` 8. -/
theorem test_serialize_bits :
    (bitForm .w8 selfCheck1).b = [false, true, false, false, false, false, false, false] ∧
      (bitForm .w32 selfCheck1).d.length = 32 ∧ (bitForm .w8 selfCheck1).h.length = 8 := by decide +kernel

/-! ### Oracle (95 P2) -/

/-- A circuit that flips the last word of the first self-check is reported at index 15 with both values. -/
theorem test_suite_step :
    result (exec .runSuite { withArgs [(.vectors, .names [4]), (.circuit, .lit (.circuit 0))] with
        inputs := ⟨[.answer ⟨1, .exited 0 (.words (ofWords (selfCheckOut1.set 15 0x34541A98))), [], []⟩], [], [], 0⟩ }) =
      some (.suite ⟨[(0, .failed (.outputMismatch selfCheck1 [15] [0x34541A99] [0x34541A98]))], false⟩) := by
  decide +kernel
theorem test_suite_empty :
    result (exec .runSuite (withArgs [(.vectors, .names []), (.circuit, .lit (.circuit 0))])) =
      some (.suite ⟨[], true⟩) := by decide +kernel
/-- The witness stage fails, so no proof stage runs though it was asked for (45 R270). -/
theorem test_single_step :
    result (exec .runSingle { withArgs [(.vec, .name 4), (.prove, .lit (.bool true))] with
        inputs := ⟨[.answer ⟨1, .exited 2 (.words []), [], []⟩], [44], [], 0⟩ }) =
      some (.single ⟨⟨some (.externalToolFailure selfCheck1 (.exited 2) [] []), 44⟩, none⟩) := by decide +kernel

/-! ### Window (95 section 9.2) -/

theorem test_window_from_reset :
    (windowRead 0 0x74 4 freshState).toOption.map Prod.fst = some 0 ∧
    (windowRead 0 0x80 4 freshState) = .error (.fault (.readNoValue (.win (.out 0)))) ∧
    (windowRead 0 0x00 4 freshState) = .error (.fault (.readNoValue (.win (.hIn 0)))) ∧
    [windowRead 0 0x70 4 freshState, windowRead 0 0x78 4 freshState, windowRead 0 0xC0 4 freshState,
        windowRead 0 0x02 4 freshState, windowRead 0 0x00 2 freshState] =
      [.error (.refused .cmdRead), .error (.refused (.windowAccess 0x78)),
        .error (.refused (.windowAccess 0xC0)), .error (.refused (.windowAccess 0x02)),
        .error (.refused (.windowAccess 0x00))] := by decide +kernel

theorem test_window_writes_from_reset :
    stopOf (windowWrite 0 0x74 4 0 freshState) = some (.inr (.windowAccess 0x74)) ∧
    stopOf (windowWrite 0 0x80 4 0 freshState) = some (.inr (.windowAccess 0x80)) ∧
    stopOf (windowWrite 0 0x70 4 0x02000000 freshState) = some (.inr .notACommand) ∧
    stopOf (windowWrite 0 0x70 4 0x01000000 freshState) = some (.inl (.readNoValue (.win (.hIn 0)))) ∧
    after (windowWrite 0 0x68 4 0x12345640 freshState) (fun t => (readReg t.engine .bIn).toOption) =
      some (some 0x00000040) := by decide +kernel

/-- A word placed after reset is what the next step runs. -/
theorem test_fetch_word :
    completes (step (State.reset.withFetchWord 32 0x10000000)) = true ∧
      completes (step (State.reset.withFetchWord 32 0x04000000)) = true ∧
      stopOf (step (State.reset.withFetchWord 32 0x07000000)) = some (.inr .reservedOp) := by decide +kernel

/-- 60 R300, 92 D22: the codes in the order of the table. -/
theorem test_error_codes :
    ([.invalidBlockLength 3, .serializationRange 256 8, .outputMismatch selfCheck1 [] [] [],
      .externalToolFailure selfCheck1 .malformed [] [], .externalTimeout selfCheck1 2] : List ErrorKind).map errorCode =
      [1, 2, 3, 4, 5] := by decide

/-- 45 R274, 92 D25: the randomized property schedules 100 builds and one suite; its sets are those of D25. -/
theorem test_randomized :
    after (runEvent (.randomized 0 0 0 10 none) (idleState .transaction)) (fun t => t.agenda.length) = some 101 ∧
      randB.toList.all (fun b => blockLenOk b) = true ∧ randB.toList.Nodup ∧ randD.toList = [0, 1, 2, 3] := by
  decide +kernel

/-! ### Witnesses: for each statement with hypotheses, a concrete state and operands that meet them together -/

theorem test_idle_written (view : View) : requestWritten (idleState view).engine := by
  cases view <;> unfold requestWritten <;> decide +kernel

theorem test_fresh_unwritten : ¬ requestWritten freshState.engine := by
  unfold requestWritten
  decide

theorem test_witness_EncodeThenDecode : (Instr.g 3 4 9 14 14 15).wf = true ∧ Instr.chainCv.wf = true := by decide

theorem test_witness_DecodedWords :
    encode (.g 3 4 9 14 14 15) = 0x03349EEF#32 ∧ decode 0x03349EEF#32 = .ok (.g 3 4 9 14 14 15) ∧
      decode 0x18000000#32 = .ok .chainCv := by decide

/-- Each reason for a refusal, at the ends of its range. -/
theorem test_witness_Undecodable :
    ([0x00FFFFFF, 0x07000000, 0x0FFFFFFF, 0x19000000, 0xFF000000] : List Word).all
      (fun w => decode w == .error .reservedOp) = true ∧
    ([0x01000001, 0x02800000, 0x04000001, 0x06FFFFFF, 0x10000001, 0x18800000] : List Word).all
      (fun w => decode w == .error .nonZeroOperandField) = true ∧
    ([0x03000000, 0x03FFFFFF, 0x033449EF] : List Word).all (fun w => decode w == .error .illegalGFields) = true := by
  decide +kernel

/-- The four outcomes of an issued word: next, held, fault, refused; and a line that names an instance. -/
theorem test_witness_StepRuns :
    (let s := wordState .host none 0x01000000 (idleState .transaction)
     s.hold = none ∧ mayIssue .host Instr.compress.opClass = true ∧
       after (exec .compress { s with agenda := [] }) (fun t => t.hold) = some none) ∧
    after (exec .compress (runningState 1)) (fun t => t.hold.isSome) = some true ∧
    (stopOf (exec .init freshState)).isSome = true ∧
    stopOf (exec .lcgNew (idleState .transaction)) = some (.inr .operandType) ∧
    (let s := wordState .sequencer none 0x04000000 (runningState 1)
     0x04000000#32 ∈ sequencerWords s.engine ∧ after (step s) (fun t => t.engine.seq) = some (.at 2)) ∧
    claimWindow 0 (idleState .transaction).engine ≠ none ∧
    claimWindow 0 { Engine.reset 2 with owner := some 4, past := [0] } = none ∧
    completes (step (wordState .sequencer (some 5) 0x03048C01
      { idleState .transaction with others := [engineAt (.at 13) (Engine.reset 5)] })) = true := by decide +kernel

/-- Inside the last ROUND, before call `k`. -/
def midRoundState (k : Fin 8) : State :=
  let s := runningState 13
  setEngine { s.engine with seq := .midRound 13 k } s

theorem test_witness_StepRefuses :
    decode 0x00000000#32 = .error .reservedOp ∧
    (decode 0x02000000#32 = .ok .init ∧ Instr.init.opClass = .microOp) ∧
    (decode 0x01000000#32 = .ok .compress ∧ Instr.compress.opClass ≠ .microOp) ∧
    (wordState .host none 0x02000000 freshState).hold = none ∧ freshState.engine.seq = .idle ∧
    (stopOf (step (wordState .sequencer none 0x05000000 (runningState 1))) = some (.inr .outOfSequence) ∧
      stopOf (step (wordState .sequencer none 0x05000000 (runningState 14))) = some (.inr .outOfSequence)) ∧
    stopOf (step (wordState .sequencer none 0x03159D23 (runningState 1))) = some (.inr .outOfSequence) ∧
    stopOf (step (wordState .sequencer none 0x02000000 (runningState 13))) = some (.inr .outOfSequence) ∧
    ([0, 15] : List Nibble).all (fun n =>
      stopOf (step (wordState .sequencer none 0x04000000 (runningState n))) == some (.inr .outOfSequence)) = true := by
  decide +kernel

/-- Inside a ROUND: the call before, the call after and the whole ROUND are refused, the next call is not. -/
theorem test_witness_StepRefuses_midRound :
    ([0x03048C01, 0x0326AE45, 0x04000000] : List Word).all (fun w =>
      stopOf (step (wordState .sequencer none w (midRoundState 1))) == some (.inr .outOfSequence)) = true ∧
    completes (step (wordState .sequencer none 0x03159D23 (midRoundState 1))) = true ∧
    (midRoundState 7).engine.seq = .midRound 13 7 := by decide +kernel

/-- The same on the instance addressed under its name, on another, and on one that does not exist. -/
theorem test_witness_StepRefuses_named :
    let s := { idleState .sequenced with others := [Engine.reset 7, engineAt (.midRound 13 1) (Engine.reset 5)] }
    ((s.engine :: s.others).map Engine.page).Nodup ∧
    s.others = [Engine.reset 7] ++ engineAt (.midRound 13 1) (Engine.reset 5) :: [] ∧
    ([2, 5, 7] : List Nat).all (fun p =>
      stopOf (step (wordState .sequencer (some p) 0x03048C01 s)) == some (.inr .outOfSequence)) = true ∧
    (∀ e ∈ s.engine :: s.others, e.page ≠ 9) ∧
    stopOf (step (wordState .sequencer (some 9) 0x03048C01 s)) = some (.inr .impossibleEvent) := by decide +kernel

/-- The engine's turn while idle, at positions 1, 2, 12, 13 and 14, and inside a ROUND. -/
theorem test_witness_EngineTurn :
    (idleState .sequenced).engine.seq = .idle ∧
    ([1, 13] : List Nibble).all (fun n => n.toNat ≤ 13 && n.toNat % 2 == 1 && (runningState n).engine.latched) = true ∧
    ([2, 12] : List Nibble).all (fun n => n.toNat ≤ 13 && n.toNat % 2 == 0 && (runningState n).engine.latched) = true ∧
    (runningState 14).engine.seq = .at 14 ∧
    ([1, 7] : List (Fin 8)).all (fun k => (midRoundState k).engine.seq == .midRound 13 k && (midRoundState k).engine.latched)
      = true ∧
    ({ runningState 14 with agenda := [.engine 2] }).agenda = .engine (runningState 14).engine.page :: [] := by decide

theorem test_witness_InitLatches : requestWritten (idleState .transaction).engine := test_idle_written _

theorem test_witness_UnwrittenRequest :
    ¬ requestWritten freshState.engine ∧ freshState.line.args = [] ∧ freshState.engine.tablesReady = true ∧
      compressArgs { freshState with engine := { freshState.engine with tablesReady := false } } ≠ none :=
  ⟨test_fresh_unwritten, by decide, by decide, by decide⟩

theorem test_witness_G :
    legalG.contains ⟨3, 4, 9, 14, 14, 15⟩ = true ∧ (runningState 1).engine.latched = true ∧
      (5 : Nibble) ≠ 3 ∧ (5 : Nibble) ≠ 4 ∧ (5 : Nibble) ≠ 9 ∧ (5 : Nibble) ≠ 14 := by decide

theorem test_witness_GOutside :
    (Instr.g 0 0 0 0 0 0).wf = false ∧ (Instr.g 3 4 4 9 14 15).wf = false ∧ (Instr.g 15 15 15 15 15 15).wf = false := by
  decide

/-- A latched engine, as ROUND, PERMUTE, FINALIZE, the schedule and the groups of calls need. -/
theorem test_witness_latched : (runningState 1).engine.latched = true ∧ (0 : Fin 4) ≠ 3 := by decide

theorem test_witness_not_latched : freshState.engine.latched = false ∧ legalG.contains ⟨0, 4, 8, 12, 0, 1⟩ = true := by
  decide

theorem test_witness_CompressInOneStep :
    (let s := withArgs [(.vec, .name 4)]
     s.engine.tablesReady = true ∧ s.engine.status.busy = false ∧ s.params.view = .transaction ∧
       compressArgs s = some (.request selfCheck1)) ∧
    ((idleState .transaction).engine.tablesReady = true ∧ (idleState .transaction).engine.status.busy = false ∧
      (idleState .transaction).line.args = [] ∧ (idleState .transaction).params.view = .transaction ∧
      requestWritten (idleState .transaction).engine ∧ selfCheck2 = requestOf (idleState .transaction).engine) :=
  ⟨by decide +kernel, by decide, by decide, by decide, by decide, test_idle_written _, by decide +kernel⟩

/-- Also the hypotheses of the whole sequenced run. -/
theorem test_witness_CompressCommand :
    (idleState .sequenced).engine.tablesReady = true ∧ (idleState .sequenced).engine.status.busy = false ∧
      (idleState .sequenced).line.args = [] ∧ (idleState .sequenced).params.view = .sequenced ∧
      requestWritten (idleState .sequenced).engine ∧ (idleState .sequenced).agenda = [] ∧
      (idleState .sequenced).hold = none ∧
      compressArgs { idleState .sequenced with line := ⟨.host, 0, none, [(.vec, .name 4)], some 7⟩ } =
        some (.request selfCheck1) :=
  ⟨by decide, by decide, by decide, by decide, test_idle_written _, by decide, by decide, by decide +kernel⟩

theorem test_witness_CompressBusy :
    ((runningState 3).engine.tablesReady = true ∧ (runningState 3).engine.status.busy = true ∧
      (runningState 3).line.args = [] ∧ requestWritten (runningState 3).engine) ∧
    (let s := { runningState 3 with
        params := ⟨9, 1, .w8, .transaction⟩, line := ⟨.host, 0, none, [(.vec, .name 4)], none⟩ }
     s.params.view = .transaction ∧ compressArgs s = some (.request selfCheck1)) :=
  ⟨⟨by decide, by decide, by decide, test_idle_written .sequenced⟩, by decide +kernel⟩

/-- A hold at positions 1, 2, 13 and 14 and inside a ROUND, and one on an instance that is not the one addressed. -/
theorem test_witness_Held :
    ([.at 1, .at 2, .at 13, .at 14, .midRound 13 1, .midRound 13 7] : List Seq).all (fun q =>
      let s := { setEngine { (runningState 1).engine with seq := q } (runningState 1) with hold := some (.cmdWhileBusy 2) }
      s.hold == some (.cmdWhileBusy s.engine.page) && s.engine.status.busy && s.engine.latched && completes (step s)) = true ∧
    (let s := { idleState .sequenced with
        others := [Engine.reset 7, engineAt (.at 13) (Engine.reset 5)], hold := some (.cmdWhileBusy 5) }
     ((s.engine :: s.others).map Engine.page).Nodup ∧
       completes (step { s with engine := engineAt (.at 13) (Engine.reset 5), others := [Engine.reset 7, s.engine] }) = true) := by
  decide +kernel

theorem test_witness_RequestWrites :
    ([1, 2, 13, 14] : List Nibble).all (fun n => completes (engineStep (runningState n)) && (runningState n).engine.seq != .at 0) = true := by
  decide +kernel

theorem test_witness_ChainCv :
    chainArgs (withArgs [(.out, .lit (.words (ofWords selfCheckOut1)))]) = some selfCheckOut1 := by decide +kernel

theorem test_witness_LcgNew :
    lcgNewArgs (withArgs [(.seed, .lit (.int (2 ^ 64 - 1)))]) = some 0xFFFFFFFFFFFFFFFF := by decide

theorem test_witness_LcgNext :
    lcgNextArgs (withArgs [(.gen, .name 0)]) = some 0 ∧ (withArgs []).gens[0]? = some ⟨6429, none⟩ := by decide

theorem test_witness_SeedsEqual : (0x10000191D : BitVec 64).toNat % 2 ^ 32 = (6429 : BitVec 64).toNat % 2 ^ 32 := by
  decide

theorem test_witness_OverlappingDraws :
    (withArgs []).gens[1]? = some ⟨0, some 1⟩ ∧ lcgNextArgs (withArgs [(.gen, .name 1)]) = some 1 ∧
      (buildArgs (withArgs [(.gen, .name 1), (.d, .lit (.int 0))])).map (fun a => (a.gen, blockLenOk a.blockLen)) =
        some (1, true) := by decide +kernel

/-- Widths at which the value just fits, just does not, and above 32. -/
theorem test_witness_ToFixed :
    toFixedArgs (withArgs [(.value, .lit (.int 255)), (.width, .lit (.int 8))]) = some ⟨255, 8⟩ ∧
      toFixedArgs (withArgs [(.value, .lit (.int 256)), (.width, .lit (.int 8))]) = some ⟨256, 8⟩ ∧
      toFixedArgs (withArgs [(.value, .lit (.int 0)), (.width, .lit (.int 33))]) = some ⟨0, 33⟩ := by decide

theorem test_witness_FromBinary :
    fromBinaryArgs (withArgs [(.bits, .lit (.chars (List.replicate 32 '1')))]) = some (List.replicate 32 true) ∧
      bitsValue (List.replicate 32 true) = 2 ^ 32 - 1 ∧ bitsValue (true :: List.replicate 32 false) = 2 ^ 32 := by
  decide +kernel

theorem test_witness_BinaryRoundTrip :
    (toFixedBinary 0x80000000 32).isOk = true ∧ (toFixedBinary 7 3).isOk = true ∧ (toFixedBinary 8 3).isOk = false ∧
      (toFixedBinary 0 0).isOk = true := by decide +kernel

theorem test_witness_Serialize :
    (serializeArgs (withArgs [(.vec, .name 4), (.form, .lit (.form .record))])).map SerializeArgs.form =
        some .record ∧
      (serializeArgs (withArgs [(.vec, .name 4), (.form, .lit (.form .bits))])).map SerializeArgs.form =
        some .bits := by decide +kernel

/-- Block lengths 4 and 64 are legal; 0, 65, 66, 255 are not. -/
theorem test_witness_Build :
    ([4, 64] : List Nat).all (fun n =>
      (buildArgs (withArgs [(.gen, .name 0), (.b, .lit (.int n)), (.d, .lit (.int 255))])).any (fun a =>
        decide (0 < a.blockLen.toNat ∧ a.blockLen.toNat ≤ 64 ∧ a.blockLen.toNat % 4 = 0 ∧ a.gen = 0))) = true ∧
    ([0, 2, 65, 68, 255] : List Nat).all (fun n =>
      (buildArgs (withArgs [(.gen, .name 0), (.b, .lit (.int n)), (.d, .lit (.int 255))])).any (fun a =>
        decide (a.blockLen.toNat = 0 ∨ 64 < a.blockLen.toNat ∨ a.blockLen.toNat % 4 ≠ 0))) = true := by decide +kernel

theorem test_witness_OperandDefaults :
    (0 < (withArgs []).gens.length ∧ envGet 0 (withArgs []).env = some (.gen 0) ∧
      (withArgs [(.gen, .name 0), (.d, .lit (.int 255))]).line.args =
        [(.gen, .name 0), (.d, .lit (.int (255 : Byte).toNat))]) ∧
    findArg .d (withArgs [(.gen, .name 0)]).line.args = none ∧
    (withArgs [(.value, .lit (.int (2 ^ 32 - 1)))]).line.args = [(.value, .lit (.int (2 ^ 32 - 1)))] ∧
    (withArgs [(.vec, .name 4)]).line.args = [(.vec, .name 4)] ∧
      envGet 4 (withArgs []).env = some (.vec selfCheck1) := by decide +kernel

/-- Whether an operation with these operands is refused for one of them. -/
def refusesOperands (i : Instr) (args : List (Key × Arg)) : Bool :=
  stopOf (exec i (withArgs args)) == some (.inr .operandType)

/-- Operands at the first value outside their type, of a wrong kind, and bound names of a wrong kind. -/
theorem test_witness_OperandsOutside :
    refusesOperands .lcgNew [(.seed, .lit (.int (2 ^ 64)))] = true ∧
    ([.lit (.int (2 ^ 32)), .name 3] : List Arg).all (fun x =>
      refusesOperands .toFixedBinary [(.value, .lit (.int 0)), (.width, x)] == (x != .name 3)) = true ∧
    ([(.b, .lit (.int 256)), (.d, .lit (.int 256)), (.t0, .lit (.int (2 ^ 32))), (.t1, .lit (.int (2 ^ 32))),
        (.h, .lit (.words (List.replicate 7 0))), (.h, .lit (.words (List.replicate 7 0 ++ [2 ^ 32]))), (.h, .name 3),
        (.gen, .name 2)] : List (Key × Arg)).all (fun x =>
      refusesOperands .buildVector [x, (.gen, .name 0), (.d, .lit (.int 3))]) = true ∧
    ([(.b, .lit (.int 256)), (.d, .lit (.int 256)), (.t0, .lit (.int (2 ^ 32))), (.t1, .lit (.int (2 ^ 32))),
        (.h, .lit (.words (List.replicate 7 0))), (.m, .lit (.words (List.replicate 17 0))), (.m, .name 3),
        (.vec, .name 3)] : List (Key × Arg)).all (fun x => refusesOperands .compress [x]) = true ∧
    ([List.replicate 15 0, List.replicate 15 0 ++ [2 ^ 32]] : List (List Nat)).all (fun ws =>
      refusesOperands .chainCv [(.out, .lit (.words ws))]) = true ∧
    ([.lit (.chars ['1', '2']), .lit (.int 0)] : List Arg).all (fun x => refusesOperands .fromBinary [(.bits, x)]) = true ∧
    refusesOperands .lcgNext [(.gen, .name 2)] = true := by decide +kernel

theorem test_witness_OperandsOutside_kinds :
    ([.serializeVector, .runSingle] : List Instr).all (fun i =>
      refusesOperands i [(.vec, .name 3)] && refusesOperands i [(.vec, .name 9)]) = true ∧
    ([[(.vectors, .name 4), (.circuit, .lit (.circuit 0))], [(.vectors, .names [4, 3]), (.circuit, .lit (.circuit 0))],
        [(.vectors, .names []), (.circuit, .name 3)]] : List (List (Key × Arg))).all (refusesOperands .runSuite) = true ∧
    refusesOperands .serializeVector [(.vec, .name 4), (.form, .name 3)] = true ∧
    refusesOperands .runSingle [(.vec, .name 4), (.prove, .name 3)] = true := by decide +kernel

/-- Records without a required operand. -/
theorem test_witness_OperandsOutside_missing :
    ([.lcgNew, .lcgNext, .toFixedBinary, .fromBinary, .buildVector, .serializeVector, .runSuite, .runSingle, .chainCv] :
      List Instr).all (fun i => refusesOperands i []) = true ∧
    refusesOperands .buildVector [(.gen, .name 0)] = true ∧ refusesOperands .buildVector [(.d, .lit (.int 3))] = true ∧
    refusesOperands .serializeVector [(.vec, .name 4)] = true ∧
    refusesOperands .runSuite [(.vectors, .names [])] = true ∧
    refusesOperands .compress [(.h, .lit (.words (List.replicate 8 0)))] = true := by decide +kernel

/-- A suite of no vector, and one of two vectors. -/
theorem test_witness_RunSuite :
    (suiteArgs (withArgs [(.vectors, .names []), (.circuit, .lit (.circuit 0))])).isSome = true ∧
      (suiteArgs (withArgs [(.vectors, .names [4, 5]), (.circuit, .lit (.circuit 9))])).map
        SuiteArgs.vectors = some [selfCheck1, selfCheck2] ∧ (withArgs []).engine.tablesReady = true ∧
      (let s := withArgs [(.vectors, .names [4]), (.circuit, .lit (.circuit 9))]
       stopOf (exec .runSuite (setEngine { s.engine with tablesReady := false } s)) = some (.inr .tablesNotLoaded)) := by
  decide +kernel

/-- One vector, and the answer of a circuit equal to `compress` that takes all of the timeout of 10. -/
theorem test_witness_SuiteOfACorrectCircuit :
    let s := { withArgs [(.vectors, .names [4]), (.circuit, .lit (.circuit 0))] with
      inputs := ⟨[.answer ⟨10, .exited 0 (.words (ofWords selfCheckOut1)), [], []⟩], [], [], 0⟩ }
    suiteArgs s = some ⟨[selfCheck1], 0⟩ ∧ s.engine.tablesReady = true ∧ externalTimeout s.params = 10 ∧
      s.inputs.answers =
        [⟨10, .exited 0 (.words ((compress selfCheck1).toList.map BitVec.toNat)), [], []⟩].map .answer ++ [] := by decide +kernel

/-- An answer of 16 words that agrees, one that differs, one too short, one with a word of 33 bits. -/
theorem test_witness_Verdict :
    ((ofWords selfCheckOut1).length = 16 ∧ ∀ w ∈ ofWords selfCheckOut1, w < 2 ^ 32) ∧
    ofWords selfCheckOut1 = (compress selfCheck1).toList.map BitVec.toNat ∧
    ofWords selfCheckOut2 ≠ (compress selfCheck1).toList.map BitVec.toNat ∧
    (List.replicate 15 0).length ≠ 16 ∧ (2 ^ 32 : Nat) ∈ List.replicate 15 0 ++ [2 ^ 32] ∧
    ([[true, false], []] : List BitString).map fromBinary = ([2, 0] : List Word).map Except.ok ∧
    ('2' ≠ '0' ∧ '2' ≠ '1') ∧ 2 ^ 32 ≤ bitsValue (true :: List.replicate 32 false) := by decide +kernel

/-- Attempts one tick over and exactly at the timeout of 10. -/
theorem test_witness_Timeout :
    let p : Params := ⟨9, 0, .w8, .transaction⟩
    classify (externalTimeout p) ⟨11, .exited 0 (.words []), [], []⟩ = .timeout ∧
      classify (externalTimeout p) ⟨10, .raised [], [], []⟩ = .toolFailure (.raised []) [] [] ∧
      classify (externalTimeout p) ⟨10, .exited 1 (.words []), [], []⟩ = .toolFailure (.exited 1) [] [] ∧
      classify (externalTimeout p) ⟨10, .exited 0 (.words []), [], []⟩ = .value (.words []) [] [] := by decide

/-- A suite under way with two live processes, and two RUN_SINGLEs: worker 4's in its witness stage, worker 5's in its proof
stage. -/
def suiteState : State :=
  { freshState with
    suite := some ⟨0, [⟨selfCheck1, 0, true, none⟩, ⟨selfCheck2, 1, true, none⟩], some 7⟩
    singles := [⟨4, some 7, selfCheck1, true, none, 0⟩, ⟨5, some 8, selfCheck2, true, some ⟨none, 3⟩, 1⟩] }

/-- That state with these arrivals, clocks 30 and 31. -/
def arriving (answers : List Arrival) : State := { suiteState with inputs := ⟨answers, [30, 31], [], 0⟩ }

/-- A process that ends well in one unit of time. -/
def endsWell : Arrival := .answer ⟨1, .exited 0 (.words []), [], []⟩

/-- 45 R267, R270: a witness stage that ends well starts the proof stage; the first timeout (11 over 10) starts a fresh process,
the second ends the stage; a proof stage that ends returns the report. -/
theorem test_single_stages :
    after (singleAnswer 4 (arriving [endsWell])) (fun t => (t.singles.head?.bind SingleRun.witness, envGet 7 t.env)) =
      some (some ⟨none, 30⟩, none) ∧
    after (singleAnswer 4 (arriving [.answer ⟨11, .raised [], [], []⟩])) (fun t => t.singles.map SingleRun.retries) =
      some [1, 1] ∧
    after (singleAnswer 5 (arriving [.answer ⟨11, .raised [], [], []⟩])) (fun t => (t.singles.map SingleRun.worker, envGet 8 t.env)) =
      some ([4], some (.single ⟨⟨none, 3⟩, some ⟨some (.externalTimeout selfCheck2 2), 30⟩⟩)) := by decide +kernel

/-- 45 R271, 70 R356: a suite abort kills the processes of the suite and of both RUN_SINGLEs, between steps, at one of them,
and during a RUN_SUITE or a RUN_SINGLE word, which then returns nothing. -/
theorem test_abort_kills_all :
    let dead : State → Bool := fun t => t.suite.isNone && t.singles.isEmpty && (envGet 7 t.env).isNone
    after (runEvent .suiteAbort suiteState) dead = some true ∧
    after (runEvent (.suiteAnswer 0) (arriving [.abort])) dead = some true ∧
    after (runEvent (.singleAnswer 5) (arriving [.abort])) dead = some true ∧
    after (exec .runSuite { arriving [endsWell, .abort] with
      line := ⟨.host, 0, none, [(.vectors, .names [4, 5]), (.circuit, .lit (.circuit 0))], some 7⟩ }) dead = some true ∧
    after (exec .runSingle { arriving [endsWell, .abort] with
      line := ⟨.host, 0, none, [(.vec, .name 4), (.prove, .lit (.bool true))], some 7⟩ }) dead = some true := by
  decide +kernel

/-- Two vectors evaluated at once: the second one's process times out and is started afresh, the first ends between. The
SuiteResult is that of the one step, which takes the first vector's answer first. -/
theorem test_witness_SuiteInterleaved :
    let slow : Arrival := .answer ⟨11, .exited 0 (.words []), [], []⟩
    let good1 : Arrival := .answer ⟨1, .exited 0 (.words (ofWords selfCheckOut1)), [], []⟩
    let bad : Arrival := .answer ⟨1, .exited 3 (.words []), [], []⟩
    let s : List Arrival → State := fun tape =>
      { withArgs [(.vectors, .names [4, 5]), (.circuit, .lit (.circuit 0))] with inputs := ⟨tape, [], [], 0⟩ }
    let evs : List Event :=
      [.suiteLaunch 0, .suiteLaunch 1, .suiteAnswer 1, .suiteLaunch 1, .suiteAnswer 0, .suiteAnswer 1]
    let o := runEvents (.suiteOpen (s []).line :: (evs ++ [.suiteClose])) (s [slow, good1, bad])
    answersOf evs [slow, good1, bad] 0 = [good1] ∧ answersOf evs [slow, good1, bad] 1 = [slow, bad] ∧
    after o (fun t => t.inputs) = some (s []).inputs ∧ result o = result (exec .runSuite (s [good1, slow, bad])) ∧
      result o =
        some (.suite ⟨[(0, .pass), (1, .failed (.externalToolFailure selfCheck2 (.exited 3) [] []))], false⟩) := by
  decide +kernel

theorem test_witness_SuiteAnswers :
    (0 : Nat) ≠ 1 ∧ suiteState.suite.isSome = true ∧
      (suiteState.suite.map fun u => u.slots.map SuiteSlot.running) = some [true, true] ∧
      suiteState.singles.map SingleRun.worker = [4, 5] := by decide

theorem test_witness_RunSingle :
    let s := withArgs [(.vec, .name 4), (.prove, .lit (.bool true))]
    (singleArgs (withArgs [(.vec, .name 4)])).map SingleArgs.prove = some false ∧
      (singleArgs s).map SingleArgs.prove = some true ∧ .abort ∉ s.inputs.answers ∧ s.singles = [] ∧
      (∀ x ∈ suiteState.singles, x.worker ≠ s.line.worker) ∧
      (callExternal s.params (.witness []) (arriving [.abort]).inputs).1 = none ∧
      (callExternal s.params (.witness []) (arriving [endsWell]).inputs).1 = some (.value (.words []) [] []) ∧
      (callExternal s.params (.witness []) (arriving [.answer ⟨1, .raised [], [], []⟩]).inputs).1 =
        some (.toolFailure (.raised []) [] []) := by decide +kernel

/-- The first and last request registers, the window free and owned, of the instance addressed and of another. -/
theorem test_witness_WindowReadsBack :
    (0x00 % 4 = 0 ∧ 0x00 < 0x70) ∧ (0x6C % 4 = 0 ∧ 0x6C < 0x70) ∧ freshState.engine.owner = none ∧
      (setEngine { freshState.engine with owner := some 3 } freshState).engine.owner = some 3 ∧
      ((freshState.engine :: freshState.others).map Engine.page).Nodup ∧
      freshState.others = [] ++ Engine.reset 5 :: [] ∧ (Engine.reset 5).owner = none := by decide

/-- Both ends of every range of refused offsets, and the offsets beside them that are not refused. -/
theorem test_witness_WindowRefuses :
    ([0x70, 0x78, 0x7C, 0xC0, 0xFC, 0x6D] : List Nat).all (fun o => (readTarget o 4).isOk = false) = true ∧
    ([0x6C, 0x74, 0x80, 0xBC] : List Nat).all (fun o => (readTarget o 4).isOk) = true ∧
    ([0x74, 0x78, 0x7C, 0x80, 0xBC, 0xC0, 0xFC, 0x71] : List Nat).all (fun o => (writeTarget o 4).isOk = false) = true ∧
    ([0x00, 0x6C, 0x70] : List Nat).all (fun o => (writeTarget o 4).isOk) = true ∧
    (readTarget 0x00 8).isOk = false ∧ (writeTarget 0x00 1).isOk = false ∧
    freshState.engine :: freshState.others = [Engine.reset 2, Engine.reset 5] ∧
    ([2, 5] : List Nat).all (fun p =>
      stopOf (runEvent (.read 0 (256 * p + 0x70) 4 none) freshState) == some (.inr .cmdRead) &&
      stopOf (runEvent (.read 0 (256 * p + 0x70) 2 none) freshState) == some (.inr (.windowAccess 0x70))) = true := by
  decide +kernel

theorem test_witness_WindowReads :
    freshState.engine.status.outValid = false ∧ freshState.engine.mIn[15].written = false ∧
      freshState.engine.owner = none ∧
      ([(0x00, .hIn 0), (0x1C, .hIn 7), (0x20, .mIn 0), (0x5C, .mIn 15), (0x60, .t0In), (0x64, .t1In), (0x68, .bIn),
        (0x6C, .dIn)] : List (Nat × WinReg)).all (fun x =>
          windowReg x.1 = some x.2 && (requestMarks freshState.engine).contains (x.2, false)) = true ∧
      after (exec .finalize (runningState 14)) (fun t => t.engine.status.outValid) = some true := by decide +kernel

/-- The same at the window of another instance: one that holds nothing, and one whose output is valid. -/
theorem test_witness_WindowReads_other :
    let e : Engine := { Engine.reset 7 with status := ⟨false, true⟩ }
    let s : State := { freshState with others := [Engine.reset 5, e] }
    ((s.engine :: s.others).map Engine.page).Nodup ∧ s.others = [] ++ Engine.reset 5 :: [e] ∧
      s.others = [Engine.reset 5] ++ e :: [] ∧ (Engine.reset 5).owner = none ∧ e.owner = none ∧
      (WinReg.dIn, false) ∈ requestMarks (Engine.reset 5) ∧
      stopOf (runEvent (.read 0 0x580 4 (some 7)) s) = some (.inl (.readNoValue (.win (.out 0)))) ∧
      result (runEvent (.read 0 0x774 4 (some 7)) s) = some (.int 2) := by decide +kernel

/-- The first and the last of the reads that end a host sequence, with the output valid and not. -/
theorem test_witness_ReadOut :
    let s := setEngine { (Engine.reset 2) with out := selfCheckOut1, status := ⟨false, true⟩ } freshState
    let w := (ofWords selfCheckOut1).take 15
    w.length = (15 : Fin 16).val ∧ s.engine.status.outValid = true ∧
    after (runEvent (.readOut 0 2 [] (some 7)) s) State.agenda = some [.readOut 0 2 [0xB559333C] (some 7)] ∧
    result (runEvent (.readOut 0 2 w (some 7)) s) = some (.words (ofWords selfCheckOut1)) ∧
    stopOf (runEvent (.readOut 0 2 w (some 7)) freshState) = some (.inl (.readNoValue (.win (.out 15)))) ∧
    stopOf (runEvent (.readOut 0 5 [] none) freshState) = some (.inl (.readNoValue (.win (.out 0)))) := by decide +kernel

/-- An instance owned by worker 4, worker 3 before it. -/
def ownedState : State := setEngine { freshState.engine with owner := some 4, past := [3] } freshState

theorem test_witness_Ownership :
    ownedState.engine.owner = some 4 ∧ (4 : Nat) ≠ 3 ∧ 3 ∈ ownedState.engine.past ∧ 5 ∉ ownedState.engine.past ∧
      ownedState.engine.status.outValid = false ∧
      ({ ownedState.engine with status := ⟨false, true⟩ } : Engine).status.outValid = true := by decide

/-- Worker 3's accesses are refused; worker 5 may take the window, and worker 4 is refused from then on. -/
theorem test_witness_Interleaved :
    ([.read 3 0x274 4 none, .write 3 0x200 4 0, .write 3 0x270 4 0, .poll 3 0x274, .readOut 3 2 [] none] : List Event).all
      (fun ev => stopOf (runEvent ev ownedState) == some (.inr .interleavedWindowAccess)) = true ∧
    after (runEvent (.write 5 0x26C 4 1) ownedState) (fun t => stopOf (runEvent (.write 4 0x200 4 0) t)) =
      some (some (.inr .interleavedWindowAccess)) := by decide +kernel

/-- CMD writes by a worker that finds the window free, and by its owner. -/
theorem test_witness_CommandWrite :
    (0x02000000#32 : Word) ≠ 0x01000000#32 ∧ freshState.engine.owner = none ∧
      stopOf (runEvent (.write 0 0x270 4 0x02000000#32) freshState) = some (.inr .notACommand) ∧
      stopOf (runEvent (.write 4 0x270 4 0#32) ownedState) = some (.inr .notACommand) ∧
      after (runEvent (.write 0 0x270 4 0x01000000#32) (idleState .sequenced)) (fun t => t.engine.status.busy) =
        some true := by decide +kernel

/-- Resets of the instance addressed and of another, idle and busy. -/
theorem test_witness_Reset :
    (runningState 1).engine.status.busy = true ∧ (idleState .sequenced).engine.status.busy = false ∧
    (let s := { runningState 1 with others := [Engine.reset 7, engineAt (.at 13) (Engine.reset 5)] }
     ((s.engine :: s.others).map Engine.page).Nodup ∧ s.others = [] ++ Engine.reset 7 :: [engineAt (.at 13) (Engine.reset 5)] ∧
       s.others = [Engine.reset 7] ++ engineAt (.at 13) (Engine.reset 5) :: [] ∧ (Engine.reset 7).status.busy = false ∧
       (engineAt (.at 13) (Engine.reset 5)).status.busy = true) := by decide

/-- Tables as 10 R30 to R34 list them, and with one wrong entry of each, on the instance addressed and on another. -/
theorem test_witness_LoadTables :
    let ready : Nat → Tables → Option (List Bool) := fun p t =>
      after (runEvent (.loadTables p t) freshState) fun u => (u.engine :: u.others).map Engine.tablesReady
    ready 2 theTables = some [true, true] ∧ ready 5 theTables = some [true, true] ∧
    ([{ theTables with iv := [0] }, { theTables with perm := List.range 16 }, { theTables with rot := [16, 12, 7, 8] },
      { theTables with nRounds := 6 }, { theTables with gcall := [] }] : List Tables).all (fun t =>
        ready 2 t == some [false, true] && ready 5 t == some [true, false]) = true := by decide +kernel

/-- Legal states idle, running and done, each with a step. -/
theorem test_witness_Legal :
    enginesOk (idleState .sequenced) ∧ enginesOk (runningState 1) ∧ enginesOk (runningState 14) ∧
      completes (step (idleState .sequenced)) = true ∧ completes (step (runningState 14)) = true := by
  refine ⟨?_, ?_, ?_, by decide +kernel, by decide +kernel⟩ <;>
  · intro e he
    simp only [List.mem_cons, List.not_mem_nil, or_false, idleState, runningState, setEngine] at he
    rcases he with rfl | rfl <;> simp [engineOk, seqOk, Engine.reset, putRequest, commandEngine, latchRequest, Status.onCommand]

/-- The message of the first is 16 words for block length 64; a block of 4 with a second word, or of 3, is no built vector. -/
theorem test_built :
    isBuilt selfCheck1 ∧ isBuilt selfCheck2 ∧ isBuilt starterVector ∧ ¬ isBuilt { selfCheck2 with b := 4 } ∧
      ¬ isBuilt { selfCheck1 with b := 3 } := by
  unfold isBuilt
  decide +kernel

theorem test_witness_HostOk : hostOk suiteState ∧ completes (step suiteState) = true := by
  obtain ⟨h1, h2, -⟩ := test_built
  refine ⟨⟨by decide, fun n v h => ?_, fun u hu x hx => ?_, by decide, fun x hx => ?_⟩, by decide +kernel⟩
  · simp only [suiteState, freshState, setEngine, idleState, envGet] at h
    split_ifs at h <;> simp_all
  · cases hu
    simp only [List.mem_cons, List.not_mem_nil, or_false] at hx
    rcases hx with rfl | rfl
    · exact ⟨by decide, h1⟩
    · exact ⟨by decide, h2⟩
  · simp only [suiteState, List.mem_cons, List.not_mem_nil, or_false] at hx
    rcases hx with rfl | rfl
    · exact ⟨by decide, h1, nofun⟩
    · exact ⟨by decide, h2, by simp⟩

/-- A vector bound by a BUILD_VECTOR word, and one that stays bound. -/
theorem test_witness_OnlyBuildVector :
    let s := { idleState .transaction with
      agenda := [.word ⟨.host, 0, none, [(.gen, .name 0), (.b, .lit (.int 4)), (.d, .lit (.int 3))], some 7⟩ 0x14000000#32] }
    envGet 7 s.env = none ∧ envGet 4 s.env = some (.vec selfCheck1) ∧
      after (step s) (fun t => (envGet 4 t.env, (envGet 7 t.env).any fun v => (asVec v).isSome)) =
        some (some (.vec selfCheck1), true) := by decide +kernel

/-- A host operation and a micro-operation that complete, as the statements about every instruction need. -/
theorem test_witness_exec :
    completes (exec .lcgNew (withArgs [(.seed, .lit (.int 0))])) = true ∧ completes (exec .round (runningState 1)) = true ∧
      Instr.lcgNew.opClass = .host ∧ Instr.lcgNew ≠ .compress ∧ Instr.lcgNew ≠ .finalize := by decide +kernel

end Sys2Proof.Tests
end

section
/-! PROOFS. What every step keeps (10_state.md R45, R46, R49, R51, R52): legal engines and canonical host data. One relation,
`StepKeeps`, says both of a state and the next; each action of an agent is shown to stand in it once, and a step is one of
these actions. -/

namespace Sys2Proof.Machine

open Sys2Proof

/-! ### The parts of the host's data -/

/-- A slot of a suite has retried at most once and holds a built vector. -/
def slotOk (x : SuiteSlot) : Prop := x.retries ≤ 1 ∧ isBuilt x.vec

/-- Every slot of the suite under way, if there is one, is as `slotOk` says. -/
def suiteOk (o : Option Suite) : Prop := ∀ u, o = some u → ∀ x ∈ u.slots, slotOk x

/-- A worker has at most one RUN_SINGLE under way, and each is as `singleOk` says. -/
def singlesOk (xs : List SingleRun) : Prop := (xs.map SingleRun.worker).Nodup ∧ ∀ x ∈ xs, singleOk x

theorem hostOk_iff (s : State) :
    hostOk s ↔ envWf s.env = true ∧ (∀ n v, envGet n s.env = some (.vec v) → isBuilt v) ∧ suiteOk s.suite ∧
      singlesOk s.singles := Iff.rfl

theorem hostOk.suiteOk {s : State} (h : hostOk s) : suiteOk s.suite := by
  obtain ⟨-, -, hu, -⟩ := (hostOk_iff s).mp h
  exact hu

theorem hostOk.singlesOk {s : State} (h : hostOk s) : singlesOk s.singles := by
  obtain ⟨-, -, -, hx⟩ := (hostOk_iff s).mp h
  exact hx

theorem hostOk.isBuilt_of_bound {s : State} (h : hostOk s) {v : VecRec} (hv : ∃ n, envGet n s.env = some (.vec v)) :
    isBuilt v := by
  obtain ⟨-, hb, -⟩ := (hostOk_iff s).mp h
  obtain ⟨n, hn⟩ := hv
  exact hb n v hn

@[simp] theorem suiteOk_none : suiteOk none := nofun
@[simp] theorem suiteOk_some (u : Suite) : suiteOk (some u) ↔ ∀ x ∈ u.slots, slotOk x := by
  simp [suiteOk]
@[simp] theorem singlesOk_nil : singlesOk [] := ⟨List.nodup_nil, nofun⟩

/-- Replacing a slot by one that is as it must be keeps the suite so. -/
theorem suiteOk_setSlot {u : Suite} {j : Nat} {x : SuiteSlot} (hu : suiteOk (some u)) (hx : slotOk x) :
    suiteOk (some (setSlot j x u)) := by
  refine (suiteOk_some _).mpr fun y hy => ?_
  rcases List.mem_or_eq_of_mem_set hy with hy | rfl
  · exact hu u rfl y hy
  · exact hx

/-- The end of an attempt leaves a slot with one retry at most and the vector it had (45 R267). -/
theorem slotAfter_ok {x : SuiteSlot} (r : CallResult) (hx : slotOk x) : slotOk (slotAfter r x) := by
  unfold slotAfter
  split
  · exact ⟨le_rfl, hx.2⟩
  · exact hx

theorem findSingle_some {w : Nat} {xs : List SingleRun} {x : SingleRun} (h : findSingle w xs = some x) : x ∈ xs :=
  List.mem_of_find?_eq_some h

theorem findSingle_none {w : Nat} {xs : List SingleRun} (h : findSingle w xs = none) : w ∉ xs.map SingleRun.worker := by
  simpa [findSingle] using h

/-- Replacing the RUN_SINGLE of a worker leaves every worker its own. -/
@[simp] theorem setSingle_workers (x : SingleRun) (xs : List SingleRun) :
    (setSingle x xs).map SingleRun.worker = xs.map SingleRun.worker := by
  simp only [setSingle, List.map_map]
  refine List.map_congr_left fun y _ => ?_
  simp only [Function.comp]
  split
  · rename_i h; exact h.symm
  · rfl

theorem singlesOk_setSingle {x : SingleRun} {xs : List SingleRun} (h : singlesOk xs) (hx : singleOk x) :
    singlesOk (setSingle x xs) := by
  refine ⟨by simpa using h.1, fun y hy => ?_⟩
  obtain ⟨z, hz, rfl⟩ := List.mem_map.mp hy
  split
  · exact hx
  · exact h.2 z hz

theorem singlesOk_dropSingle {w : Nat} {xs : List SingleRun} (h : singlesOk xs) : singlesOk (dropSingle w xs) :=
  ⟨h.1.sublist (List.filter_sublist.map _), fun x hx => h.2 x (List.mem_of_mem_filter hx)⟩

theorem singlesOk_append {x : SingleRun} {xs : List SingleRun} (h : singlesOk xs) (hw : findSingle x.worker xs = none)
    (hx : singleOk x) : singlesOk (xs ++ [x]) := by
  refine ⟨?_, by simpa [or_imp, forall_and] using ⟨h.2, hx⟩⟩
  rw [List.map_append]
  exact h.1.append (List.nodup_singleton _) (by simpa using findSingle_none hw)

/-! ### What a step keeps of the host's data -/

/-- From `s` to `t` the host's data stays canonical, and a name bound to a vector was so before, or a BUILD_VECTOR was issued
(`b`) and the vector is a built one. -/
structure HostKeeps (b : Prop) (s t : State) : Prop where
  names : envWf s.env = true → envWf t.env = true
  vectors : ∀ n v, envGet n t.env = some (.vec v) → envGet n s.env = some (.vec v) ∨ (b ∧ isBuilt v)
  suite : hostOk s → suiteOk t.suite
  singles : hostOk s → singlesOk t.singles

namespace HostKeeps

variable {b c : Prop} {s t u : State}

theorem hostOk (h : HostKeeps b s t) (hs : hostOk s) : hostOk t :=
  (hostOk_iff t).mpr ⟨h.names hs.1,
    fun n v hv => (h.vectors n v hv).elim (fun hv => hs.isBuilt_of_bound ⟨n, hv⟩) And.right, h.suite hs, h.singles hs⟩

/-- Where the bound names stay as they are, only the external processes are to be looked at. -/
theorem of_env (he : t.env = s.env) (hu : Machine.hostOk s → suiteOk t.suite)
    (hx : Machine.hostOk s → singlesOk t.singles) : HostKeeps b s t :=
  ⟨fun h => he ▸ h, fun _ _ hv => .inl (he ▸ hv), hu, hx⟩

theorem of_same (he : t.env = s.env) (hu : t.suite = s.suite) (hx : t.singles = s.singles) : HostKeeps b s t :=
  of_env he (fun h => hu ▸ h.suiteOk) (fun h => hx ▸ h.singlesOk)

theorem refl (s : State) : HostKeeps b s s := of_same rfl rfl rfl

theorem trans (h : HostKeeps b s t) (h' : HostKeeps b t u) : HostKeeps b s u where
  names hs := h'.names (h.names hs)
  vectors n v hv := (h'.vectors n v hv).elim (h.vectors n v) .inr
  suite hs := h'.suite (h.hostOk hs)
  singles hs := h'.singles (h.hostOk hs)

theorem mono (h : HostKeeps b s t) (hbc : b → c) : HostKeeps c s t where
  names := h.names
  vectors n v hv := (h.vectors n v hv).imp id (And.imp hbc id)
  suite := h.suite
  singles := h.singles

/-- Binding a value that is no vector. -/
theorem bindTo {d : Option Nat} {v : Value} (h : HostKeeps b s t) (hv : ∀ x, v ≠ .vec x) :
    HostKeeps b s (bindTo d v t) where
  names hs := bindTo_wf d v t (h.names hs)
  vectors n x hx := h.vectors n x (envGet_bindTo_vec hv hx)
  suite hs := by simpa using h.suite hs
  singles hs := by simpa using h.singles hs

/-- A suite abort leaves no process. -/
theorem killed (x : Inputs) (s : State) : HostKeeps b s (killExternal { s with inputs := x }) :=
  of_env rfl (fun _ => by simp) (fun _ => by simp)

end HostKeeps

/-- An instruction keeps the host's data, and only BUILD_VECTOR creates a vector (10 R51). -/
theorem exec_hostKeeps {i : Instr} {s t : State} (h : exec i s = .next t) : HostKeeps (i = .buildVector) s t where
  names := exec_envWf h
  vectors _ _ hv := exec_vectors h hv
  suite hs := by
    rcases exec_external h with ⟨hu, -⟩ | ⟨-, x, rfl⟩
    · exact hu ▸ hs.suiteOk
    · simp
  singles hs := by
    rcases exec_external h with ⟨-, hx⟩ | ⟨-, x, rfl⟩
    · exact hx ▸ hs.singlesOk
    · simp

/-! ### What a step keeps -/

/-- From `s` to `t` every engine stays legal and the host's data canonical; `b`: a BUILD_VECTOR was issued. -/
structure StepKeeps (b : Prop) (s t : State) : Prop where
  legal : enginesOk s → enginesOk t
  host : HostKeeps b s t

theorem MovesHere.enginesOk {s t : State} (h : MovesHere s t) (hs : enginesOk s) : enginesOk t := by
  refine List.forall_mem_cons.mpr ⟨(h.2.2 (hs s.engine (by simp))).1, fun e he => hs e ?_⟩
  exact List.mem_cons_of_mem _ (h.1 ▸ he)

namespace StepKeeps

variable {b c : Prop} {s t u : State}

theorem of_moves (hm : MovesHere s t) (h : HostKeeps b s t) : StepKeeps b s t := ⟨hm.enginesOk, h⟩

/-- What touches no engine keeps the engines legal. -/
theorem of_host (he : t.engine = s.engine) (ho : t.others = s.others) (h : HostKeeps b s t) : StepKeeps b s t :=
  of_moves (.of_same ho he) h

theorem trans (h : StepKeeps b s t) (h' : StepKeeps b t u) : StepKeeps b s u :=
  ⟨h'.legal ∘ h.legal, h.host.trans h'.host⟩

theorem mono (h : StepKeeps b s t) (hbc : b → c) : StepKeeps c s t := ⟨h.legal, h.host.mono hbc⟩

theorem of_focus {page : Nat} (h : focus page s = some t) : StepKeeps b s t :=
  ⟨focus_keeps h, focus_frame h ▸ .of_same rfl rfl rfl⟩

/-- What an action keeps on every state it keeps when it is done on the instance at a page. -/
theorem of_withEngine {page : Nat} {a : Refusal} {f : State → StepResult} (h : withEngine page a s f = .next u)
    (hf : ∀ t w, f t = .next w → StepKeeps b t w) : StepKeeps b s u := by
  rcases withEngine_next h with h | ⟨t, w, ht, hw, rfl | hu⟩
  · exact hf _ _ h
  · exact (of_focus ht).trans (hf _ _ hw)
  · exact ((of_focus ht).trans (hf _ _ hw)).trans (of_focus hu)

theorem of_onEngine {page : Option Nat} {f : State → StepResult} (h : onEngine page s f = .next u)
    (hf : ∀ t w, f t = .next w → StepKeeps b t w) : StepKeeps b s u := by
  cases page with
  | none => exact hf _ _ h
  | some p => exact of_withEngine h hf

theorem bindTo {d : Option Nat} {v : Value} (h : StepKeeps b s t) (hv : ∀ x, v ≠ .vec x) :
    StepKeeps b s (bindTo d v t) :=
  h.trans (of_host (by simp) (by simp) ((HostKeeps.refl t).bindTo hv))

end StepKeeps

/-- Scheduling changes no engine and no host data. -/
theorem stepKeeps_agenda {b : Prop} (evs : List Event) (s : State) : StepKeeps b s { s with agenda := evs } :=
  .of_host rfl rfl (.of_same rfl rfl rfl)

/-- Putting an operand record in place changes no engine and no host data. -/
theorem stepKeeps_line {b : Prop} (l : Line) (s : State) : StepKeeps b s { s with line := l } :=
  .of_host rfl rfl (.of_same rfl rfl rfl)

/-! ### Words -/

theorem exec_stepKeeps {i : Instr} {s t : State} (h : exec i s = .next t) : StepKeeps (i = .buildVector) s t :=
  .of_moves (exec_moves h) (exec_hostKeeps h)

theorem claim_stepKeeps {b : Prop} {w : Nat} {s t : State} (h : claim w s = .ok t) : StepKeeps b s t := by
  refine .of_moves (claim_moves h) ?_
  obtain ⟨e, -, rfl⟩ := claim_ok h
  exact .of_same rfl rfl rfl

/-- A word issued by its issuer keeps what its instruction keeps: the window claim of a CMD write and the move of SEQ touch no
host data. -/
theorem issueAs_hostKeeps {l : Line} {w : Word} {i : Instr} {s t : State} (h : issueAs l w i s = .next t) :
    HostKeeps (i = .buildVector) s t := by
  unfold issueAs at h
  cases hl : l.issuer <;> rw [hl] at h
  · rcases hostIssue_next h with h | ⟨u, -, hc, h⟩
    · exact exec_hostKeeps h
    · exact (claim_stepKeeps hc).host.trans (exec_hostKeeps h)
  · obtain ⟨-, u, hu, rfl⟩ := sequencerIssue_next h
    exact (exec_hostKeeps hu).trans (.of_same rfl rfl rfl)

theorem issueWord_stepKeeps {l : Line} {w : Word} {s t : State} (h : issueWord l w s = .next t) :
    StepKeeps (decode w = .ok .buildVector) s t := by
  obtain ⟨i, hi, hm, h⟩ := issueWord_next h
  have key : StepKeeps (i = .buildVector) { s with line := l } t :=
    .of_onEngine h fun u v hv => .of_moves (issueAs_moves hi hm hv) (issueAs_hostKeeps hv)
  exact (stepKeeps_line l s).trans (key.mono fun e => e ▸ hi)

/-! ### The engine agent, and window accesses -/

theorem engineStep_stepKeeps {b : Prop} {s t : State} (h : engineStep s = .next t) : StepKeeps b s t := by
  refine .of_moves (engineStep_moves h) ?_
  rcases engineStep_next h with ⟨-, rfl⟩ | ⟨w, i, u, -, -, hc, hu, rfl⟩
  · exact .refl _
  · have hb : i ≠ .buildVector := by rintro rfl; cases hc
    exact (stepKeeps_line sequencerLine s).host.trans
      (((exec_hostKeeps hu).mono (absurd · hb)).trans (.of_same rfl rfl rfl))

theorem heldStep_stepKeeps {b : Prop} {s t : State} (h : heldStep s = .next t) : StepKeeps b s t := by
  unfold heldStep at h
  split at h
  · exact engineStep_stepKeeps h
  · obtain rfl := Host.Outcome.next.inj h
    exact .of_host rfl rfl (.of_same rfl rfl rfl)

/-- What a window write can do: its worker takes the window, and then CMD takes the COMPRESS word or a register the value. -/
theorem windowWrite_next {w off size : Nat} {v : Word} {s t : State} (h : windowWrite w off size v s = .next t) :
    ∃ r u, writeTarget off size = .ok r ∧ claim w s = .ok u ∧
      ((r = .cmd ∧ isCommandWord v = true ∧ exec .compress { u with line := commandLine w } = .next t) ∨
        (r ≠ .cmd ∧ t = setEngine (writeReg r v u.engine) u)) := by
  unfold windowWrite at h
  split at h
  · rename_i x _; cases x <;> cases h
  · rename_i r hr
    split at h
    · rename_i x _; cases x <;> cases h
    · rename_i u hu
      refine ⟨r, u, hr, hu, ?_⟩
      split at h
      · rename_i hcmd
        unfold cmdWrite at h
        split at h
        · rename_i hv; exact .inl ⟨hcmd, hv, h⟩
        · cases h
      · rename_i hcmd; exact .inr ⟨hcmd, (Host.Outcome.next.inj h).symm⟩

theorem windowWrite_stepKeeps {b : Prop} {w off size : Nat} {v : Word} {s t : State}
    (h : windowWrite w off size v s = .next t) : StepKeeps b s t := by
  refine .of_moves (windowWrite_moves h) ?_
  obtain ⟨r, u, -, hu, ⟨-, -, hx⟩ | ⟨-, rfl⟩⟩ := windowWrite_next h
  · have hk : HostKeeps b { u with line := commandLine w } t := (exec_hostKeeps hx).mono nofun
    exact ((claim_stepKeeps hu).trans (stepKeeps_line _ u)).host.trans hk
  · exact (claim_stepKeeps hu).host.trans (.of_same rfl rfl rfl)

/-- A window read of the instance addressed and what is done with the word read, as MemRead, the poll and the reads of OUT do
(20 R72, R77). -/
def readThen (w off size : Nat) (g : Word → State → StepResult) (s : State) : StepResult :=
  match windowRead w off size s with
  | .error x => stopResult x
  | .ok (v, u) => g v u

theorem memRead_eq (w addr size : Nat) (dest : Option Nat) (s : State) :
    memRead w addr size dest s = withEngine (pageOf addr) (.outsideWindow addr) s
      (readThen w (offsetOf addr) size fun v u => .next (bindTo dest (.int v.toNat) u)) := rfl

theorem pollStatus_eq (w addr : Nat) (s : State) :
    pollStatus w addr s = withEngine (pageOf addr) (.outsideWindow addr) s
      (readThen w (offsetOf addr) 4 fun v u =>
        if v.getLsbD 1 then .next u else .next { u with agenda := engineTurns u ++ .poll w addr :: u.agenda }) := rfl

theorem readOut_eq (w page : Nat) (got : List Nat) (dest : Option Nat) (s : State) :
    readOut w page got dest s = withEngine page .impossibleEvent s
      (readThen w (0x80 + 4 * got.length) 4 fun v u =>
        if got.length = 15 then .next (bindTo dest (.words (got ++ [v.toNat])) u)
        else .next { u with agenda := .readOut w page (got ++ [v.toNat]) dest :: u.agenda }) := rfl

/-- A read that completes has taken the window, and goes on from there. -/
theorem readThen_next {w off size : Nat} {g : Word → State → StepResult} {s t : State}
    (h : readThen w off size g s = .next t) : ∃ v u, windowRead w off size s = .ok (v, u) ∧ g v u = .next t := by
  unfold readThen at h
  split at h
  · rename_i x _; cases x <;> cases h
  · rename_i v u hr; exact ⟨v, u, hr, h⟩

/-- A window read keeps what is kept by what is done with the word. -/
theorem readThen_stepKeeps {b : Prop} {w off size : Nat} {g : Word → State → StepResult} {s t : State}
    (h : readThen w off size g s = .next t) (hg : ∀ v u, g v u = .next t → StepKeeps b u t) : StepKeeps b s t := by
  obtain ⟨v, u, hr, hv⟩ := readThen_next h
  obtain ⟨r, -, hc, -⟩ := windowRead_ok hr
  exact (claim_stepKeeps hc).trans (hg v u hv)

theorem memRead_stepKeeps {b : Prop} {w addr size : Nat} {dest : Option Nat} {s t : State}
    (h : memRead w addr size dest s = .next t) : StepKeeps b s t := by
  rw [memRead_eq] at h
  refine .of_withEngine h fun u x hx => readThen_stepKeeps hx fun v y hy => ?_
  obtain rfl := Host.Outcome.next.inj hy
  exact StepKeeps.bindTo (stepKeeps_agenda _ _) (by simp)

theorem pollStatus_stepKeeps {b : Prop} {w addr : Nat} {s t : State} (h : pollStatus w addr s = .next t) :
    StepKeeps b s t := by
  rw [pollStatus_eq] at h
  refine .of_withEngine h fun u x hx => readThen_stepKeeps hx fun v y hy => ?_
  split at hy <;> obtain rfl := Host.Outcome.next.inj hy <;> exact stepKeeps_agenda _ _

theorem readOut_stepKeeps {b : Prop} {w page : Nat} {got : List Nat} {dest : Option Nat} {s t : State}
    (h : readOut w page got dest s = .next t) : StepKeeps b s t := by
  rw [readOut_eq] at h
  refine .of_withEngine h fun u x hx => readThen_stepKeeps hx fun v y hy => ?_
  split at hy <;> obtain rfl := Host.Outcome.next.inj hy
  · exact StepKeeps.bindTo (stepKeeps_agenda _ _) (by simp)
  · exact stepKeeps_agenda _ _

theorem resetEngine_stepKeeps {b : Prop} {s t : State} (h : resetEngine s = .next t) : StepKeeps b s t := by
  refine .of_moves (resetEngine_moves h) ?_
  unfold resetEngine at h
  split at h
  · cases h
  · obtain rfl := Host.Outcome.next.inj h
    exact .of_same rfl rfl rfl

theorem loadTables_stepKeeps {b : Prop} {x : Tables} {s t : State} (h : loadTables x s = .next t) : StepKeeps b s t := by
  refine .of_moves (loadTables_moves h) ?_
  obtain rfl := Host.Outcome.next.inj h
  exact .of_same rfl rfl rfl

/-! ### Draws, suites and RUN_SINGLEs -/

theorem drawBegin_next {w id : Nat} {s t : State} (h : drawBegin w id s = .next t) :
    ∃ g, genAt id s = some g ∧ g.user = none ∧ t = setGen id { g with user := some w } s := by
  unfold drawBegin at h
  split at h
  · cases h
  · rename_i g hg
    split at h
    · rename_i hu; exact ⟨g, hg, hu, (Host.Outcome.next.inj h).symm⟩
    · cases h

theorem drawEnd_next {w id : Nat} {dest : Option Nat} {s t : State} (h : drawEnd w id dest s = .next t) :
    ∃ g, genAt id s = some g ∧ g.user = some w ∧
      t = bindTo dest (.int (lcgStep g.seed).toNat) (setGen id ⟨lcgSeed g.seed, none⟩ s) := by
  unfold drawEnd at h
  split at h
  · cases h
  · rename_i g hg
    split at h
    · rename_i hu; exact ⟨g, hg, hu, (Host.Outcome.next.inj h).symm⟩
    · cases h

theorem suiteOpen_next {l : Line} {s t : State} (h : suiteOpen l s = .next t) :
    s.suite = none ∧ ∃ a, suiteArgs { s with line := l } = some a ∧
      t = { s with line := l, suite := some ⟨a.circuit, a.vectors.map fun v => ⟨v, 0, false, none⟩, l.dest⟩ } := by
  unfold suiteOpen at h
  split at h
  · cases h
  · rename_i hs
    split at h
    · cases h
    · rename_i a ha; exact ⟨hs, a, ha, (Host.Outcome.next.inj h).symm⟩

theorem singleOpen_next {l : Line} {s t : State} (h : singleOpen l s = .next t) :
    findSingle l.worker s.singles = none ∧ ∃ a, singleArgs { s with line := l } = some a ∧
      t = { s with line := l, singles := s.singles ++ [⟨l.worker, l.dest, a.vec, a.prove, none, 0⟩] } := by
  unfold singleOpen at h
  split at h
  · cases h
  · rename_i hs
    split at h
    · cases h
    · rename_i a ha; exact ⟨hs, a, ha, (Host.Outcome.next.inj h).symm⟩

/-- The vectors a suite opens with are bound to names, hence built. -/
theorem suiteOpen_stepKeeps {b : Prop} {l : Line} {s t : State} (h : suiteOpen l s = .next t) : StepKeeps b s t := by
  obtain ⟨-, a, ha, rfl⟩ := suiteOpen_next h
  refine .of_host rfl rfl (.of_env rfl (fun hs => ?_) hostOk.singlesOk)
  refine (suiteOk_some _).mpr fun x hx => ?_
  obtain ⟨v, hv, rfl⟩ := List.mem_map.mp hx
  exact ⟨Nat.zero_le 1, hs.isBuilt_of_bound (s := s) (suiteArgs_bound ha v hv)⟩

theorem suiteLaunch_stepKeeps {b : Prop} {j : Nat} {s t : State} (h : suiteLaunch j s = .next t) : StepKeeps b s t := by
  obtain ⟨u, x, hu, hx, -, -, -, -, rfl⟩ := suiteLaunch_next h
  refine .of_host rfl rfl (.of_env rfl (fun hs => ?_) hostOk.singlesOk)
  exact suiteOk_setSlot (hu ▸ hs.suiteOk) (hs.suiteOk u hu x (List.mem_of_getElem? hx))

theorem suiteAnswer_stepKeeps {b : Prop} {j : Nat} {s t : State} (h : suiteAnswer j s = .next t) : StepKeeps b s t := by
  obtain ⟨u, x, hu, hx, -, ⟨y, -, rfl⟩ | ⟨a, y, -, rfl⟩⟩ := suiteAnswer_next h
  · exact .of_host rfl rfl (.killed y s)
  · refine .of_host rfl rfl (.of_env rfl (fun hs => ?_) hostOk.singlesOk)
    exact suiteOk_setSlot (hu ▸ hs.suiteOk) (slotAfter_ok _ (hs.suiteOk u hu x (List.mem_of_getElem? hx)))

theorem suiteClose_stepKeeps {b : Prop} {s t : State} (h : suiteClose s = .next t) : StepKeeps b s t := by
  obtain ⟨u, os, -, -, rfl⟩ := suiteClose_next h
  exact StepKeeps.bindTo (.of_host rfl rfl (.of_env rfl (fun _ => suiteOk_none) hostOk.singlesOk)) (by simp)

/-- The vector of a RUN_SINGLE is bound to a name, hence built, and its worker had none under way. -/
theorem singleOpen_stepKeeps {b : Prop} {l : Line} {s t : State} (h : singleOpen l s = .next t) : StepKeeps b s t := by
  obtain ⟨hw, a, ha, rfl⟩ := singleOpen_next h
  obtain ⟨n, hn⟩ := singleArgs_bound ha
  refine .of_host rfl rfl (.of_env rfl hostOk.suiteOk fun hs => ?_)
  exact singlesOk_append hs.singlesOk hw ⟨Nat.zero_le 1, hs.isBuilt_of_bound ⟨n, hn⟩, nofun⟩

/-- A proof stage starts only when asked for and after a good witness stage (45 R270). -/
theorem singleOk_proofStage {x : SingleRun} {st : Stage} (hx : singleOk x) (hp : wantsProof x.prove st = true) :
    singleOk { x with witness := some st, retries := 0 } := by
  obtain ⟨h1, h2⟩ : x.prove = true ∧ st.failure = none := by simpa [wantsProof] using hp
  exact ⟨Nat.zero_le 1, hx.2.1, by rintro _ ⟨⟩; exact ⟨h1, h2⟩⟩

theorem singleAnswer_stepKeeps {b : Prop} {w : Nat} {s t : State} (h : singleAnswer w s = .next t) : StepKeeps b s t := by
  obtain ⟨x, hx, ⟨y, rfl⟩ | ⟨y, rfl⟩ | ⟨st, y, rfl⟩⟩ := singleAnswer_next h
  · exact .of_host rfl rfl (.killed y s)
  · refine .of_host rfl rfl (.of_env rfl hostOk.suiteOk fun hs => ?_)
    exact singlesOk_setSingle hs.singlesOk ⟨le_rfl, (hs.singlesOk.2 x (findSingle_some hx)).2⟩
  · rcases stageEnded_cases x st { s with inputs := y } with ⟨-, hp, e⟩ | ⟨rep, e⟩ <;> rw [e]
    · refine .of_host rfl rfl (.of_env rfl hostOk.suiteOk fun hs => ?_)
      exact singlesOk_setSingle hs.singlesOk (singleOk_proofStage (hs.singlesOk.2 x (findSingle_some hx)) hp)
    · refine StepKeeps.bindTo (.of_host rfl rfl (.of_env rfl hostOk.suiteOk fun hs => ?_)) (by simp)
      exact singlesOk_dropSingle hs.singlesOk

/-! ### Events and steps -/

/-- An event that issues a BUILD_VECTOR word. -/
def issuesBuild (ev : Event) : Prop := ∃ l w, ev = .word l w ∧ decode w = .ok .buildVector

theorem runEvent_stepKeeps {ev : Event} {s t : State} (h : runEvent ev s = .next t) : StepKeeps (issuesBuild ev) s t := by
  cases ev with
  | word l w => exact (issueWord_stepKeeps h).mono fun hd => ⟨l, w, rfl, hd⟩
  | read w addr size dest => exact memRead_stepKeeps h
  | write w addr size v => exact .of_withEngine h fun _ _ => windowWrite_stepKeeps
  | poll w addr => exact pollStatus_stepKeeps h
  | readOut w page got dest => exact readOut_stepKeeps h
  | engine page => exact .of_withEngine h fun _ _ => engineStep_stepKeeps
  | reset page => exact .of_withEngine h fun _ _ => resetEngine_stepKeeps
  | loadTables page x => exact .of_withEngine h fun _ _ => loadTables_stepKeeps
  | drawBegin w id =>
    obtain ⟨g, -, -, rfl⟩ := drawBegin_next h
    exact .of_host rfl rfl (.of_same rfl rfl rfl)
  | drawEnd w id dest =>
    obtain ⟨g, -, -, rfl⟩ := drawEnd_next h
    exact StepKeeps.bindTo (.of_host rfl rfl (.of_same rfl rfl rfl)) (by simp)
  | suiteOpen l => exact suiteOpen_stepKeeps h
  | suiteLaunch j => exact suiteLaunch_stepKeeps h
  | suiteAnswer j => exact suiteAnswer_stepKeeps h
  | suiteClose => exact suiteClose_stepKeeps h
  | suiteAbort =>
    obtain rfl := Host.Outcome.next.inj h
    exact .of_host rfl rfl (.killed s.inputs s)
  | singleOpen l => exact singleOpen_stepKeeps h
  | singleAnswer w => exact singleAnswer_stepKeeps h
  | randomized w gen circuit base dest =>
    obtain rfl := Host.Outcome.next.inj h
    exact .of_host rfl rfl (.of_same rfl rfl rfl)

theorem step_stepKeeps {s t : State} (h : step s = .next t) :
    StepKeeps (∃ l w rest, s.hold = none ∧ s.agenda = .word l w :: rest ∧ decode w = .ok .buildVector) s t := by
  rcases step_cases h with ⟨⟨page⟩, -, h⟩ | ⟨-, -, h⟩ | ⟨ev, rest, u, hh, ha, h, ht⟩
  · exact .of_withEngine h fun _ _ => heldStep_stepKeeps
  · rcases quietTurn_cases s with hq | ⟨page, hq⟩ <;> rw [hq] at h
    · obtain rfl := Host.Outcome.next.inj h
      exact stepKeeps_agenda _ _
    · exact .of_withEngine h fun _ _ => engineStep_stepKeeps
  · have hu := (stepKeeps_agenda rest s).trans (runEvent_stepKeeps h)
    have ht : StepKeeps (issuesBuild ev) s t := by
      rcases ht with rfl | rfl
      · exact hu
      · exact hu.trans (stepKeeps_agenda _ u)
    exact ht.mono fun ⟨l, w, hev, hd⟩ => ⟨l, w, rest, hh, hev ▸ ha, hd⟩

/-- Settles O54: a step is a `StepKeeps`, whichever agent takes it. -/
theorem everyStepKeepsEnginesLegal : Obligations.EveryStepKeepsEnginesLegal :=
  fun _ _ hs h => (step_stepKeeps h).legal hs

/-- Settles O55: a step is a `StepKeeps`, whose host part says both halves. -/
theorem everyStepKeepsHostDataCanonical : Obligations.EveryStepKeepsHostDataCanonical :=
  ⟨fun _ _ hs h => (step_stepKeeps h).host.hostOk hs,
    fun _ _ n v h hv => ((step_stepKeeps h).host.vectors n v hv).imp id And.left⟩

end Sys2Proof.Machine
end

section
/-! PROOFS. The engine's registers before and after reset (10_state.md R46, R47, R49, R55): which stops a register of no value
gives, and that a legal engine's step meets none. -/

namespace Sys2Proof.Machine

open Sys2Proof

/-! ### Registers of no value (10 R49) -/

theorem execInit_fault {s : State} (h : ¬ requestWritten s.engine) :
    ∃ r, execInit s = .fault (.readNoValue (.win r)) := by
  obtain ⟨r, hr⟩ := readRequest_error h
  exact ⟨r, by simp [execInit, hr]⟩

/-- A COMPRESS with no operand record takes the request registers (44 R213). -/
theorem compressArgs_of_nil {s : State} (h : s.line.args = []) : compressArgs s = some .registers := by
  simp [compressArgs, h]

theorem execCompress_fault {s : State} (h : ¬ requestWritten s.engine) (ha : s.line.args = [])
    (ht : s.engine.tablesReady = true) : ∃ r, execCompress s = .fault (.readNoValue (.win r)) := by
  obtain ⟨r, hr⟩ := readRequest_error h
  exact ⟨r, by simp [execCompress, compressArgs_of_nil ha, ht, hr]⟩

theorem execCompress_tablesNotLoaded {s : State} (ha : compressArgs s ≠ none) (ht : s.engine.tablesReady = false) :
    execCompress s = .refused .tablesNotLoaded := by
  obtain ⟨src, hs⟩ := Option.ne_none_iff_exists'.mp ha
  simp [execCompress, hs, ht]

/-- Settles O9: INIT and COMPRESS read the request as a whole, COMPRESS after it has looked at the tables. -/
theorem unwrittenRequestFaults : Obligations.UnwrittenRequestFaults :=
  fun _ => ⟨fun h => ⟨execInit_fault h, execCompress_fault h⟩, execCompress_tablesNotLoaded⟩

theorem whenLatched_fault {s : State} (r : Reg) (f : Engine → Engine) (h : s.engine.latched = false) :
    whenLatched r s f = .fault (.readNoValue r) := by
  simp [whenLatched, h]

theorem execG_fault {s : State} {f : GFields} (h : s.engine.latched = false) (hf : legalG.contains f = true) :
    execG f.a f.b f.c f.d f.x f.y s = .fault (.readNoValue .v) := by
  rw [execG, if_pos hf, whenLatched_fault _ _ h]

theorem execRound_fault {s : State} (h : s.engine.latched = false) : execRound s = .fault (.readNoValue .v) :=
  whenLatched_fault _ _ h

theorem execPermute_fault {s : State} (h : s.engine.latched = false) : execPermute s = .fault (.readNoValue .ms) :=
  whenLatched_fault _ _ h

theorem execFinalize_fault {s : State} (h : s.engine.latched = false) : execFinalize s = .fault (.readNoValue .v) := by
  simp [execFinalize, h]

/-- Settles O17: each of the four looks at the latched mark first. -/
theorem microOperationsFaultBeforeInit : Obligations.MicroOperationsFaultBeforeInit :=
  fun _ _ h hf => ⟨execG_fault h hf, execRound_fault h, execPermute_fault h, execFinalize_fault h⟩

/-! ### A write to CMD (10 R47) -/

/-- A write to the window of the instance addressed. -/
theorem memWrite_here {w off size : Nat} {v : Word} {s : State} (h : off < 256) :
    memWrite w (256 * s.engine.page + off) size v s = windowWrite w off size v s := by
  rw [memWrite, pageOf_window _ h, offsetOf_window _ h, withEngine_self]

/-- A write to CMD by a worker that has the window or finds it free reaches `cmdWrite`, the window taken. -/
theorem windowWrite_cmd {w : Nat} {v : Word} {s : State} (h : s.engine.owner = none ∨ s.engine.owner = some w) :
    windowWrite w 0x70 4 v s = cmdWrite w v (setEngine { s.engine with owner := some w } s) := by
  have hr : writeTarget 0x70 4 = .ok .cmd := rfl
  simp only [windowWrite, hr, claim_of_owner h, if_true]

/-- Settles O49: the write reaches `cmdWrite`, which takes the COMPRESS word alone. -/
theorem onlyCompressMayBeWrittenToCmd : Obligations.OnlyCompressMayBeWrittenToCmd := by
  intro s w v ho
  have hw : runEvent (.write w (256 * s.engine.page + 0x70) 4 v) s =
      cmdWrite w v (setEngine { s.engine with owner := some w } s) :=
    (memWrite_here (by decide)).trans (windowWrite_cmd ho)
  rw [hw]
  constructor
  · intro hv
    simp [cmdWrite, isCommandWord, hv]
  · rintro rfl
    rfl

/-! ### The step of a legal engine -/

/-- The engine's step of a legal engine completes: while it is not idle a request is latched, and SEQ names a word. -/
theorem engineStep_completes {s : State} (h : engineOk s.engine) : ∃ t, engineStep s = .next t := by
  have hq := h.1
  unfold seqOk at hq
  rcases hs : s.engine.seq with _ | n | ⟨n, k⟩ <;> rw [hs] at hq
  · exact ⟨s, by simp only [engineStep, hs]⟩
  · obtain ⟨-, h1, h14, hl⟩ := hq
    by_cases hlast : n = 14
    · exact ⟨_, engineStep_last (hlast ▸ hs) hl⟩
    · have h13 : n.toNat ≤ 13 := by
        have : n.toNat ≠ 14 := fun e => hlast (BitVec.eq_of_toNat_eq e)
        omega
      rcases Nat.mod_two_eq_zero_or_one n.toNat with heven | hodd
      · exact ⟨_, engineStep_even hs hl h1 h13 heven⟩
      · exact ⟨_, engineStep_odd hs hl h13 hodd⟩
  · obtain ⟨-, hodd, h13, -, hl⟩ := hq
    exact ⟨_, engineStep_call hs hl ((isRoundStep_iff n).mpr ⟨hodd, h13⟩)⟩

/-- An instance in a list is found by its page, or one of the same page before it. -/
theorem swapIn_isSome {x e : Engine} {es : List Engine} (h : x ∈ es) : ∃ p, swapIn x.page e es = some p := by
  induction es with
  | nil => cases h
  | cons y ys ih =>
    simp only [swapIn]
    split
    · exact ⟨_, rfl⟩
    · rename_i hy
      obtain ⟨p, hp⟩ := ih ((List.mem_cons.mp h).resolve_left fun e => hy (e ▸ rfl))
      exact ⟨_, by rw [hp]⟩

/-- There is an instance to address at the page of any instance. -/
theorem focus_isSome {x : Engine} {s : State} (h : x ∈ s.engine :: s.others) : ∃ t, focus x.page s = some t := by
  by_cases hp : s.engine.page = x.page
  · exact ⟨s, hp ▸ focus_self s⟩
  · obtain ⟨p, hs⟩ := swapIn_isSome (e := s.engine) ((List.mem_cons.mp h).resolve_left fun e => hp (e ▸ rfl))
    exact ⟨_, by rw [focus, if_neg hp, hs]⟩

/-- Acting on an instance completes where the action does on the instance found. -/
theorem withEngine_completes {x : Engine} {a : Refusal} {s : State} {f : State → StepResult}
    (h : x ∈ s.engine :: s.others) (hf : ∀ t, focus x.page s = some t → ∃ u, f t = .next u) :
    ∃ u, withEngine x.page a s f = .next u := by
  by_cases hp : s.engine.page = x.page
  · rw [← hp] at hf ⊢
    rw [withEngine_self]
    exact hf s (focus_self s)
  · obtain ⟨t, ht⟩ := focus_isSome h
    obtain ⟨u, hu⟩ := hf t ht
    exact ⟨_, by rw [withEngine, if_neg hp, ht]; simp only [hu]; rfl⟩

/-- Settles O57: the instance found at the page is legal, so its step completes. -/
theorem legalEnginesNeverStop : Obligations.LegalEnginesNeverStop :=
  fun _ hs _ he => withEngine_completes he fun t ht => engineStep_completes (focus_keeps ht hs t.engine (by simp))

/-! ### Who writes STATUS (10 R46) -/

/-- A host operation leaves the engine addressed as it is (60 R312). -/
theorem exec_host_engine {i : Instr} {s t : State} (hc : i.opClass = .host) (h : exec i s = .next t) :
    t.engine = s.engine := by
  cases i with
  | compress | init | g | round | permute | finalize => cases hc
  | lcgNew => obtain ⟨_, -, rfl⟩ := execLcgNew_next h; simp
  | lcgNext => obtain ⟨_, _, -, -, rfl⟩ := execLcgNext_next h; simp
  | toFixedBinary => obtain ⟨_, -, rfl⟩ := execToFixedBinary_next h; simp
  | fromBinary => obtain ⟨_, -, rfl⟩ := execFromBinary_next h; simp
  | buildVector => obtain ⟨_, -, ⟨-, rfl⟩ | ⟨-, _, -, rfl⟩⟩ := execBuildVector_next h <;> simp
  | serializeVector => obtain ⟨_, -, rfl⟩ := execSerializeVector_next h; simp
  | runSuite => obtain ⟨_, _, -, rfl⟩ | ⟨_, rfl⟩ := execRunSuite_next h <;> simp
  | runSingle => obtain ⟨_, _, -, rfl⟩ | ⟨_, rfl⟩ := execRunSingle_next h <;> simp
  | chainCv => obtain ⟨_, -, rfl⟩ := execChainCv_next h; simp

/-- COMPRESS is the one engine command. -/
theorem opClass_engineCommand {i : Instr} (h : i.opClass = .engineCommand) : i = .compress := by
  cases i with
  | compress => rfl
  | init | g | round | permute | finalize => cases h
  | lcgNew | lcgNext | toFixedBinary | fromBinary | buildVector | serializeVector | runSuite | runSingle | chainCv => cases h

/-- Settles O59: by class, COMPRESS is the only engine command, a micro-operation but FINALIZE keeps STATUS, and a host
operation keeps the whole engine. -/
theorem onlyCompressAndFinalizeWriteStatus : Obligations.OnlyCompressAndFinalizeWriteStatus := by
  intro i s t h hcompress hfinalize
  cases hc : i.opClass with
  | engineCommand => exact absurd (opClass_engineCommand hc) hcompress
  | microOp => exact (exec_micro_keeps hc hfinalize h).1
  | host => exact congrArg Engine.status (exec_host_engine hc h)

/-! ### Reset (10 R55) -/

/-- Every instance after reset is one in its reset state. -/
theorem reset_instances {e : Engine} (h : e ∈ State.reset.engine :: State.reset.others) : ∃ page, e = Engine.reset page := by
  rcases List.mem_cons.mp h with rfl | h
  · exact ⟨_, rfl⟩
  · obtain ⟨k, -, rfl⟩ := List.mem_map.mp h
    exact ⟨_, rfl⟩

/-- No request field of a reset instance has been written. -/
theorem requestMarks_reset {page : Nat} : ∀ r ∈ requestMarks (Engine.reset page), r.2 = false := by
  simp [requestMarks, Engine.reset, ReqReg.unwritten]

theorem engineOk_reset (page : Nat) : engineOk (Engine.reset page) := ⟨rfl, nofun, nofun⟩

/-- Settles O52: every instance is in its reset state, and the rest is read off. -/
theorem resetStateIsAsTheSpecSays : Obligations.ResetStateIsAsTheSpecSays := by
  refine ⟨fun e he => ?_, rfl, rfl, rfl, rfl, rfl⟩
  obtain ⟨page, rfl⟩ := reset_instances he
  exact ⟨by simp [Engine.reset, Status.word], rfl, rfl, requestMarks_reset⟩

theorem hostOk_reset : hostOk State.reset := (hostOk_iff _).mpr ⟨rfl, nofun, suiteOk_none, singlesOk_nil⟩

/-- Settles O56: every instance is in its reset state, which is legal, and there is no host data. -/
theorem invariantsHoldAtReset : Obligations.InvariantsHoldAtReset := by
  refine ⟨fun e he => ?_, hostOk_reset⟩
  obtain ⟨page, rfl⟩ := reset_instances he
  exact engineOk_reset page

end Sys2Proof.Machine
end

section
/-! PROOFS. The register window (20_memory.md R71 to R77, R86): which register an offset takes, what a window access does when
its checks pass and when one of them stops it, and the same on an instance that is not the one addressed. -/

namespace Sys2Proof.Machine

open Sys2Proof

/-! ### Offsets and their registers (20 R71, R73) -/

/-- The place of a register in the window, counted in words. -/
def WinReg.index : WinReg → Nat
  | .hIn i => i
  | .mIn i => 8 + i
  | .t0In => 24
  | .t1In => 25
  | .bIn => 26
  | .dIn => 27
  | .cmd => 28
  | .status => 29
  | .out i => 32 + i

theorem windowReg_index {off : Nat} {r : WinReg} (h : windowReg off = some r) : r.index = off / 4 := by
  simp only [windowReg] at h
  split_ifs at h <;> cases h <;> simp only [WinReg.index] <;> omega

theorem WinReg.index_lt (r : WinReg) : r.index < 48 := by
  cases r <;> simp only [WinReg.index] <;> omega

/-- Two offsets with the same register lie in the same word. -/
theorem windowReg_injective {off off' : Nat} {r : WinReg} (h : windowReg off = some r) (h' : windowReg off' = some r) :
    off / 4 = off' / 4 := (windowReg_index h).symm.trans (windowReg_index h')

theorem windowReg_lt {off : Nat} {r : WinReg} (h : windowReg off = some r) : off < 0xC0 := by
  have := windowReg_index h
  have := r.index_lt
  omega

theorem accessShape_iff {off size : Nat} : accessShape off size = true ↔ size = 4 ∧ off % 4 = 0 := by
  simp [accessShape]

/-- A read takes the register of its offset, CMD apart. -/
theorem readTarget_of_windowReg {off : Nat} {r : WinReg} (h4 : off % 4 = 0) (hr : windowReg off = some r) (hc : r ≠ .cmd) :
    readTarget off 4 = .ok r := by
  cases r with
  | cmd => exact absurd rfl hc
  | _ => simp only [readTarget, accessShape_iff.mpr ⟨rfl, h4⟩, if_true, hr]

theorem readTarget_out (i : Fin 16) : readTarget (0x80 + 4 * i.val) 4 = .ok (.out i) := by
  decide +revert

theorem readTarget_status : readTarget 0x74 4 = .ok .status := rfl

/-- A read of another width or alignment, or at an offset with no register, is refused. -/
theorem readTarget_refused {off size : Nat} (h : accessShape off size = true → windowReg off = none) :
    readTarget off size = .error (.refused (.windowAccess off)) := by
  unfold readTarget
  split
  · rename_i hs; rw [h hs]
  · rfl

/-- A write of another width or alignment, or at an offset with no register or a read-only one, is refused. -/
theorem writeTarget_refused {off size : Nat}
    (h : accessShape off size = true →
      windowReg off = none ∨ windowReg off = some .status ∨ ∃ i, windowReg off = some (.out i)) :
    writeTarget off size = .error (.refused (.windowAccess off)) := by
  unfold writeTarget
  split
  · rename_i hs
    obtain hr | hr | ⟨i, hr⟩ := h hs <;> rw [hr]
  · rfl

/-- From 0x80 on there is OUT, and then nothing. -/
theorem windowReg_high {off : Nat} (h4 : off % 4 = 0) (h : 0x80 ≤ off) (hlt : off < 256) :
    windowReg off = none ∨ ∃ i, windowReg off = some (.out i) := by
  by_cases ho : off < 0xC0
  · exact .inr ⟨_, windowReg_out h4 h ho⟩
  · exact .inl (windowReg_reserved h4 hlt (.inr (.inr (by omega))))

/-- The offsets a read may take: those of the request registers, STATUS and OUT. -/
theorem readTarget_readable {off : Nat} (h4 : off % 4 = 0) (h : off < 0x70 ∨ off = 0x74 ∨ (0x80 ≤ off ∧ off < 0xC0)) :
    ∃ r, readTarget off 4 = .ok r := by
  obtain h | rfl | ⟨h, hlt⟩ := h
  · obtain ⟨r, -, hr, -⟩ := windowReg_request h4 h
    exact ⟨r, hr⟩
  · exact ⟨_, readTarget_status⟩
  · exact ⟨_, readTarget_of_windowReg h4 (windowReg_out h4 h hlt) nofun⟩

/-- The offsets a write may take: those of the request registers and CMD. -/
theorem writeTarget_writable {off : Nat} (h4 : off % 4 = 0) (h : off ≤ 0x70) : ∃ r, writeTarget off 4 = .ok r := by
  obtain h | rfl := Nat.lt_or_eq_of_le h
  · obtain ⟨r, -, -, hr, -⟩ := windowReg_request h4 h
    exact ⟨r, hr⟩
  · exact ⟨.cmd, rfl⟩

/-! ### Registers read and written (20 R72) -/

/-- Reading a register after writing another. -/
theorem readReg_writeReg_other {r r' : WinReg} (h : r' ≠ r) (v : Word) (e : Engine) :
    readReg (writeReg r v e) r' = readReg e r' := by
  cases r with
  | hIn i =>
    cases r' with
    | hIn j =>
      have hij : i.val ≠ j.val := fun hval => h (by rw [Fin.ext hval])
      simp [readReg, writeReg, hij]
    | _ => rfl
  | mIn i =>
    cases r' with
    | mIn j =>
      have hij : i.val ≠ j.val := fun hval => h (by rw [Fin.ext hval])
      simp [readReg, writeReg, hij]
    | _ => rfl
  | t0In =>
    cases r' with
    | t0In => exact absurd rfl h
    | _ => rfl
  | t1In =>
    cases r' with
    | t1In => exact absurd rfl h
    | _ => rfl
  | bIn =>
    cases r' with
    | bIn => exact absurd rfl h
    | _ => rfl
  | dIn =>
    cases r' with
    | dIn => exact absurd rfl h
    | _ => rfl
  | cmd | status | out i => rfl

/-- What is left of a word written to a request register: `B_IN` and `D_IN` keep bits [7:0] (20 R72). -/
def keptWord (r : WinReg) (v : Word) : Word :=
  if r = .bIn ∨ r = .dIn then zext32 (v.extractLsb' 0 8) else v

theorem keptWord_toNat (r : WinReg) (v : Word) :
    (keptWord r v).toNat = if r = .bIn ∨ r = .dIn then v.toNat % 256 else v.toNat := by
  unfold keptWord
  split
  · simp only [zext32, BitVec.toNat_setWidth, BitVec.extractLsb'_toNat]
    omega
  · rfl

/-- Reading a request register after writing it. -/
theorem readReg_writeReg_same {r : WinReg} (hc : r ≠ .cmd) (hs : r ≠ .status) (ho : ∀ i, r ≠ .out i) (v : Word)
    (e : Engine) : readReg (writeReg r v e) r = .ok (keptWord r v) := by
  cases r with
  | hIn i => exact readReg_writeReg_hIn i v e
  | mIn i => exact readReg_writeReg_mIn i v e
  | t0In | t1In | bIn | dIn => rfl
  | cmd => exact absurd rfl hc
  | status => exact absurd rfl hs
  | out i => exact absurd rfl (ho i)

/-- The window's owner is no part of what a register holds. -/
@[simp] theorem readReg_owner (o : Option Nat) (e : Engine) (r : WinReg) :
    readReg { e with owner := o } r = readReg e r := by
  cases r <;> rfl

@[simp] theorem writeReg_page (r : WinReg) (v : Word) (e : Engine) : (writeReg r v e).page = e.page := by cases r <;> rfl
@[simp] theorem writeReg_owner (r : WinReg) (v : Word) (e : Engine) : (writeReg r v e).owner = e.owner := by cases r <;> rfl
@[simp] theorem writeReg_past (r : WinReg) (v : Word) (e : Engine) : (writeReg r v e).past = e.past := by cases r <;> rfl

theorem reqRead_unwritten {n : Nat} {x : ReqReg n} (h : x.written = false) (name : WinReg) :
    reqRead name x = .error (.fault (.readNoValue (.win name))) := by
  simp [reqRead, h]

/-- A request register never written faults (10 R49). -/
theorem readReg_unwritten {r : WinReg} {e : Engine} (h : (r, false) ∈ requestMarks e) :
    readReg e r = .error (.fault (.readNoValue (.win r))) := by
  simp only [requestMarks, List.mem_append, List.mem_map, List.mem_finRange, true_and, Prod.mk.injEq, List.mem_cons,
    List.not_mem_nil, or_false] at h
  obtain (⟨i, rfl, h⟩ | ⟨i, rfl, h⟩) | ⟨rfl, h⟩ | ⟨rfl, h⟩ | ⟨rfl, h⟩ | ⟨rfl, h⟩ := h
  · exact reqRead_unwritten h _
  · exact reqRead_unwritten h _
  · exact reqRead_unwritten h.symm _
  · exact reqRead_unwritten h.symm _
  · exact congrArg (Except.map zext32) (reqRead_unwritten h.symm _)
  · exact congrArg (Except.map zext32) (reqRead_unwritten h.symm _)

theorem readReg_out_fault {e : Engine} (h : e.status.outValid = false) (i : Fin 16) :
    readReg e (.out i) = .error (.fault (.readNoValue (.win (.out i)))) := by
  simp [readReg, h]

theorem readReg_out_value {e : Engine} (h : e.status.outValid = true) (i : Fin 16) :
    readReg e (.out i) = .ok e.out[i] := by
  simp [readReg, h]

theorem Status.word_toNat (x : Status) : x.word.toNat = x.busy.toNat + 2 * x.outValid.toNat := by
  obtain ⟨b, o⟩ := x
  cases b <;> cases o <;> rfl

/-- Bit 1 of STATUS is OUT_VALID (10 R46). -/
theorem Status.word_bit_one (x : Status) : x.word.getLsbD 1 = x.outValid := by
  obtain ⟨b, o⟩ := x
  cases b <;> cases o <;> rfl

/-! ### A window access, check by check (60 R331) -/

section
variable {w off size : Nat} {r : WinReg} {x : Stop} {v : Word} {g : Word → State → StepResult} {s t : State}

theorem windowRead_of_target_stop (ht : readTarget off size = .error x) : windowRead w off size s = .error x := by
  simp only [windowRead, ht]

theorem windowRead_of_claim_stop (ht : readTarget off size = .ok r) (hc : claim w s = .error x) :
    windowRead w off size s = .error x := by
  simp only [windowRead, ht, hc]

theorem windowRead_of_reg_stop (ht : readTarget off size = .ok r) (hc : claim w s = .ok t)
    (hr : readReg t.engine r = .error x) : windowRead w off size s = .error x := by
  simp only [windowRead, ht, hc, hr]

theorem windowRead_of_value (ht : readTarget off size = .ok r) (hc : claim w s = .ok t)
    (hr : readReg t.engine r = .ok v) : windowRead w off size s = .ok (v, t) := by
  simp only [windowRead, ht, hc, hr]

theorem readThen_of_stop (h : windowRead w off size s = .error x) : readThen w off size g s = stopResult x := by
  simp only [readThen, h]

theorem readThen_of_value (h : windowRead w off size s = .ok (v, t)) : readThen w off size g s = g v t := by
  simp only [readThen, h]

theorem windowWrite_of_target_stop (ht : writeTarget off size = .error x) : windowWrite w off size v s = stopResult x := by
  simp only [windowWrite, ht]

theorem windowWrite_of_claim_stop (ht : writeTarget off size = .ok r) (hc : claim w s = .error x) :
    windowWrite w off size v s = stopResult x := by
  simp only [windowWrite, ht, hc]

theorem windowWrite_of_request (ht : writeTarget off size = .ok r) (hr : r ≠ .cmd) (hc : claim w s = .ok t) :
    windowWrite w off size v s = .next (setEngine (writeReg r v t.engine) t) := by
  simp only [windowWrite, ht, hc, if_neg hr]

theorem windowWrite_of_command (hc : claim w s = .ok t) : windowWrite w 0x70 4 v s = cmdWrite w v t := by
  have ht : writeTarget 0x70 4 = .ok .cmd := rfl
  simp only [windowWrite, ht, hc, if_true]

end

/-- A worker that has the window or finds it free reads the window: the register's word, and only the owner may change. -/
theorem windowRead_of_owner {w off : Nat} {r : WinReg} {v : Word} {s : State}
    (ho : s.engine.owner = none ∨ s.engine.owner = some w) (ht : readTarget off 4 = .ok r)
    (hr : readReg s.engine r = .ok v) :
    windowRead w off 4 s = .ok (v, { s with engine := { s.engine with owner := some w } }) :=
  windowRead_of_value ht (claim_of_owner ho) ((readReg_owner ..).trans hr)

theorem windowRead_of_owner_stop {w off : Nat} {r : WinReg} {x : Stop} {s : State}
    (ho : s.engine.owner = none ∨ s.engine.owner = some w) (ht : readTarget off 4 = .ok r)
    (hr : readReg s.engine r = .error x) : windowRead w off 4 s = .error x :=
  windowRead_of_reg_stop ht (claim_of_owner ho) ((readReg_owner ..).trans hr)

/-- A first access after another worker's takes the window, and that worker's accesses have ended (20 R86). -/
theorem claim_takeover {w o : Nat} {s : State} (h : s.engine.owner = some o) (hne : o ≠ w) (hp : w ∉ s.engine.past) :
    claim w s = .ok (setEngine { s.engine with owner := some w, past := o :: s.engine.past } s) := by
  simp [claim, claimWindow, h, hne, hp]

/-- A read at an address in a window acts on the instance of that window. -/
theorem memRead_window {w p off size : Nat} {d : Option Nat} {s : State} (h : off < 256) :
    memRead w (256 * p + off) size d s = withEngine p (.outsideWindow (256 * p + off)) s
      (readThen w off size fun v u => .next (bindTo d (.int v.toNat) u)) := by
  rw [memRead_eq, pageOf_window _ h, offsetOf_window _ h]

theorem memWrite_window {w p off size : Nat} {v : Word} {s : State} (h : off < 256) :
    memWrite w (256 * p + off) size v s = withEngine p (.outsideWindow (256 * p + off)) s (windowWrite w off size v) := by
  rw [memWrite, pageOf_window _ h, offsetOf_window _ h]

theorem pollStatus_here {w : Nat} {s : State} :
    pollStatus w (256 * s.engine.page + 0x74) s = readThen w 0x74 4 (fun v u =>
      if v.getLsbD 1 then .next u
      else .next { u with agenda := engineTurns u ++ .poll w (256 * s.engine.page + 0x74) :: u.agenda }) s := by
  rw [pollStatus_eq, pageOf_window _ (by decide), offsetOf_window _ (by decide), withEngine_self]

/-! ### Refused accesses (20 R72, R73) -/

/-- What every state refuses is refused at any instance. -/
theorem withEngine_refused {e : Engine} {a r : Refusal} {s : State} {f : State → StepResult}
    (he : e ∈ s.engine :: s.others) (hf : ∀ t, f t = .refused r) : withEngine e.page a s f = .refused r := by
  obtain ⟨t, ht⟩ := focus_isSome he
  simp only [withEngine, ht, hf, ite_self]

theorem memRead_refused {e : Engine} {w off size : Nat} {d : Option Nat} {r : Refusal} {s : State}
    (he : e ∈ s.engine :: s.others) (h : off < 256) (ht : readTarget off size = .error (.refused r)) :
    memRead w (256 * e.page + off) size d s = .refused r := by
  rw [memRead_window h]
  exact withEngine_refused he fun t => readThen_of_stop (windowRead_of_target_stop ht)

theorem memWrite_refused {e : Engine} {w off size : Nat} {v : Word} {r : Refusal} {s : State}
    (he : e ∈ s.engine :: s.others) (h : off < 256) (ht : writeTarget off size = .error (.refused r)) :
    memWrite w (256 * e.page + off) size v s = .refused r := by
  rw [memWrite_window h]
  exact withEngine_refused he fun t => windowWrite_of_target_stop ht

/-- Settles O47: each of these accesses is stopped by the check of its target, which looks at no instance. -/
theorem windowRefusesOtherAccesses : Obligations.WindowRefusesOtherAccesses := by
  intro s e w off size v dest he hlt
  refine ⟨fun h => ?_, fun h => ?_, ?_⟩
  · have hr : accessShape off size = true → windowReg off = none := fun hs => by
      obtain ⟨h4, hm⟩ := accessShape_iff.mp hs
      exact windowReg_reserved hm hlt (by omega)
    exact ⟨memRead_refused he hlt (readTarget_refused hr),
      memWrite_refused he hlt (writeTarget_refused fun hs => .inl (hr hs))⟩
  · refine memWrite_refused he hlt (writeTarget_refused fun hs => ?_)
    obtain rfl | h := h
    · exact .inr (.inl rfl)
    · exact (windowReg_high (accessShape_iff.mp hs).2 h hlt).imp_right .inr
  · rintro rfl
    by_cases hs : size = 4
    · subst hs
      exact ⟨_, memRead_refused (r := .cmdRead) he hlt rfl, by simp [refusalReasons], by simp [refusalReasons]⟩
    · have ht : readTarget 0x70 size = .error (.refused (.windowAccess 0x70)) :=
        readTarget_refused fun h => absurd (accessShape_iff.mp h).1 hs
      exact ⟨_, memRead_refused he hlt ht, by simp [refusalReasons], fun h => absurd h hs⟩

/-! ### The poll (20 R77) -/

/-- Settles O51: the owner's claim changes nothing, so the read of STATUS alone decides. -/
theorem pollWaitsForOutValid : Obligations.PollWaitsForOutValid := by
  intro s w ho addr
  have hpoll : runEvent (.poll w addr) s =
      if s.engine.status.outValid then .next s else .next { s with agenda := engineTurns s ++ .poll w addr :: s.agenda } := by
    rw [← Status.word_bit_one]
    exact pollStatus_here.trans (readThen_of_value (windowRead_of_value readTarget_status (claim_self ho) rfl))
  constructor
  · intro hv
    rw [hpoll, if_pos hv]
  · intro hv
    refine ⟨engineTurns s, by rw [hpoll, hv]; rfl, fun ev hev => ?_, fun e he hne => ?_⟩
    · obtain ⟨e, he, rfl⟩ := List.mem_map.mp hev
      exact ⟨e, List.mem_of_mem_filter he, rfl⟩
    · exact List.mem_map.mpr ⟨e, List.mem_filter.mpr ⟨he, bne_iff_ne.mpr hne⟩, rfl⟩

/-! ### Interleaved accesses (20 R86) -/

/-- The host's COMPRESS word with no operand record is refused where its worker may not take the window. -/
theorem issueWord_compress_of_claim_stop {l : Line} {x : Stop} {s : State} (hi : l.issuer = .host) (he : l.engine = none)
    (ha : l.args = []) (hc : claim l.worker { s with line := l } = .error x) :
    issueWord l 0x01000000#32 s = stopResult x := by
  have hd : decode 0x01000000#32 = .ok .compress := by decide
  have hm : mayIssue .host Instr.compress.opClass = true := rfl
  simp only [issueWord, hd, hi, hm, he, onEngine_none, if_true, issueAs, hostIssue, ha, hc, and_self]

/-- A worker whose accesses have ended has none that is taken. -/
theorem accessesRefused_of_past {w o : Nat} {s : State} (h : s.engine.owner = some o) (hne : o ≠ w)
    (hp : w ∈ s.engine.past) : accessesRefused w s := by
  have hc := claim_refused h hne hp
  refine ⟨fun off dest h4 hoff => ?_, fun off v h4 hoff => ?_, ?_, fun got dest hgot => ?_, fun dest => ?_⟩
  · obtain ⟨r, hr⟩ := readTarget_readable h4 hoff
    exact memRead_here_stop (by omega) (windowRead_of_claim_stop hr hc)
  · obtain ⟨r, hr⟩ := writeTarget_writable h4 hoff
    exact (memWrite_here (by omega)).trans (windowWrite_of_claim_stop hr hc)
  · exact pollStatus_here.trans (readThen_of_stop (windowRead_of_claim_stop readTarget_status hc))
  · refine (readOut_eq ..).trans ?_
    rw [withEngine_self]
    exact readThen_of_stop (windowRead_of_claim_stop (readTarget_out ⟨got.length, by omega⟩) hc)
  · exact issueWord_compress_of_claim_stop (l := ⟨.host, w, none, [], dest⟩) rfl rfl rfl
      (claim_refused (s := { s with line := ⟨.host, w, none, [], dest⟩ }) h hne hp)

/-- Settles O50: every access claims the window first, and a newcomer's claim puts the owner before among the past. -/
theorem interleavedAccessIsRefused : Obligations.InterleavedAccessIsRefused := by
  intro s w o ho hne
  refine ⟨accessesRefused_of_past ho hne, fun hp => ?_⟩
  have hc := claim_takeover ho hne hp
  refine ⟨fun off v h4 hlt => ?_, fun n => ?_, ?_⟩
  · obtain ⟨r, -, -, hr, hcmd, -⟩ := windowReg_request h4 hlt
    exact ⟨_, (memWrite_here (by omega)).trans (windowWrite_of_request hr hcmd hc), by simp,
      accessesRefused_of_past (by simp) hne.symm (by simp)⟩
  · exact ⟨_, memRead_here (by decide) (windowRead_of_value readTarget_status hc rfl), by simp,
      accessesRefused_of_past (by simp) hne.symm (by simp)⟩
  · exact (memWrite_here (by decide)).trans (windowWrite_of_command hc)

/-! ### Names bound to what was read (30 R109) -/

/-- Binding writes the bound names only, and what they become depends on nothing else. -/
theorem bindTo_frame (d : Option Nat) (val : Value) {s u : State} (h : u.env = s.env) :
    bindTo d val u = { u with env := (bindTo d val s).env } := by
  cases d with
  | none => rw [bindTo_none, bindTo_none, ← h]
  | some n => rw [bindTo_some, bindTo_some, h]

/-- A name other than the one bound keeps its value. -/
theorem envGet_bindTo_other {d : Option Nat} {m : Nat} (h : d ≠ some m) (val : Value) (s : State) :
    envGet m (bindTo d val s).env = envGet m s.env := by
  cases d with
  | none => rfl
  | some n => exact envGet_envSet_other (fun e => h (congrArg some e)) val s.env

theorem envGet_bindTo_same {d : Option Nat} {m : Nat} (h : d = some m) (val : Value) (s : State) :
    envGet m (bindTo d val s).env = some val := by
  subst h
  exact envGet_envSet_same m val s.env

/-! ### Accesses at any instance (20 R71, 60 R324) -/

/-- `put` puts an instance with the window page `page` at one place among the instances of `s`, and what is done on
that instance is seen there alone. While it is done the instance is the one addressed, with `os` as the others. -/
structure Place (s : State) (page : Nat) (put : Engine → State) (os : List Engine) : Prop where
  env : ∀ e, (put e).env = s.env
  agenda : ∀ e, (put e).agenda = s.agenda
  next : ∀ {a f e e' env agenda}, e.page = page → e'.page = page →
    f { s with engine := e, others := os } = .next { s with engine := e', others := os, env := env, agenda := agenda } →
    withEngine page a (put e) f = .next { put e' with env := env, agenda := agenda }
  stop : ∀ {a f e} {x : Stop}, e.page = page → f { s with engine := e, others := os } = stopResult x →
    withEngine page a (put e) f = stopResult x

/-- The place of the instance addressed. -/
theorem place_engine (s : State) : Place s s.engine.page (fun e => { s with engine := e }) s.others where
  env _ := rfl
  agenda _ := rfl
  next := by
    intro a f e e' env agenda he _ hf
    rw [← he]
    exact (withEngine_self a { s with engine := e } f).trans hf
  stop := by
    intro a f e x he hf
    rw [← he]
    exact (withEngine_self a { s with engine := e } f).trans hf

/-- The place of another instance, where the instances have windows of their own. -/
theorem place_others {s : State} {pre post : List Engine} {x : Engine} (hd : ((s.engine :: s.others).map Engine.page).Nodup)
    (ho : s.others = pre ++ x :: post) :
    Place s x.page (fun e => { s with others := pre ++ e :: post }) (pre ++ s.engine :: post) := by
  have hd' : ∀ e : Engine, e.page = x.page → ((s.engine :: (pre ++ e :: post)).map Engine.page).Nodup := fun e he => by
    simpa [ho, he] using hd
  refine ⟨fun _ => rfl, fun _ => rfl, ?_, ?_⟩
  · intro a f e e' env agenda he he' hf
    rw [← he]
    exact withEngine_other (s := { s with others := pre ++ e :: post }) (hd' e he) rfl hf (he'.trans he.symm) rfl
  · intro a f e y he hf
    rw [← he]
    cases y with
    | fault y => exact withEngine_other_fault (s := { s with others := pre ++ e :: post }) (hd' e he) rfl hf
    | refused y => exact withEngine_other_refused (s := { s with others := pre ++ e :: post }) (hd' e he) rfl hf

namespace Place

variable {s : State} {page : Nat} {put : Engine → State} {os : List Engine} (P : Place s page put os)
variable {e : Engine} {w off : Nat} {r : WinReg} {v : Word} {x : Stop} {got : List Nat} {i : Fin 16}
include P

/-- What was put in place has the names and the agenda of `s`. -/
theorem put_eq (e : Engine) : { put e with env := s.env, agenda := s.agenda } = put e := by
  rw [← P.env e, ← P.agenda e]

theorem put_env (e : Engine) : { put e with env := s.env } = put e := by
  rw [← P.env e]

section
variable (he : e.page = page) (ho : e.owner = none ∨ e.owner = some w)
include he ho

/-- A write of a request register by a worker that has the window or finds it free. -/
theorem write_next (hoff : off < 256) (ht : writeTarget off 4 = .ok r) (hr : r ≠ .cmd) :
    runEvent (.write w (256 * page + off) 4 v) (put e) = .next (put (writeReg r v { e with owner := some w })) := by
  rw [← P.put_eq (writeReg r v { e with owner := some w })]
  exact (memWrite_window hoff).trans
    (P.next he ((writeReg_page r v _).trans he) (windowWrite_of_request ht hr (claim_of_owner ho)))

/-- A read by such a worker binds the word read and changes the window's owner only. -/
theorem read_next (hoff : off < 256) (ht : readTarget off 4 = .ok r) (hr : readReg e r = .ok v) (d : Option Nat) :
    runEvent (.read w (256 * page + off) 4 d) (put e) =
      .next { put { e with owner := some w } with env := (bindTo d (.int v.toNat) s).env } := by
  rw [← P.put_eq { e with owner := some w }]
  refine (memRead_window hoff).trans (P.next he he ?_)
  exact (readThen_of_value (windowRead_of_owner ho ht hr)).trans (congrArg _ (bindTo_frame d _ rfl))

theorem read_stop (hoff : off < 256) (ht : readTarget off 4 = .ok r) (hr : readReg e r = .error x) (d : Option Nat) :
    runEvent (.read w (256 * page + off) 4 d) (put e) = stopResult x :=
  (memRead_window hoff).trans (P.stop he (readThen_of_stop (windowRead_of_owner_stop ho ht hr)))

/-- A read of OUT that ends a host sequence stops where OUT has no value (20 R77). -/
theorem readOut_stop (hi : got.length = i.val) (hr : readReg e (.out i) = .error x) (d : Option Nat) :
    runEvent (.readOut w page got d) (put e) = stopResult x := by
  refine (readOut_eq ..).trans ?_
  rw [hi]
  exact P.stop he (readThen_of_stop (windowRead_of_owner_stop ho (readTarget_out i) hr))

/-- Before the sixteenth word the reads that are left stand next. -/
theorem readOut_more (hi : got.length = i.val) (hr : readReg e (.out i) = .ok v) (hlast : i ≠ 15) (d : Option Nat) :
    runEvent (.readOut w page got d) (put e) =
      .next { put { e with owner := some w } with agenda := .readOut w page (got ++ [v.toNat]) d :: s.agenda } := by
  have hne : i.val ≠ 15 := fun h => hlast (Fin.ext h)
  rw [← P.put_eq { e with owner := some w }]
  refine (readOut_eq ..).trans ?_
  rw [hi]
  refine P.next he he ((readThen_of_value (windowRead_of_owner ho (readTarget_out i) hr)).trans ?_)
  rw [if_neg hne]

/-- The sixteenth word ends the sequence. -/
theorem readOut_last (hi : got.length = i.val) (hr : readReg e (.out i) = .ok v) (hlast : i = 15) (d : Option Nat) :
    runEvent (.readOut w page got d) (put e) =
      .next { put { e with owner := some w } with env := (bindTo d (.words (got ++ [v.toNat])) s).env } := by
  have hend : i.val = 15 := congrArg Fin.val hlast
  rw [← P.put_eq { e with owner := some w }]
  refine (readOut_eq ..).trans ?_
  rw [hi]
  refine P.next he he ((readThen_of_value (windowRead_of_owner ho (readTarget_out i) hr)).trans ?_)
  rw [if_pos hend]
  exact congrArg _ (bindTo_frame d _ rfl)

end

end Place

/-! ### Reading back what was written -/

/-- A write of a request register leaves what the offsets of the other registers read as it was. -/
theorem map_readReg_writeReg {off off' : Nat} {r : WinReg} (hr : windowReg off = some r) (h4 : off % 4 = 0)
    (h4' : off' % 4 = 0) (hne : off' ≠ off) (v : Word) (e : Engine) :
    (windowReg off').map (readReg (writeReg r v e)) = (windowReg off').map (readReg e) := by
  cases hr' : windowReg off' with
  | none => rfl
  | some r' =>
    refine congrArg some (readReg_writeReg_other ?_ v e)
    rintro rfl
    have := windowReg_injective hr hr'
    omega

/-- The owner stays the owner. -/
theorem setOwner_self {e : Engine} {w : Nat} (h : e.owner = some w) : { e with owner := some w } = e := by
  rw [← h]

/-- Settles O46: at its place among the instances, the write leaves the register written and the window its worker's; the
read finds both, and what it reads is what the register kept of the word. -/
theorem windowReadsBackWhatWasWritten : Obligations.WindowReadsBackWhatWasWritten := by
  intro s w off n v h4 hlt value onlyThis
  obtain ⟨r, hr, hrt, hwt, hc, hs, hout, hbd⟩ := windowReg_request h4 hlt
  have key : ∀ {e : Engine} {put : Engine → State} {os : List Engine}, Place s e.page put os → put e = s →
      (e.owner = none ∨ e.owner = some w) →
      ∃ e' u, runEvent (.write w (256 * e.page + off) 4 v) s = .next (put e') ∧
        runEvent (.read w (256 * e.page + off) 4 (some n)) (put e') = .next u ∧
        envGet n u.env = some value ∧ (∀ m, m ≠ n → envGet m u.env = envGet m (put e').env) ∧
        { u with env := (put e').env } = put e' ∧ onlyThis e e' := by
    intro e put os P hput ho
    have hown : (writeReg r v { e with owner := some w }).owner = some w := writeReg_owner ..
    have hoff : off < 256 := by omega
    have hwrite := P.write_next rfl ho (v := v) hoff hwt hc
    have hread := P.read_next (e := writeReg r v { e with owner := some w }) (writeReg_page r v _) (.inr hown) hoff hrt
      (readReg_writeReg_same hc hs hout v _) (some n)
    rw [hput] at hwrite
    rw [setOwner_self hown] at hread
    refine ⟨_, _, hwrite, hread, ?_, fun m hm => ?_, rfl, fun off' h4' _ hne _ => ?_, ?_⟩
    · rw [envGet_bindTo_same rfl, keptWord_toNat]
      simp only [value, hbd]
    · rw [envGet_bindTo_other (by simpa using hm.symm), P.env]
    · rw [map_readReg_writeReg hr h4 h4' hne]
      exact congrArg (Option.map · _) (funext (readReg_owner _ e))
    · rw [writeReg_frame]
  exact ⟨key (place_engine s) rfl,
    fun pre post e hd hs ho => key (place_others hd hs) (by rw [← hs]) ho⟩

/-! ### Reads of OUT and STATUS -/

/-- Settles O48: at its place among the instances, each read stops or completes as its register does. -/
theorem windowReadsOfOutAndStatus : Obligations.WindowReadsOfOutAndStatus := by
  intro s w n i readsAs
  have key : ∀ {e : Engine} {put : Engine → State} {os : List Engine}, Place s e.page put os → put e = s →
      readsAs e put := by
    intro e put os P hput ho completes
    have hout : 0x80 + 4 * i.val < 256 := by omega
    have hcompletes {off r v} (hoff : off < 256) (ht : readTarget off 4 = .ok r) (hr : readReg e r = .ok v) :
        completes off v.toNat := by
      have hread := P.read_next rfl ho hoff ht hr (some n)
      rw [hput] at hread
      exact ⟨_, { e with owner := some w }, hread, envGet_bindTo_same rfl _ s,
        fun m hm => envGet_bindTo_other (by simpa using hm.symm) _ s, P.put_env _, rfl⟩
    have hstops {off r f} (hoff : off < 256) (ht : readTarget off 4 = .ok r) (hr : readReg e r = .error (.fault f)) :
        runEvent (.read w (256 * e.page + off) 4 (some n)) s = .fault f :=
      hput ▸ P.read_stop rfl ho hoff ht hr (some n)
    refine ⟨fun hv => hstops hout (readTarget_out i) (readReg_out_fault hv i),
      fun hv => hcompletes hout (readTarget_out i) (readReg_out_value hv i), fun off r h4 hr hmark => ?_,
      fun got dest hi => ⟨fun hv => ?_, fun hv => ?_⟩, ?_⟩
    · have hfault := readReg_unwritten hmark
      have hcmd : r ≠ .cmd := by rintro rfl; cases hfault
      exact hstops ((windowReg_lt hr).trans (by decide)) (readTarget_of_windowReg h4 hr hcmd) hfault
    · have hread := P.readOut_stop rfl ho hi (readReg_out_fault hv i) dest
      rwa [hput] at hread
    · by_cases hlast : i = 15
      · have hread := P.readOut_last rfl ho hi (readReg_out_value hv i) hlast dest
        rw [hput] at hread
        exact ⟨_, { e with owner := some w }, hread, rfl, fun h => absurd hlast h, fun _ => ⟨P.put_env _,
          fun m hm => envGet_bindTo_same hm _ s, fun m hm => envGet_bindTo_other hm _ s⟩⟩
      · have hread := P.readOut_more rfl ho hi (readReg_out_value hv i) hlast dest
        rw [hput] at hread
        exact ⟨_, { e with owner := some w }, hread, rfl, fun _ => rfl, fun h => absurd h hlast⟩
    · rw [← Status.word_toNat]
      exact hcompletes (by decide) readTarget_status rfl
  exact ⟨key (place_engine s) rfl, fun pre post e hd hs => key (place_others hd hs) (by rw [← hs])⟩

end Sys2Proof.Machine
end

section
/-! PROOFS. The encoding (30_encoding.md R100 to R107): the encoder's words have the fields they were put together from, and
each outcome of the decoder is said by the fields of the word. -/

namespace Sys2Proof

/-! ### The fields of the encoder's words (30 R100, R102) -/

@[simp] theorem opField_packN (op : Byte) : opField (packN op) = op := BitVec.extractLsb'_append_eq_left

@[simp] theorem operandField_packN (op : Byte) : (packN op).extractLsb' 0 24 = 0#24 := BitVec.extractLsb'_append_eq_right

@[simp] theorem gFieldsOf_packG (f : GFields) : gFieldsOf (packG f) = f := by
  have last {n : Nat} (p : BitVec n) (q : Nibble) : (p ++ q).extractLsb' (4 * 0) 4 = q :=
    BitVec.extractLsb'_append_eq_right
  have above {n : Nat} (p : BitVec n) (q : Nibble) (k : Nat) :
      (p ++ q).extractLsb' (4 * (k + 1)) 4 = p.extractLsb' (4 * k) 4 :=
    BitVec.extractLsb'_append_eq_of_le (by omega)
  simp only [gFieldsOf, nibbleField, packG, above, last]

/-- The selector as 30 R107 reads it off the word. -/
theorem opField_toNat (w : Word) : (opField w).toNat = (w >>> 24).toNat := by
  have hw := w.isLt
  rw [opField, BitVec.extractLsb'_toNat, BitVec.toNat_ushiftRight, Nat.shiftRight_eq_div_pow]
  omega

theorem operandField_eq_zero_iff (w : Word) : w.extractLsb' 0 24 = 0#24 ↔ w.toNat % 2 ^ 24 = 0 := by
  simp [← BitVec.toNat_inj, BitVec.extractLsb'_toNat]

/-- The words of the call table's tuples, among the words of Format G (30 R103). -/
theorem mem_callWords_iff {w : Word} (h : opField w = 0x03#8) : w ∈ legalG.map packG ↔ gFieldsOf w ∈ legalG := by
  constructor
  · intro hw
    obtain ⟨f, hf, rfl⟩ := List.mem_map.mp hw
    rwa [gFieldsOf_packG]
  · intro hf
    exact List.mem_map.mpr ⟨_, hf, packG_gFieldsOf h⟩

/-! ### The decoder by its selector (30 R105, R107) -/

/-- A selector is Format G's, reserved, or names a Format N operation. -/
theorem selector_cases (op : Byte) : op = 0x03#8 ∨ (op ≠ 0x03#8 ∧ formatN op = none) ∨ ∃ i, formatN op = some i := by
  by_cases hop : op = 0x03#8
  · exact .inl hop
  · cases hf : formatN op with
    | none => exact .inr (.inl ⟨hop, rfl⟩)
    | some i => exact .inr (.inr ⟨i, rfl⟩)

theorem formatN_ne_three {op : Byte} {i : Instr} (h : formatN op = some i) : op ≠ 0x03#8 := by
  rintro rfl
  cases h

/-- The selectors of the Format N operations (30 R105). -/
theorem formatN_some_range {op : Byte} {i : Instr} (h : formatN op = some i) :
    op.toNat = 1 ∨ op.toNat = 2 ∨ (4 ≤ op.toNat ∧ op.toNat ≤ 6) ∨ (16 ≤ op.toNat ∧ op.toNat ≤ 24) := by
  have hne := formatN_ne_three h
  have hreserved := (not_congr (formatN_none op hne)).mp (by simp [h])
  have h3 : op.toNat ≠ 3 := fun e => hne (BitVec.eq_of_toNat_eq e)
  omega

theorem decode_of_formatG {w : Word} (h : opField w = 0x03#8) :
    decode w = if gFieldsOf w ∈ legalG
      then .ok (.g (gFieldsOf w).a (gFieldsOf w).b (gFieldsOf w).c (gFieldsOf w).d (gFieldsOf w).x (gFieldsOf w).y)
      else .error .illegalGFields := by
  simp only [decode, if_pos h, decodeG, List.contains_iff_mem]

theorem decode_of_formatN {w : Word} {i : Instr} (h : formatN (opField w) = some i) :
    decode w = if w.extractLsb' 0 24 = 0#24 then .ok i else .error .nonZeroOperandField := by
  simp only [decode, if_neg (formatN_ne_three h), h]

theorem decode_of_reserved {w : Word} (hop : opField w ≠ 0x03#8) (h : formatN (opField w) = none) :
    decode w = .error .reservedOp := by
  simp only [decode, if_neg hop, h]

/-! ### Decoder and encoder -/

theorem decode_packN {op : Byte} {i : Instr} (h : formatN op = some i) : decode (packN op) = .ok i := by
  rw [decode_of_formatN (by rwa [opField_packN]), if_pos (operandField_packN op)]

theorem decode_packG {f : GFields} (h : f ∈ legalG) : decode (packG f) = .ok (.g f.a f.b f.c f.d f.x f.y) := by
  rw [decode_of_formatG (Laws.SelectorRange.opField_packG f), gFieldsOf_packG, if_pos h]

theorem decode_encode {i : Instr} (h : i.wf = true) : decode (encode i) = .ok i := by
  cases i with
  | g a b c d x y => exact decode_packG (List.contains_iff_mem.mp h)
  | compress | init | round | permute | finalize => exact decode_packN rfl
  | lcgNew | lcgNext | toFixedBinary | fromBinary | buildVector | serializeVector => exact decode_packN rfl
  | runSuite | runSingle | chainCv => exact decode_packN rfl

/-- Settles O1: Format N by its selector, Format G by its six nibbles. -/
theorem encodeThenDecodeGivesTheInstruction : Obligations.EncodeThenDecodeGivesTheInstruction :=
  fun _ h => decode_encode h

theorem encode_of_decode {w : Word} {i : Instr} (h : decode w = .ok i) : i.wf = true ∧ w = encode i := by
  rcases selector_cases (opField w) with hop | ⟨hop, hf⟩ | ⟨j, hf⟩
  · rw [decode_of_formatG hop] at h
    split at h
    · rename_i hlegal
      cases h
      exact ⟨List.contains_iff_mem.mpr hlegal, (packG_gFieldsOf hop).symm⟩
    · cases h
  · rw [decode_of_reserved hop hf] at h
    cases h
  · rw [decode_of_formatN hf] at h
    split at h
    · rename_i hzero
      cases h
      obtain ⟨hword, hwf⟩ := formatN_some hf
      exact ⟨hwf, (hword.trans (packN_opField hzero)).symm⟩
    · cases h

/-- Settles O2: a word is put together again from the fields the decoder has looked at. -/
theorem decodedWordsAreTableWords : Obligations.DecodedWordsAreTableWords :=
  fun _ _ h => encode_of_decode h

/-- The words 30 R107 lists as the legal ones of Format G. -/
theorem callWords_eq : legalG.map packG =
    [0x03048C01, 0x03159D23, 0x0326AE45, 0x0337BF67, 0x0305AF89, 0x0316BCAB, 0x03278DCD, 0x03349EEF] := by decide

/-- Settles O3: the selector says which of the refusals the word may get, and its operand fields whether it does. -/
theorem undecodableWordsAreRefusedByReason : Obligations.UndecodableWordsAreRefusedByReason := by
  intro w op
  rw [← callWords_eq]
  have hselector : (opField w).toNat = op := opField_toNat w
  rcases selector_cases (opField w) with hop | ⟨hop, hf⟩ | ⟨i, hf⟩
  · have h3 : op = 3 := hselector ▸ congrArg BitVec.toNat hop
    rw [decode_of_formatG hop]
    by_cases hw : gFieldsOf w ∈ legalG
    · rw [if_pos hw]
      exact ⟨iff_of_false nofun (by omega), iff_of_false nofun (by omega),
        iff_of_false nofun fun h => h.2 ((mem_callWords_iff hop).mpr hw)⟩
    · rw [if_neg hw]
      exact ⟨iff_of_false nofun (by omega), iff_of_false nofun (by omega),
        iff_of_true rfl ⟨h3, fun h => hw ((mem_callWords_iff hop).mp h)⟩⟩
  · have hreserved := hselector ▸ (formatN_none _ hop).mp hf
    rw [decode_of_reserved hop hf]
    exact ⟨iff_of_true rfl hreserved, iff_of_false nofun (by omega), iff_of_false nofun (by omega)⟩
  · have hnamed := hselector ▸ formatN_some_range hf
    rw [decode_of_formatN hf]
    by_cases hw : w.extractLsb' 0 24 = 0#24
    · rw [if_pos hw]
      exact ⟨iff_of_false nofun (by omega), iff_of_false nofun fun h => h.2 ((operandField_eq_zero_iff w).mp hw),
        iff_of_false nofun (by omega)⟩
    · rw [if_neg hw]
      exact ⟨iff_of_false nofun (by omega), iff_of_true rfl ⟨hnamed, mt (operandField_eq_zero_iff w).mpr hw⟩,
        iff_of_false nofun (by omega)⟩

/-- Settles O4: each of them is the encoder's word of a well-formed instruction. -/
theorem tableWordsDecode : Obligations.TableWordsDecode := by
  have key {w : Word} {i : Instr} (hw : encode i = w) (hi : i.wf = true) : decode w = .ok i := hw ▸ decode_encode hi
  unfold Obligations.TableWordsDecode
  and_intros <;> exact key rfl rfl

end Sys2Proof
end

section
/-! PROOFS. ROUND and its calls (30_encoding.md R103, R111, 44_compression_engine.md R207, R208): a list of legal calls folds
over V. -/

namespace Sys2Proof.Machine

open Sys2Proof

/-- The G of an operand tuple. -/
def gInstr (f : GFields) : Instr := .g f.a f.b f.c f.d f.x f.y

theorem exec_gInstr_of_latched {s : State} {f : GFields} (h : legalG.contains f = true) (hl : s.engine.latched = true) :
    exec (gInstr f) s = .next (setEngine { s.engine with v := gCall s.engine.ms s.engine.v f } s) :=
  execG_next_of_latched h hl

/-- An instruction that completes hands its state on to the ones after it. -/
theorem execAll_cons_of_next {i : Instr} {is : List Instr} {s t : State} (h : exec i s = .next t) :
    execAll (i :: is) s = execAll is t := by
  simp only [execAll, h]

/-- Legal calls on a latched engine complete, each on the V the one before has left. -/
theorem execAll_calls {fs : List GFields} {s : State} (hlegal : ∀ f ∈ fs, legalG.contains f = true)
    (hl : s.engine.latched = true) :
    execAll (fs.map gInstr) s =
      .next (setEngine { s.engine with v := fs.foldl (gCall s.engine.ms) s.engine.v } s) := by
  induction fs generalizing s with
  | nil => rfl
  | cons f fs ih =>
    obtain ⟨hf, hfs⟩ := List.forall_mem_cons.mp hlegal
    exact (execAll_cons_of_next (exec_gInstr_of_latched hf hl)).trans (ih hfs hl)

/-- ROUND's expansion is the calls of the table in order (30 R111). -/
theorem roundProgram_eq : roundProgram = gcallTable.toList.map gInstr := rfl

/-- Every call of the table is legal (30 R103). -/
theorem gcallTable_legal : ∀ f ∈ gcallTable.toList, legalG.contains f = true := by decide

theorem execAll_roundProgram {s : State} (hl : s.engine.latched = true) : execAll roundProgram s = execRound s := by
  rw [roundProgram_eq, execAll_calls gcallTable_legal hl, execRound_next_of_latched hl, roundV]

/-- Settles O12: ROUND and its calls leave the same V. -/
theorem roundIsItsEightCalls : Obligations.RoundIsItsEightCalls :=
  fun _ hl => ⟨_, execRound_next_of_latched hl, (execAll_roundProgram hl).trans (execRound_next_of_latched hl), rfl⟩

/-- Settles O11: `execG` asks for the same tuples as well-formedness does. -/
theorem gOutsideTheCallTableIsRefused : Obligations.GOutsideTheCallTableIsRefused := by
  intro s a b c d x y hwf
  have hillegal : ¬ legalG.contains ⟨a, b, c, d, x, y⟩ = true := Bool.not_eq_true _ ▸ hwf
  exact if_neg hillegal

end Sys2Proof.Machine
end

section
/-! PROOFS. Issuing a word (30_encoding.md R101, R106, R107, 60_exceptions.md R320 to R326): what becomes of it by its issuer,
and what the step makes of the outcome. -/

namespace Sys2Proof.Machine

open Sys2Proof

/-! ### The outcome of an event (60 R320) -/

theorem keepHeld_held {ev : Event} {o : StepResult} {t : State} (ho : o = .next t) (hh : t.hold ≠ none) :
    keepHeld ev o = .next { t with agenda := ev :: t.agenda } := by
  subst ho
  simp [keepHeld, Option.isSome_iff_ne_none, hh]

@[simp] theorem keepHeld_fault (ev : Event) (x : Fault) : keepHeld ev (.fault x) = .fault x := rfl
@[simp] theorem keepHeld_refused (ev : Event) (x : Refusal) : keepHeld ev (.refused x) = .refused x := rfl

/-- A micro-operation records no hold (60 R321). -/
theorem exec_micro_hold {i : Instr} {s t : State} (hc : i.opClass = .microOp) (h : exec i s = .next t)
    (hh : s.hold = none) : t.hold = none := by
  cases i with
  | init => obtain ⟨r, -, rfl⟩ := execInit_next h; exact hh
  | g a b c d x y => obtain ⟨-, rfl⟩ := execG_next h; exact hh
  | round => obtain ⟨-, rfl⟩ := execRound_next h; exact hh
  | permute => obtain ⟨-, rfl⟩ := execPermute_next h; exact hh
  | finalize => obtain ⟨-, rfl⟩ := execFinalize_next h; simp [liftHold_eq, hh]
  | compress => cases hc
  | lcgNew | lcgNext | toFixedBinary | fromBinary | buildVector | serializeVector | runSuite | runSingle | chainCv => cases hc

/-! ### Who issues what (30 R101) -/

theorem mayIssue_host {c : OpClass} : mayIssue .host c = true ↔ c ≠ .microOp := by cases c <;> decide
theorem mayIssue_sequencer {c : OpClass} : mayIssue .sequencer c = true ↔ c = .microOp := by cases c <;> decide

section
variable {l : Line} {w : Word} {i : Instr} {s : State}

theorem issueAs_host (hi : l.issuer = .host) : issueAs l w i s = hostIssue i s := by
  simp only [issueAs, hi]

theorem issueAs_sequencer (hi : l.issuer = .sequencer) : issueAs l w i s = sequencerIssue w i s := by
  simp only [issueAs, hi]

theorem hostIssue_of_not_command (h : i ≠ .compress ∨ s.line.args ≠ []) : hostIssue i s = exec i s :=
  if_neg (not_and_or.mpr h)

theorem hostIssue_of_claim {e : Engine} (ha : s.line.args = []) (hc : claimWindow s.line.worker s.engine = some e) :
    hostIssue .compress s = exec .compress { s with engine := e } := by
  simp only [hostIssue, ha, claim, hc, and_self, if_true, setEngine]

theorem hostIssue_of_no_claim (ha : s.line.args = []) (hc : claimWindow s.line.worker s.engine = none) :
    hostIssue .compress s = .refused .interleavedWindowAccess := by
  simp only [hostIssue, ha, claim, hc, and_self, if_true, stopResult]

theorem sequencerIssue_next_of_turn {t : State} (hw : w ∈ sequencerWords s.engine) (h : exec i s = .next t) :
    sequencerIssue w i s = .next { t with engine := advanceSeq i t.engine } := by
  simp [sequencerIssue, hw, h, setEngine]

theorem sequencerIssue_fault_of_turn {x : Fault} (hw : w ∈ sequencerWords s.engine) (h : exec i s = .fault x) :
    sequencerIssue w i s = .fault x := by
  simp [sequencerIssue, hw, h]

theorem sequencerIssue_refused_of_turn {x : Refusal} (hw : w ∈ sequencerWords s.engine) (h : exec i s = .refused x) :
    sequencerIssue w i s = .refused x := by
  simp [sequencerIssue, hw, h]

theorem sequencerIssue_out_of_turn (hw : w ∉ sequencerWords s.engine) : sequencerIssue w i s = .refused .outOfSequence := by
  simp [sequencerIssue, hw]

theorem issueWord_of_decode (hd : decode w = .ok i) (hm : mayIssue l.issuer i.opClass = true) :
    issueWord l w s = onEngine l.engine { s with line := l } (issueAs l w i) := by
  simp only [issueWord, hd, hm, if_true]

theorem issueWord_of_wrong_issuer (hd : decode w = .ok i) (hm : ¬ mayIssue l.issuer i.opClass = true) :
    issueWord l w s = .refused .notACommand := by
  simp only [issueWord, hd, if_neg hm]

theorem issueWord_of_undecodable {r : DecodeRefusal} (hd : decode w = .error r) :
    issueWord l w s = .refused (decodeRefusal r) := by
  simp only [issueWord, hd]

/-- The step that issues a word. -/
theorem step_word {rest : List Event} (hh : s.hold = none) (ha : s.agenda = .word l w :: rest) :
    step s = keepHeld (.word l w) (issueWord l w { s with agenda := rest }) :=
  step_event hh ha

end

/-- Settles O5: the word is issued on the instance its line names, and the step keeps the event where that ends in a hold,
which no micro-operation does. -/
theorem stepRunsTheDecodedWord : Obligations.StepRunsTheDecodedWord := by
  intro s l w i rest hh ha hd hm s0
  have hstep : step s = keepHeld (.word l w) (onEngine l.engine s0 (issueAs l w i)) :=
    (step_word hh ha).trans (congrArg _ (issueWord_of_decode hd hm))
  refine ⟨fun he hi hc => ?_, ?_, fun he hi hw => ?_, fun p he => ?_⟩
  · have hexec : step s = keepHeld (.word l w) (exec i s0) := by
      rw [hstep, he, onEngine_none, issueAs_host hi, hostIssue_of_not_command hc]
    exact ⟨fun t ht hn => hexec.trans (keepHeld_next ht hn), fun t ht hn => hexec.trans (keepHeld_held ht hn),
      fun f hf => by rw [hexec, hf, keepHeld_fault], fun r hr => by rw [hexec, hr, keepHeld_refused]⟩
  · rintro he rfl hargs
    have hi : l.issuer = .host := by
      cases hi : l.issuer with
      | host => rfl
      | sequencer => cases mayIssue_sequencer.mp (hi ▸ hm)
    have hhost : step s = keepHeld (.word l w) (hostIssue .compress s0) := by
      rw [hstep, he, onEngine_none, issueAs_host hi]
    exact ⟨fun e hc => by rw [hhost, hostIssue_of_claim hargs hc],
      fun hc => by rw [hhost, hostIssue_of_no_claim hargs hc, keepHeld_refused]⟩
  · have hmicro : i.opClass = .microOp := mayIssue_sequencer.mp (hi ▸ hm)
    have hturn : w ∈ sequencerWords s0.engine := hw
    have hissue : step s = keepHeld (.word l w) (sequencerIssue w i s0) := by
      rw [hstep, he, onEngine_none, issueAs_sequencer hi]
    refine ⟨fun t ht => ?_, fun f hf => ?_, fun r hr => ?_⟩
    · have hnone : t.hold = none := exec_micro_hold hmicro ht hh
      exact hissue.trans (keepHeld_next (sequencerIssue_next_of_turn hturn ht) hnone)
    · rw [hissue, sequencerIssue_fault_of_turn hturn hf, keepHeld_fault]
    · rw [hissue, sequencerIssue_refused_of_turn hturn hr, keepHeld_refused]
  · rw [hstep, he]
    rfl

/-! ### Words out of turn (30 R106, 60 R326) -/

/-- The calls by their place in ROUND's expansion are those the sequencer issues (30 R111). -/
theorem callInstr_eq (k : Fin 8) : callInstr k = roundProgram[k.val]'(by simp [roundProgram]) := by
  revert k
  decide

/-- A ROUND's position is neither even nor the reserved one. -/
theorem isRoundStep_excludes {n : Nibble} (hr : isRoundStep n = true) : ¬ (n.toNat % 2 = 0 ∨ n = 15) := by
  obtain ⟨hodd, h13⟩ := (isRoundStep_iff n).mp hr
  rintro (heven | rfl)
  · omega
  · exact absurd h13 (by decide)

section
variable {e : Engine} {w : Word} {i : Instr} {n : Nibble}

theorem not_mem_sequencerWords_idle (hs : e.seq = .idle) : w ∉ sequencerWords e := by
  simp [sequencerWords, hs]

/-- Between two instructions of the micro-program no word is in turn but the one, or the two, of the position. -/
theorem not_mem_sequencerWords_at (hs : e.seq = .at n) (hd : decode w = .ok i) (hinit : i = .init → n ≠ 0)
    (hround : i = .round ∨ i = callInstr 0 → n.toNat % 2 = 0 ∨ n = 15)
    (hpermute : i = .permute → n.toNat % 2 = 1 ∨ n = 0 ∨ n = 14) (hfinalize : i = .finalize → n ≠ 14) :
    w ∉ sequencerWords e := by
  intro hw
  rcases sequencerWords_cases hw hd with ⟨m, hm, hturn⟩ | ⟨m, k, hm, -⟩
  · cases hm.symm.trans hs
    rcases hturn with ⟨h0, hi⟩ | ⟨h14, hi⟩ | ⟨hr, hi⟩ | ⟨h0, heven, h12, hi⟩
    · exact hinit hi h0
    · exact hfinalize hi h14
    · exact isRoundStep_excludes hr (hround hi)
    · rcases hpermute hi with hodd | hzero | rfl
      · omega
      · exact h0 hzero
      · exact absurd h12 (by decide)
  · cases hm.symm.trans hs

/-- Inside a ROUND no word is in turn but the next call's. -/
theorem not_mem_sequencerWords_midRound {k : Fin 8} (hs : e.seq = .midRound n k) (hd : decode w = .ok i)
    (hcall : n.toNat % 2 = 1 → n.toNat ≤ 13 → i ≠ callInstr k) : w ∉ sequencerWords e := by
  intro hw
  rcases sequencerWords_cases hw hd with ⟨m, hm, -⟩ | ⟨m, j, hm, hr, hi⟩
  · cases hm.symm.trans hs
  · cases hm.symm.trans hs
    obtain ⟨hodd, h13⟩ := (isRoundStep_iff n).mp hr
    exact hcall hodd h13 hi

end

/-- Settles O6: the decoder and the issuer are looked at before the instance, and a word out of turn is none of the words the
sequencer may issue there. -/
theorem stepRefusesWhatMayNotBeIssued : Obligations.StepRefusesWhatMayNotBeIssued := by
  intro s l w rest hh ha outOfTurn
  have hrefused {r : Refusal} (h : issueWord l w { s with agenda := rest } = .refused r) : step s = .refused r := by
    rw [step_word hh ha, h, keepHeld_refused]
  have hturn {e : Engine} {i : Instr} (hd : decode w = .ok i) (hout : outOfTurn e i) : w ∉ sequencerWords e := by
    rcases hout with hs | ⟨n, hs, hinit, hround, hpermute, hfinalize, hcall⟩ | ⟨n, k, hs, hcall⟩
    · exact not_mem_sequencerWords_idle hs
    · refine not_mem_sequencerWords_at hs hd hinit (fun h => h.elim hround fun h => ?_) hpermute hfinalize
      exact (hcall ⟨0, 4, 8, 12, 0, 1⟩ h).imp_right fun h => h.resolve_right fun hne => hne rfl
    · exact not_mem_sequencerWords_midRound hs hd fun hodd h13 h => hcall hodd h13 (h.trans (callInstr_eq k))
  have hissue {i : Instr} {t : State} (hi : l.issuer = .sequencer) (hd : decode w = .ok i) (hout : outOfTurn t.engine i) :
      issueAs l w i t = .refused .outOfSequence := by
    rw [issueAs_sequencer hi, sequencerIssue_out_of_turn (hturn hd hout)]
  refine ⟨fun r hd => hrefused (issueWord_of_undecodable hd), fun i hd hi hc => ?_, fun i hd hi hc => ?_,
    fun i hd hi hc => ?_, fun i page hd hm he habsent => ?_⟩
  · exact hrefused (issueWord_of_wrong_issuer hd (hi ▸ mt mayIssue_host.mp (not_not.mpr hc)))
  · exact hrefused (issueWord_of_wrong_issuer hd (hi ▸ mt mayIssue_sequencer.mp hc))
  · have hm : mayIssue l.issuer i.opClass = true := hi ▸ mayIssue_sequencer.mpr hc
    refine ⟨fun he hout => hrefused ((issueWord_of_decode hd hm).trans ?_), fun pre post e hpages ho he hout =>
      hrefused ((issueWord_of_decode hd hm).trans ?_)⟩
    · rcases he with he | he <;> rw [he]
      · exact hissue hi hd hout
      · exact (withEngine_self _ { s with agenda := rest, line := l } _).trans (hissue hi hd hout)
    · rw [he]
      exact withEngine_other_refused (s := { s with agenda := rest, line := l }) hpages ho (hissue hi hd hout)
  · refine hrefused ((issueWord_of_decode hd hm).trans ?_)
    rw [he]
    exact withEngine_absent habsent

end Sys2Proof.Machine
end

section
/-! PROOFS. The generator (41_generator.md R140 to R146): what LCG_NEW and LCG_NEXT answer, what they leave alone, and why an
overlapping draw is refused. -/

namespace Sys2Proof.Machine

open Sys2Proof

/-! ### The frame of a bound result (30 R109) -/

/-- Binding a result writes the bound names only. -/
theorem bindResult_frame (v : Value) (s : State) (env : List (Nat × Value)) :
    { bindResult v s with env := env } = { s with env := env } := by
  unfold bindResult
  cases s.line.dest <;> rfl

/-! ### A generator and its draw in progress (41 R146) -/

section
variable {s : State} {id : Nat} {g : Gen}

theorem freeGen_of_free (hg : s.gens[id]? = some g) (hu : g.user = none) : freeGen id s = .ok g := by
  simp only [freeGen, genAt, hg, hu, if_true]

theorem freeGen_of_busy (hg : s.gens[id]? = some g) (hu : g.user ≠ none) :
    freeGen id s = .error (.refused .concurrentGeneratorUse) := by
  simp only [freeGen, genAt, hg, hu, if_false]

theorem drawBegin_of_busy (w : Nat) (hg : s.gens[id]? = some g) (hu : g.user ≠ none) :
    drawBegin w id s = .refused .concurrentGeneratorUse := by
  simp only [drawBegin, genAt, hg, hu, if_false]

/-! ### The operations by their operands and the generator -/

theorem exec_lcgNew_of_args {seed : BitVec 64} (ha : lcgNewArgs s = some seed) :
    exec .lcgNew s = .next (bindResult (.gen s.gens.length) { s with gens := s.gens ++ [⟨seed, none⟩] }) := by
  simp only [exec, execLcgNew, ha]

theorem exec_lcgNext_of_free (ha : lcgNextArgs s = some id) (hf : freeGen id s = .ok g) :
    exec .lcgNext s =
      .next (bindResult (.int (lcgStep g.seed).toNat) (setGen id { g with seed := lcgSeed g.seed } s)) := by
  simp only [exec, execLcgNext, ha, hf]

theorem exec_lcgNext_of_stop {x : Stop} (ha : lcgNextArgs s = some id) (hf : freeGen id s = .error x) :
    exec .lcgNext s = stopResult x := by
  simp only [exec, execLcgNext, ha, hf]

theorem exec_buildVector_of_stop {a : BuildArgs} {x : Stop} (ha : buildArgs s = some a)
    (hb : blockLenOk a.blockLen = true) (hf : freeGen a.gen s = .error x) : exec .buildVector s = stopResult x := by
  simp only [exec, execBuildVector, ha, hb, hf, if_true]

end

/-! ### The sequence of a seed (41 R141 to R144) -/

/-- The seed after a draw is the word drawn, as a number. -/
theorem lcgSeed_toNat (seed : BitVec 64) : (lcgSeed seed).toNat = (lcgStep seed).toNat :=
  BitVec.toNat_setWidth_of_le (by decide)

/-- The next word depends on the seed modulo 2^32 only. -/
theorem lcgStep_congr {a b : BitVec 64} (h : a.toNat % 2 ^ 32 = b.toNat % 2 ^ 32) : lcgStep a = lcgStep b := by
  have hmod : a.toNat ≡ b.toNat [MOD 2 ^ 32] := h
  apply BitVec.eq_of_toNat_eq
  rw [lcgStep_toNat, lcgStep_toNat]
  exact (hmod.mul_left 1664525).add_right 1013904223

/-- A sequence depends on its first word only, which is the seed of all the draws after it. -/
theorem drawWords_congr {a b : BitVec 64} (k : Nat) (h : lcgStep a = lcgStep b) :
    (drawWords k a).1 = (drawWords k b).1 := by
  cases k with
  | zero => rfl
  | succ k => simp only [drawWords, lcgSeed, h]

/-! ### The statements -/

/-- Settles O26: the new instance comes after those before, and binding its number writes the bound names only. -/
theorem lcgNewKeepsTheSeed : Obligations.LcgNewKeepsTheSeed := by
  intro s seed ha
  refine ⟨_, exec_lcgNew_of_args ha, boundResult_bindResult _ rfl rfl, by simp, ?_⟩
  exact congrArg (fun t : State => { t with gens := s.gens }) (bindResult_frame _ _ s.env)

/-- Settles O27: the word drawn is both the result and the new seed, and only this instance is replaced. -/
theorem lcgNextReturnsTheNextWord : Obligations.LcgNextReturnsTheNextWord := by
  intro s id g ha hg hu
  rw [← lcgStep_toNat]
  obtain ⟨hid, -⟩ := List.getElem?_eq_some_iff.mp hg
  refine ⟨_, { g with seed := lcgSeed g.seed }, exec_lcgNext_of_free ha (freeGen_of_free hg hu),
    boundResult_bindResult _ rfl rfl, ?_, lcgSeed_toNat g.seed, hu, fun k hk => ?_, by simp, ?_⟩
  · simp [hid]
  · simp [List.getElem?_set_ne hk.symm]
  · exact congrArg (fun t : State => { t with gens := s.gens }) (bindResult_frame _ _ s.env)

/-- Settles O28: such seeds give the same first word, and all the rest follows from it. -/
theorem seedsEqualModulo32GiveOneSequence : Obligations.SeedsEqualModulo32GiveOneSequence :=
  fun k _ _ h => drawWords_congr k (lcgStep_congr h)

/-- Settles O29: LCG_NEXT and BUILD_VECTOR take their generator by `freeGen`, which stops at one in use; a second overlapping
draw is stopped by the same test in `drawBegin`. -/
theorem overlappingDrawsAreRefused : Obligations.OverlappingDrawsAreRefused := by
  intro s id w g hg hu
  have hbusy := freeGen_of_busy hg hu
  refine ⟨fun ha => exec_lcgNext_of_stop ha hbusy, fun a ha hid hb => ?_, drawBegin_of_busy w hg hu⟩
  exact exec_buildVector_of_stop ha hb (hid ▸ hbusy)

end Sys2Proof.Machine
end

section
/-! PROOFS. Bit serialization and the external forms of a vector (42_serialization.md R160 to R165, 20_memory.md R79, R80): a
value and a width have a string exactly where the value fits, and reading that string gives the value back. -/

namespace Sys2Proof.Machine

open Sys2Proof

/-! ### The bits of a value that fits its width (42 R160 to R163) -/

/-- Every word fits a width of 32 or more. -/
theorem toNat_lt_two_pow_of_le {width : Nat} (x : Word) (h : 32 ≤ width) : x.toNat < 2 ^ width :=
  x.isLt.trans_le (Nat.pow_le_pow_right (by decide) h)

section
variable {x : Word} {width : Nat}

theorem toFixedBinary_of_lt (h : x.toNat < 2 ^ width) : toFixedBinary x width = .ok (fixedBits width x) :=
  if_neg fun hr => Nat.not_le_of_lt h hr.2

theorem toFixedBinary_of_le (h : 2 ^ width ≤ x.toNat) :
    toFixedBinary x width = .error (.serializationRange x.toNat width) := by
  have hw : width < 32 := by
    by_contra hw
    exact Nat.not_lt_of_le h (toNat_lt_two_pow_of_le x (Nat.le_of_not_lt hw))
  exact if_pos ⟨hw, h⟩

/-- A value has a string of a width exactly where it fits it, and one string only. -/
theorem toFixedBinary_eq_ok_iff {bs : BitString} :
    toFixedBinary x width = .ok bs ↔ x.toNat < 2 ^ width ∧ bs = fixedBits width x := by
  rcases Nat.lt_or_ge x.toNat (2 ^ width) with h | h
  · simp [toFixedBinary_of_lt h, h, eq_comm]
  · simp [toFixedBinary_of_le h, Nat.not_lt_of_le h]

/-- The string of a value that fits is read back as the value. -/
theorem fromBinary_fixedBits (h : x.toNat < 2 ^ width) : fromBinary (fixedBits width x) = .ok x := by
  have hv : bitsValue (fixedBits width x) = x.toNat := by rw [bitsValue_fixedBits, Nat.mod_eq_of_lt h]
  rw [fromBinary, hv, if_pos x.isLt, BitVec.ofNat_toNat, BitVec.setWidth_eq]

end

theorem toFixedBinary_32 (x : Word) : toFixedBinary x 32 = .ok (fixedBits 32 x) :=
  toFixedBinary_of_lt x.isLt

/-- Settles O32: a string written is that of a value that fits its width, and such a string is read back as the value. -/
theorem binaryRoundTrip : Obligations.BinaryRoundTrip := by
  refine ⟨fun x => ⟨_, toFixedBinary_32 x, fromBinary_fixedBits x.isLt⟩, fun x width bs h => ?_⟩
  obtain ⟨hx, rfl⟩ := toFixedBinary_eq_ok_iff.mp h
  exact fromBinary_fixedBits hx

/-- Settles O33: every word fits width 32, and equal strings are read back as equal words. -/
theorem width32IsExactAndInjective : Obligations.Width32IsExactAndInjective := by
  refine ⟨fun x => ⟨_, toFixedBinary_32 x, fixedBits_length 32 x⟩, fun x y h => ?_⟩
  have hbits : fixedBits 32 x = fixedBits 32 y := by simpa only [toFixedBinary_32, Except.ok.injEq] using h
  have hread := congrArg fromBinary hbits
  simpa only [fromBinary_fixedBits x.isLt, fromBinary_fixedBits y.isLt, Except.ok.injEq] using hread

/-! ### The operations by their operands -/

/-- Binding a result writes the bound names only. -/
theorem onlyEnv_bindResult (v : Value) (s : State) : onlyEnv s (bindResult v s) :=
  bindResult_frame v s s.env

section
variable {s : State}

theorem exec_toFixedBinary_of_args {a : FixedArgs} (ha : toFixedArgs s = some a) :
    exec .toFixedBinary s =
      returnOr (fun bs => .chars (textOfBits bs)) (toFixedBinary a.value a.width.toNat) s := by
  simp only [exec, execToFixedBinary, ha]

theorem exec_fromBinary_of_args {bs : BitString} (ha : fromBinaryArgs s = some bs) :
    exec .fromBinary s = returnOr (fun w => .int w.toNat) (fromBinary bs) s := by
  simp only [exec, execFromBinary, ha]

theorem exec_serializeVector_of_args {a : SerializeArgs} (ha : serializeArgs s = some a) :
    exec .serializeVector s = .next (bindResult (serializeAs s.params.bdWidth a.vec a.form) s) := by
  simp only [exec, execSerializeVector, ha]

end

/-! ### TO_FIXED_BINARY and FROM_BINARY (42 R160, R161) -/

theorem textOfBits_length (bs : BitString) : (textOfBits bs).length = bs.length := List.length_map _

/-- The `i`-th character from the left is that of bit `width - 1 - i`. -/
theorem textOfBits_fixedBits_getElem? {width i : Nat} (x : Word) (h : i < width) :
    (textOfBits (fixedBits width x))[i]? = some (if x.toNat.testBit (width - 1 - i) then '1' else '0') := by
  rw [textOfBits, List.getElem?_map, fixedBits_getElem? x h]
  rfl

/-- Settles O30: the value fits the width, and its string is written, or it does not, and the width is below 32. -/
theorem toFixedBinaryWritesTheBits : Obligations.ToFixedBinaryWritesTheBits := by
  intro s a ha
  rw [exec_toFixedBinary_of_args ha]
  by_cases h : 32 ≤ a.width.toNat ∨ a.value.toNat < 2 ^ a.width.toNat
  · have hx : a.value.toNat < 2 ^ a.width.toNat := h.elim (toNat_lt_two_pow_of_le _) id
    rw [toFixedBinary_of_lt hx]
    refine ⟨_, rfl, onlyEnv_bindResult _ s, .inr ⟨h, _, boundResult_bindResult _ rfl rfl, ?_, fun i hi => ?_⟩⟩
    · rw [textOfBits_length, fixedBits_length]
    · exact textOfBits_fixedBits_getElem? a.value hi
  · obtain ⟨hw, hx⟩ := not_or.mp h
    rw [toFixedBinary_of_le (Nat.le_of_not_lt hx)]
    exact ⟨_, rfl, onlyEnv_bindResult _ s,
      .inl ⟨Nat.lt_of_not_le hw, Nat.le_of_not_lt hx, boundResult_bindResult _ rfl rfl⟩⟩

/-- The number a bit string spells has its bits as binary digits, the last one lowest. -/
theorem bitsValue_eq_ofDigits (bs : BitString) : bitsValue bs = Nat.ofDigits 2 (bs.reverse.map Bool.toNat) := by
  rw [bitsValue, ← List.foldr_reverse, Nat.ofDigits_eq_foldr, List.foldr_map]
  simp only [Nat.cast_id, Nat.add_comm]

section
variable {bs : BitString}

theorem fromBinary_of_lt (h : bitsValue bs < 2 ^ 32) : ∃ w, fromBinary bs = .ok w ∧ w.toNat = bitsValue bs :=
  ⟨_, if_pos h, (BitVec.toNat_ofNat _ _).trans (Nat.mod_eq_of_lt h)⟩

theorem fromBinary_of_le (h : 2 ^ 32 ≤ bitsValue bs) :
    fromBinary bs = .error (.serializationRange (bitsValue bs) 32) :=
  if_neg (Nat.not_lt_of_le h)

end

/-- Settles O31: `fromBinary` looks at the number the bits spell, which is below 2^32 or not. -/
theorem fromBinaryReadsTheNumber : Obligations.FromBinaryReadsTheNumber := by
  intro s bs ha
  rw [exec_fromBinary_of_args ha, ← bitsValue_eq_ofDigits]
  rcases Nat.lt_or_ge (bitsValue bs) (2 ^ 32) with h | h
  · obtain ⟨w, hr, hw⟩ := fromBinary_of_lt h
    rw [hr, ← hw]
    exact ⟨_, rfl, onlyEnv_bindResult _ s, .inl ⟨w.isLt, boundResult_bindResult _ rfl rfl⟩⟩
  · rw [fromBinary_of_le h]
    exact ⟨_, rfl, onlyEnv_bindResult _ s, .inr ⟨h, boundResult_bindResult _ rfl rfl⟩⟩

/-! ### The record of a vector (20 R79, 42 R165) -/

theorem commaJoin_eq_intercalate (ts : List Text) : commaJoin ts = List.intercalate [','] ts := by
  induction ts with
  | nil => rfl
  | cons t ts ih =>
    cases ts with
    | nil => simp [commaJoin]
    | cons u us => simp [commaJoin, ih, List.intercalate_cons_cons]

/-- The record, its keys and brackets spelled out. -/
theorem vectorRecord_eq (v : VecRec) :
    vectorRecord v =
      [Char.ofNat 123] ++ "\"h\":[".toList ++ commaJoin (v.h.toList.map fun w => decimal w.toNat)
        ++ "],\"m\":[".toList ++ commaJoin (v.m.toList.map fun w => decimal w.toNat)
        ++ "],\"b\":".toList ++ decimal v.b.toNat ++ ",\"d\":".toList ++ decimal v.d.toNat
        ++ ",\"t\":[".toList ++ commaJoin ([v.t0, v.t1].map fun w => decimal w.toNat) ++ "]".toList
        ++ [Char.ofNat 125] := by
  simp [vectorRecord, jsonObject, jsonMember, jsonArray, commaJoin]

/-! ### The bit form of a vector (20 R80, 42 R165) -/

/-- The strings of a vector's words, each 32 bits wide. -/
theorem map_fixedBits_getElem? {n : Nat} (v : Vector Word n) (i : Fin n) :
    ((v.toList.map (fixedBits 32))[i.val]?).map Except.ok = some (toFixedBinary v[i] 32) := by
  simp [toFixedBinary_32]

/-- `b` and `d` fit either value of `BD_SER_WIDTH`. -/
theorem toFixedBinary_zext32 (bd : BdWidth) (x : Byte) :
    toFixedBinary (zext32 x) (bdSerWidth bd) = .ok (fixedBits (bdSerWidth bd) (zext32 x)) := by
  have hx : (zext32 x).toNat < 2 ^ 8 := (BitVec.toNat_setWidth_of_le (by decide)).trans_lt x.isLt
  have hw : 8 ≤ bdSerWidth bd := by cases bd <;> decide
  exact toFixedBinary_of_lt (hx.trans_le (Nat.pow_le_pow_right (by decide) hw))

/-- Settles O34: by the form asked for, the record spelled out or the strings of the fields, which all fit their widths. -/
theorem serializeVectorGivesBothForms : Obligations.SerializeVectorGivesBothForms := by
  intro s a ha numbers
  have hnumbers (ws : List Word) : commaJoin (ws.map fun w => decimal w.toNat) = numbers ws :=
    commaJoin_eq_intercalate _
  refine ⟨_, exec_serializeVector_of_args ha, onlyEnv_bindResult _ s, fun hf => ?_, fun hf => ?_⟩
  · simp only [← hnumbers]
    rw [hf, serializeAs, vectorRecord_eq]
    exact boundResult_bindResult _ rfl rfl
  · rw [hf]
    exact ⟨bitForm s.params.bdWidth a.vec, boundResult_bindResult _ rfl rfl, by simp [bitForm], by simp [bitForm], rfl,
      map_fixedBits_getElem? a.vec.h, map_fixedBits_getElem? a.vec.m, congrArg some (toFixedBinary_32 _).symm,
      congrArg some (toFixedBinary_32 _).symm, toFixedBinary_zext32 _ _, toFixedBinary_zext32 _ _⟩

end Sys2Proof.Machine
end

section
/-! PROOFS. The builder (43_vector_builder.md R180 to R185): what BUILD_VECTOR answers for a legal and for an illegal block
length, and what the typed operand records give where an operand is written out, bound or left out (30_encoding.md R104). -/

namespace Sys2Proof.Machine

open Sys2Proof

/-! ### The block length (43 R180, R186) -/

theorem blockLenOk_iff {b : Byte} : blockLenOk b = true ↔ 0 < b.toNat ∧ b.toNat ≤ 64 ∧ b.toNat % 4 = 0 :=
  decide_eq_true_iff

/-! ### BUILD_VECTOR by its operands and the generator -/

section
variable {s : State} {a : BuildArgs} {g : Gen}

theorem exec_buildVector_of_free (ha : buildArgs s = some a) (hb : blockLenOk a.blockLen = true)
    (hf : freeGen a.gen s = .ok g) :
    exec .buildVector s = .next (bindResult (.vec (builtVector a g.seed))
      (setGen a.gen { g with seed := (drawWords (a.blockLen.toNat / 4) g.seed).2 } s)) := by
  simp only [exec, execBuildVector, ha, hb, hf, if_true]

theorem exec_buildVector_of_illegal (ha : buildArgs s = some a) (hb : ¬ blockLenOk a.blockLen = true) :
    exec .buildVector s = .next (raiseError (.invalidBlockLength a.blockLen.toNat) s) := by
  simp only [exec, execBuildVector, ha, if_neg hb]

end

/-- A built message holds the draws in word order, then zeros. -/
theorem builtVector_m_getElem (a : BuildArgs) (seed : BitVec 64) (i : Fin 16) :
    (builtVector a seed).m[i] = if i.val < a.blockLen.toNat / 4 then lcgStep (lcgSeed^[i.val] seed) else 0 := by
  simp only [builtVector, padMessage, Fin.getElem_fin, Vector.getElem_ofFn, drawWords_getD]

/-- Settles O35: with a legal length and a free generator, the build returns `builtVector`, and the generator's seed is the
one after as many draws as the vector has drawn words. -/
theorem buildVectorDrawsInWordOrder : Obligations.BuildVectorDrawsInWordOrder := by
  intro s a g ha hg hu hpos hle hmod k
  have hb : blockLenOk a.blockLen = true := blockLenOk_iff.mpr ⟨hpos, hle, hmod⟩
  refine ⟨_, builtVector a g.seed, exec_buildVector_of_free ha hb (freeGen_of_free hg hu),
    boundResult_bindResult _ rfl rfl, builtVector_m_getElem a g.seed, rfl, rfl, rfl, rfl, rfl, ?_, ?_⟩
  · rw [bindResult_gens, setGen_gens, drawWords_seed, hu]
  · exact congrArg (fun t : State => { t with gens := s.gens }) (bindResult_frame _ _ s.env)

/-- Settles O36: the block length is tested before the generator is looked at, so the build only binds the error. -/
theorem failedBuildLeavesTheGenerator : Obligations.FailedBuildLeavesTheGenerator := by
  intro s a ha hillegal
  have hb : ¬ blockLenOk a.blockLen = true := by rw [blockLenOk_iff]; omega
  exact ⟨_, exec_buildVector_of_illegal ha hb, boundResult_bindResult _ rfl rfl, onlyEnv_bindResult _ s⟩

/-! ### An operand given or left out (30 R104) -/

section
variable {α : Type} {k : Key} {conv : Value → Option α} {default : Option α} {s : State}

theorem typedArg_of_absent (h : findArg k s.line.args = none) : typedArg k conv default s = default := by
  simp only [typedArg, h]

theorem typedArg_of_lit {l : Literal} (h : findArg k s.line.args = some (.lit l)) :
    typedArg k conv default s = conv (literalValue l) := by
  simp only [typedArg, h, resolveArg, Option.bind_some]

theorem typedArg_of_name {n : Nat} {x : Value} (h : findArg k s.line.args = some (.name n))
    (hx : envGet n s.env = some x) : typedArg k conv default s = conv x := by
  simp only [typedArg, h, resolveArg, hx, Option.bind_some]

end

theorem asNat_of_lt {w n : Nat} (h : n < 2 ^ w) : asNat w (.int n) = some (BitVec.ofNat w n) := if_pos h

theorem asNat_toNat {w : Nat} (x : BitVec w) : asNat w (.int x.toNat) = some x := by
  rw [asNat_of_lt x.isLt, BitVec.ofNat_toNat, BitVec.setWidth_eq]

theorem asGen_of_lt {gens : List Gen} {id : Nat} (h : id < gens.length) : asGen gens (.gen id) = some id := if_pos h

/-! ### The records with operands left out (43 R181) -/

section
variable {s : State} {name : Nat}

/-- `domain_flags` has no default (43 R181). -/
theorem buildArgs_without_flags (h : findArg .d s.line.args = none) : buildArgs s = none := by
  have hd : typedArg .d (asNat 8) none s = none := typedArg_of_absent h
  simp only [buildArgs, hd]
  split
  · split
    · contradiction
    · rfl
  · rfl

theorem buildArgs_of_gen_flags {id : Nat} {d : Byte}
    (hargs : s.line.args = [(.gen, .name name), (.d, .lit (.int d.toNat))])
    (hname : envGet name s.env = some (.gen id)) (hid : id < s.gens.length) :
    buildArgs s = some ⟨id, 64, d, 0, 0, ivTable⟩ := by
  have hkeys : keysOk [.gen, .b, .d, .t0, .t1, .h] s.line.args = true := by rw [hargs]; rfl
  have hgen : typedArg .gen (asGen s.gens) none s = some id :=
    (typedArg_of_name (by rw [hargs]; rfl) hname).trans (asGen_of_lt hid)
  have hd : typedArg .d (asNat 8) none s = some d :=
    (typedArg_of_lit (l := .int d.toNat) (by rw [hargs]; rfl)).trans (asNat_toNat d)
  have hb : typedArg .b (asNat 8) (some 64#8) s = some 64 := typedArg_of_absent (by rw [hargs]; rfl)
  have ht0 : typedArg .t0 (asNat 32) (some 0#32) s = some 0 := typedArg_of_absent (by rw [hargs]; rfl)
  have ht1 : typedArg .t1 (asNat 32) (some 0#32) s = some 0 := typedArg_of_absent (by rw [hargs]; rfl)
  have hh : typedArg .h (asWords 8) (some ivTable) s = some ivTable := typedArg_of_absent (by rw [hargs]; rfl)
  simp only [buildArgs, hkeys, if_true, hgen, hb, hd, ht0, ht1, hh]

theorem toFixedArgs_of_value {n : Nat} (hargs : s.line.args = [(.value, .lit (.int n))]) (hn : n < 2 ^ 32) :
    toFixedArgs s = some ⟨BitVec.ofNat 32 n, 32⟩ := by
  have hkeys : keysOk [.value, .width] s.line.args = true := by rw [hargs]; rfl
  have hvalue : typedArg .value (asNat 32) none s = some (BitVec.ofNat 32 n) :=
    (typedArg_of_lit (l := .int n) (by rw [hargs]; rfl)).trans (asNat_of_lt hn)
  have hwidth : typedArg .width (asNat 32) (some 32#32) s = some 32 := typedArg_of_absent (by rw [hargs]; rfl)
  simp only [toFixedArgs, hkeys, if_true, hvalue, hwidth]

variable {v : VecRec}

theorem typedArg_vec_of_name (hargs : s.line.args = [(.vec, .name name)]) (hname : envGet name s.env = some (.vec v)) :
    typedArg .vec asVec none s = some v :=
  typedArg_of_name (by rw [hargs]; rfl) hname

theorem singleArgs_of_vec (hargs : s.line.args = [(.vec, .name name)]) (hname : envGet name s.env = some (.vec v)) :
    singleArgs s = some ⟨v, false⟩ := by
  have hkeys : keysOk [.vec, .prove] s.line.args = true := by rw [hargs]; rfl
  have hprove : typedArg .prove asBool (some false) s = some false := typedArg_of_absent (by rw [hargs]; rfl)
  simp only [singleArgs, hkeys, if_true, typedArg_vec_of_name hargs hname, hprove]

theorem compressArgs_of_vec (hargs : s.line.args = [(.vec, .name name)]) (hname : envGet name s.env = some (.vec v)) :
    compressArgs s = some (.request v) := by
  have hgiven : s.line.args ≠ [] := by rw [hargs]; exact List.cons_ne_nil _ _
  have hkeys : keysOk [.vec] s.line.args = true := by rw [hargs]; rfl
  simp only [compressArgs, if_neg hgiven, hkeys, if_true, typedArg_vec_of_name hargs hname, Option.map_some]

end

/-- Settles O37: an operand given is read as its type, and one left out has its default, where there is one. -/
theorem operandDefaults : Obligations.OperandDefaults :=
  fun _ _ _ _ _ _ => ⟨buildArgs_of_gen_flags, buildArgs_without_flags, toFixedArgs_of_value,
    fun hargs hname => ⟨singleArgs_of_vec hargs hname, compressArgs_of_vec hargs hname⟩⟩

end Sys2Proof.Machine
end

section
/-! PROOFS. The micro-operations and CHAIN_CV one by one (44_compression_engine.md R203 to R217): what each leaves in V, MS,
HL and OUT, word by word, and that it touches nothing else. -/

namespace Sys2Proof.Machine

open Sys2Proof

/-! ### INIT (44 R204) -/

theorem zext32_toNat (x : Byte) : (zext32 x).toNat = x.toNat := BitVec.toNat_setWidth_of_le (by decide)

/-- Settles O8: INIT latches the request the registers hold, and the words of V are those of `initV`. -/
theorem initLatchesTheRequest : Obligations.InitLatchesTheRequest := by
  intro s hw
  have hupper := initV_upper (requestOf s.engine)
  refine ⟨_, execInit_next_of_written hw, fun i => Vector.getElem_map _ _, fun i => Vector.getElem_map _ _,
    fun i => (initV_chaining _ i.val i.isLt).trans (Vector.getElem_map _ _),
    hupper 0 (by decide), hupper 1 (by decide), hupper 2 (by decide), hupper 3 (by decide), hupper 4 (by decide),
    hupper 5 (by decide), ?_, ?_, rfl, rfl⟩
  · exact (congrArg BitVec.toNat (hupper 6 (by decide))).trans (zext32_toNat _)
  · exact (congrArg BitVec.toNat (hupper 7 (by decide))).trans (zext32_toNat _)

/-! ### G (44 R203, R207) -/

/-- The V indices of a call: the words it reads and writes. -/
def vIndices (f : GFields) : List Nibble := [f.a, f.b, f.c, f.d]

theorem not_mem_vIndices {f : GFields} {i : Nibble} :
    i ∉ vIndices f ↔ i ≠ f.a ∧ i ≠ f.b ∧ i ≠ f.c ∧ i ≠ f.d := by
  simp [vIndices]

/-- A call leaves every word of V but its own. -/
theorem gCall_of_not_mem {f : GFields} {i : Nibble} (ms v : Vector Word 16) (h : i ∉ vIndices f) :
    nib (gCall ms v f) i = nib v i := by
  obtain ⟨ha, hb, hc, hd⟩ := not_mem_vIndices.mp h
  exact gCall_other ha.symm hb.symm hc.symm hd.symm

/-- The words a call leaves in its four places, which differ. -/
theorem gCall_words {f : GFields} (ms v : Vector Word 16) (h : legalG.contains f = true) :
    let q := mixG ⟨nib v f.a, nib v f.b, nib v f.c, nib v f.d⟩ (nib ms f.x) (nib ms f.y)
    nib (gCall ms v f) f.a = q.a ∧ nib (gCall ms v f) f.b = q.b ∧ nib (gCall ms v f) f.c = q.c ∧
      nib (gCall ms v f) f.d = q.d := by
  obtain ⟨hab, hac, had, hbc, hbd, hcd⟩ := legalG_distinct h
  simp [gCall, nib_setNib_other, hab.symm, hac.symm, had.symm, hbc.symm, hbd.symm, hcd.symm]

/-- G's rotations are those of R203, to the right. -/
theorem mixG_eq (q : Quad) (mx my : Word) :
    let a1 := q.a + q.b + mx
    let d1 := (q.d ^^^ a1).rotateRight 16
    let c1 := q.c + d1
    let b1 := (q.b ^^^ c1).rotateRight 12
    let a2 := a1 + b1 + my
    let d2 := (d1 ^^^ a2).rotateRight 8
    let c2 := c1 + d2
    let b2 := (b1 ^^^ c2).rotateRight 7
    mixG q mx my = ⟨a2, b2, c2, d2⟩ := by
  have h16 : rotTable[0] = 16 := rfl
  have h12 : rotTable[1] = 12 := rfl
  have h8 : rotTable[2] = 8 := rfl
  have h7 : rotTable[3] = 7 := rfl
  simp [mixG, mixHalf, h16, h12, h8, h7, rotr32_eq]

/-- Settles O10: the call leaves the quad of R203 in its four places and every other word as it was. -/
theorem gMixesTheFourWordsOfItsTuple : Obligations.GMixesTheFourWordsOfItsTuple := by
  intro s f hf hl v ms a1 d1 c1 b1 a2 d2 c2 b2
  obtain ⟨ha, hb, hc, hd⟩ := gCall_words ms v hf
  have hq := mixG_eq ⟨nib v f.a, nib v f.b, nib v f.c, nib v f.d⟩ (nib ms f.x) (nib ms f.y)
  refine ⟨_, execG_next_of_latched hf hl, ha.trans (congrArg Quad.a hq), hb.trans (congrArg Quad.b hq),
    hc.trans (congrArg Quad.c hq), hd.trans (congrArg Quad.d hq), fun i hia hib hic hid => ?_, rfl⟩
  exact gCall_of_not_mem ms v (not_mem_vIndices.mpr ⟨hia, hib, hic, hid⟩)

/-! ### The calls of a group (44 R209) -/

theorem nib_setNib (v : Vector Word 16) (i j : Nibble) (w : Word) :
    nib (setNib v i w) j = if i = j then w else nib v j := by
  split
  · rename_i h; rw [h, nib_setNib_same]
  · rename_i h; exact nib_setNib_other h v w

/-- What a call leaves in its own words depends on those words only. -/
theorem gCall_congr {f : GFields} {v v' : Vector Word 16} {i : Nibble} (ms : Vector Word 16)
    (h : ∀ j ∈ vIndices f, nib v j = nib v' j) (hi : i ∈ vIndices f) :
    nib (gCall ms v f) i = nib (gCall ms v' f) i := by
  have hv := h i hi
  simp only [vIndices, List.forall_mem_cons] at h
  obtain ⟨ha, hb, hc, hd, -⟩ := h
  simp only [gCall, nib_setNib, ha, hb, hc, hd, hv]

/-- A call reads the same words before and after a call that is disjoint from it. -/
theorem gCall_after_disjoint {f g : GFields} {i : Nibble} (ms v : Vector Word 16)
    (hfg : (vIndices f).Disjoint (vIndices g)) (hi : i ∈ vIndices f) :
    nib (gCall ms (gCall ms v g) f) i = nib (gCall ms v f) i :=
  gCall_congr ms (fun _ hj => gCall_of_not_mem ms v (hfg hj)) hi

theorem gCall_comm {f g : GFields} (ms v : Vector Word 16) (hfg : (vIndices f).Disjoint (vIndices g)) :
    gCall ms (gCall ms v f) g = gCall ms (gCall ms v g) f := by
  refine ext_nib fun i => ?_
  by_cases hf : i ∈ vIndices f
  · rw [gCall_of_not_mem ms _ (hfg hf), gCall_after_disjoint ms v hfg hf]
  · rw [gCall_of_not_mem ms _ hf]
    by_cases hg : i ∈ vIndices g
    · exact gCall_after_disjoint ms v hfg.symm hg
    · rw [gCall_of_not_mem ms _ hg, gCall_of_not_mem ms _ hf, gCall_of_not_mem ms _ hg]

/-- Two disjoint legal calls complete in either order, in the same state. -/
theorem execAll_disjoint_calls {s : State} {f g : GFields} (hl : s.engine.latched = true)
    (hf : legalG.contains f = true) (hg : legalG.contains g = true) (hfg : (vIndices f).Disjoint (vIndices g)) :
    ∃ t, execAll [gInstr f, gInstr g] s = .next t ∧ execAll [gInstr g, gInstr f] s = .next t := by
  refine ⟨_, execAll_calls (fs := [f, g]) (List.forall_mem_cons.mpr ⟨hf, List.forall_mem_singleton.mpr hg⟩) hl, ?_⟩
  rw [List.foldl_cons, List.foldl_cons, List.foldl_nil, gCall_comm _ _ hfg]
  exact execAll_calls (fs := [g, f]) (List.forall_mem_cons.mpr ⟨hg, List.forall_mem_singleton.mpr hf⟩) hl

theorem gcallTable_getElem_legal (i : Nat) (h : i < 8) : legalG.contains gcallTable[i] = true :=
  gcallTable_legal _ (by simp)

/-- Two calls of the column group, and two of the diagonal group, have no word in common. -/
theorem groups_disjoint : ∀ j k : Fin 4, j ≠ k →
    (vIndices gcallTable[j.val]).Disjoint (vIndices gcallTable[k.val]) ∧
      (vIndices gcallTable[4 + j.val]).Disjoint (vIndices gcallTable[4 + k.val]) := by
  unfold List.Disjoint
  decide

theorem roundProgram_getElem (i : Nat) (h : i < 8) :
    roundProgram[i]'(by simpa [roundProgram] using h) = gInstr gcallTable[i] := by
  simp only [roundProgram_eq, List.getElem_map, Vector.getElem_toList]

/-- Settles O13: the calls of a group are disjoint, so they commute. -/
theorem callsOfAGroupCommute : Obligations.CallsOfAGroupCommute := by
  intro s j k hl hjk
  obtain ⟨hcolumn, hdiagonal⟩ := groups_disjoint j k hjk
  have hj : j.val < 8 := by omega
  have hk : k.val < 8 := by omega
  have hj4 : 4 + j.val < 8 := by omega
  have hk4 : 4 + k.val < 8 := by omega
  simp only [roundProgram_getElem _ hj, roundProgram_getElem _ hk, roundProgram_getElem _ hj4, roundProgram_getElem _ hk4]
  exact ⟨execAll_disjoint_calls hl (gcallTable_getElem_legal _ hj) (gcallTable_getElem_legal _ hk) hcolumn,
    execAll_disjoint_calls hl (gcallTable_getElem_legal _ hj4) (gcallTable_getElem_legal _ hk4) hdiagonal⟩

/-! ### PERMUTE and the schedule (44 R210, R211) -/

theorem permuteMs_eq (ms : Vector Word 16) :
    permuteMs ms = #v[ms[2], ms[6], ms[3], ms[10], ms[7], ms[0], ms[4], ms[13], ms[1], ms[11], ms[12], ms[5],
      ms[9], ms[14], ms[15], ms[8]] := by
  simp [permuteMs, permTable]

/-- Settles O14: PERMUTE's gather, written out by the table. -/
theorem permuteGathersByTheTable : Obligations.PermuteGathersByTheTable :=
  fun s hl => ⟨_, execPermute_next_of_latched hl, permuteMs_eq s.engine.ms, rfl⟩

/-- The old slot that a slot takes its word from. -/
def permSlot (i : Fin 16) : Fin 16 := permTable[i]

/-- Where a word of MS comes from after some PERMUTEs. -/
theorem permuteMs_iterate_getElem {r : Nat} {i j : Fin 16} (ms : Vector Word 16) (h : permSlot^[r] i = j) :
    (permuteMs^[r] ms)[i] = ms[j] := by
  subst h
  induction r generalizing ms with
  | zero => rfl
  | succ r ih =>
    simp only [Function.iterate_succ_apply (f := permuteMs), ih, Function.iterate_succ_apply']
    exact permuteMs_getElem ms _ (permSlot^[r] i).isLt

/-- PERMUTEs in a row on a latched engine. -/
theorem execAll_permutes {s : State} (r : Nat) (hl : s.engine.latched = true) :
    execAll (List.replicate r .permute) s =
      .next (setEngine { s.engine with ms := permuteMs^[r] s.engine.ms } s) := by
  induction r generalizing s with
  | zero => rfl
  | succ r ih => exact (execAll_cons_of_next (i := .permute) (execPermute_next_of_latched hl)).trans (ih hl)

/-- The schedule's row of round `r` is the table applied `r` times (44 R211). -/
theorem permSlot_iterate : ∀ (r : Fin 7) (i : Fin 16), permSlot^[r.val] i = schedule[r][i] := by decide

theorem permSlot_iterate_eight : ∀ i : Fin 16, permSlot^[8] i = i := by decide

theorem permuteMs_iterate_eight (ms : Vector Word 16) : permuteMs^[8] ms = ms :=
  Vector.ext fun i hi => permuteMs_iterate_getElem ms (permSlot_iterate_eight ⟨i, hi⟩)

/-- Settles O15: a word's slot after `r` PERMUTEs is the table's `r`-th power, which is the schedule's row, and the eighth
power is the identity. -/
theorem permutesFollowTheSchedule : Obligations.PermutesFollowTheSchedule := by
  intro s hl
  refine ⟨fun r => ⟨_, execAll_permutes r.val hl, fun i => permuteMs_iterate_getElem _ (permSlot_iterate r i)⟩, ?_⟩
  rw [execAll_permutes 8 hl, permuteMs_iterate_eight]
  rfl

/-! ### FINALIZE (44 R212) -/

/-- Settles O16: the words of OUT are those of `finalizeOut`, and lifting the hold writes the hold only. -/
theorem finalizeFoldsTheState : Obligations.FinalizeFoldsTheState := by
  intro s hl
  refine ⟨_, execFinalize_next_of_latched hl, ?_⟩
  simp only [liftHold_engine, setEngine_engine]
  refine ⟨fun i => finalizeOut_low _ _ i.val i.isLt, fun i => finalizeOut_high _ _ i.val i.isLt, rfl, rfl, ?_, ?_⟩
  · rw [liftHold_eq]
    exact if_congr Iff.rfl rfl rfl
  · simp

/-! ### CHAIN_CV (44 R217) -/

theorem toList_chainingValue (out : Vector Word 16) : (chainingValue out).toList = out.toList.take 8 := by
  refine List.ext_getElem (by simp) fun i h _ => ?_
  simp [chainingValue]

/-- Settles O25: the chaining value is the first eight words as they are, and binding it writes the bound names only. -/
theorem chainCvReturnsTheFirstEightWords : Obligations.ChainCvReturnsTheFirstEightWords := by
  intro s out ha
  have hexec : exec .chainCv s = .next (bindResult (.words (ofWords (chainingValue out))) s) := by
    simp only [exec, execChainCv, ha]
  rw [← toList_chainingValue]
  exact ⟨_, hexec, boundResult_bindResult _ rfl rfl, onlyEnv_bindResult _ s⟩

end Sys2Proof.Machine
end

section
/-! PROOFS. COMPRESS and the engine agent (44_compression_engine.md R213 to R219, 30_encoding.md R106, R110 to R112): the
engine's turn at every position, a whole compression in both views, by one account of what the micro-program has left after
each of its steps, and that request writes do not reach it. -/

namespace Sys2Proof.Machine

open Sys2Proof

/-! ### The engine's turn (30 R106, R111) -/

theorem engineStep_idle {s : State} (hs : s.engine.seq = .idle) : engineStep s = .next s := by
  simp only [engineStep, hs]

theorem exec_callInstr_of_latched {s : State} (k : Fin 8) (hl : s.engine.latched = true) :
    exec (callInstr k) s =
      .next (setEngine { s.engine with v := gCall s.engine.ms s.engine.v gcallTable[k] } s) :=
  execG_next_of_latched (callWord_decode k).2 hl

theorem liftHold_hold_of_none {s : State} (h : s.hold = none) : (liftHold s).hold = none := by
  simp [liftHold_eq, h]

/-- A turn of the instance addressed that is next in the agenda is its engine's step. -/
theorem step_engine_turn {s t : State} {rest : List Event} (hh : s.hold = none)
    (ha : s.agenda = .engine s.engine.page :: rest) (ht : engineStep { s with agenda := rest } = .next t)
    (hn : t.hold = none) : step s = .next t :=
  (step_event hh ha).trans (keepHeld_next ((withEngine_self _ { s with agenda := rest } _).trans ht) hn)

/-- Settles O7: the step is the engine's, which issues the instruction of its position and moves SEQ. -/
theorem engineTurnFollowsTheMicroProgram : Obligations.EngineTurnFollowsTheMicroProgram := by
  intro s rest hh ha s0
  refine ⟨fun hs => step_engine_turn hh ha (engineStep_idle hs) hh,
    fun n hs hl => ⟨fun h13 hodd => ?_, fun h13 h1 heven => ?_, ?_⟩, fun n k hs h13 hodd hl => ?_⟩
  · exact ⟨_, execRound_next_of_latched hl, step_engine_turn hh ha (engineStep_odd hs hl h13 hodd) hh⟩
  · exact ⟨_, execPermute_next_of_latched hl, step_engine_turn hh ha (engineStep_even hs hl h1 h13 heven) hh⟩
  · rintro rfl
    exact ⟨_, execFinalize_next_of_latched hl,
      step_engine_turn hh ha (engineStep_last hs hl) (liftHold_hold_of_none (by rw [setEngine_hold]; exact hh))⟩
  · rw [← callInstr_eq]
    have hr : isRoundStep n = true := (isRoundStep_iff n).mpr ⟨hodd, h13⟩
    exact ⟨_, exec_callInstr_of_latched k hl, step_engine_turn hh ha (engineStep_call hs hl hr) hh⟩

/-! ### What the micro-program leaves after each step (30 R112) -/

/-- The instructions between INIT and FINALIZE, by their place from 0: ROUND, PERMUTE, ROUND and so on. -/
def mixInstr (k : Nat) : Instr := if k % 2 = 0 then .round else .permute

/-- MS and V after the first `k` of them on a latched request. -/
def mixed (r : VecRec) : Nat → Vector Word 16 × Vector Word 16
  | 0 => (r.m, initV r)
  | k + 1 =>
    if k % 2 = 0 then ((mixed r k).1, roundV (mixed r k).1 (mixed r k).2) else (permuteMs (mixed r k).1, (mixed r k).2)

/-- The engine that has latched a request and run the first `k` of them. -/
def mixEngine (r : VecRec) (k : Nat) (e : Engine) : Engine :=
  { latchRequest r e with ms := (mixed r k).1, v := (mixed r k).2 }

/-- A program that completes hands its state on to the one after it. -/
theorem execAll_append_of_next {is js : List Instr} {s t : State} (h : execAll is s = .next t) :
    execAll (is ++ js) s = execAll js t := by
  induction is generalizing s with
  | nil => rw [List.nil_append, Host.Outcome.next.inj h]
  | cons i is ih =>
    cases hi : exec i s with
    | next u =>
      rw [execAll_cons_of_next hi] at h
      rw [List.cons_append, execAll_cons_of_next hi, ih h]
    | fault x => simp [execAll, hi] at h
    | refused x => simp [execAll, hi] at h

section
variable {k : Nat} (r : VecRec) (e : Engine) (s : State)

theorem mixEngine_succ_of_even (h : k % 2 = 0) :
    mixEngine r (k + 1) e = { mixEngine r k e with v := roundV (mixEngine r k e).ms (mixEngine r k e).v } := by
  simp only [mixEngine, mixed, h, if_true]

theorem mixEngine_succ_of_odd (h : k % 2 = 1) :
    mixEngine r (k + 1) e = { mixEngine r k e with ms := permuteMs (mixEngine r k e).ms } := by
  simp [mixEngine, mixed, h]

/-- All thirteen are the seven rounds of `compressRun`. -/
theorem mixed_thirteen : mixed r 13 = compressRun r := by
  simp [mixed, compressRun, nRounds, runRounds]

theorem finalizeEngine_mixEngine : finalizeEngine (mixEngine r 13 e) = transactEngine r e := by
  simp only [finalizeEngine, mixEngine, mixed_thirteen]
  rfl

theorem exec_mixInstr (k : Nat) :
    exec (mixInstr k) (setEngine (mixEngine r k e) s) = .next (setEngine (mixEngine r (k + 1) e) s) := by
  rcases Nat.mod_two_eq_zero_or_one k with h | h
  · rw [mixEngine_succ_of_even r e h, mixInstr, if_pos h]
    exact execRound_next_of_latched rfl
  · rw [mixEngine_succ_of_odd r e h, mixInstr, if_neg (by omega)]
    exact execPermute_next_of_latched rfl

theorem execAll_mixInstrs (k : Nat) :
    execAll ((List.range k).map mixInstr) (setEngine (latchRequest r e) s) = .next (setEngine (mixEngine r k e) s) := by
  induction k with
  | zero => rfl
  | succ k ih =>
    rw [List.range_succ, List.map_append, execAll_append_of_next ih]
    exact execAll_cons_of_next (exec_mixInstr r e s k)

end

theorem microProgram_eq : microProgram = .init :: ((List.range 13).map mixInstr ++ [.finalize]) := rfl

/-- The micro-program on a written request leaves the engine as the transaction does. -/
theorem execAll_microProgram {s : State} (h : requestWritten s.engine) :
    execAll microProgram s = .next (liftHold (setEngine (transactEngine (requestOf s.engine) s.engine) s)) := by
  rw [microProgram_eq, execAll_cons_of_next (i := .init) (execInit_next_of_written h),
    execAll_append_of_next (execAll_mixInstrs _ _ _ 13), ← finalizeEngine_mixEngine]
  exact execAll_cons_of_next (i := .finalize) (execFinalize_next_of_latched rfl)

/-! ### COMPRESS (44 R213, R214) -/

theorem requestWritten_putRequest (r : VecRec) (e : Engine) : requestWritten (putRequest r e) := by
  simp [requestWritten]

@[simp] theorem requestOf_putRequest (r : VecRec) (e : Engine) : requestOf (putRequest r e) = r := by
  simp [requestOf, Function.comp_def]

section
variable {s : State} {r : VecRec}

/-- In the transaction view COMPRESS is one step, whether the request is its operand or in the registers. -/
theorem exec_compress_transaction (ht : s.engine.tablesReady = true) (hv : s.params.view = .transaction)
    (hr : compressArgs s = some (.request r) ∨ (s.line.args = [] ∧ requestWritten s.engine ∧ r = requestOf s.engine)) :
    exec .compress s = .next (compressTransaction r s) := by
  rcases hr with ha | ⟨ha, hw, rfl⟩
  · simp only [exec, execCompress, ha, ht, hv, if_true]
  · simp only [exec, execCompress, compressArgs_of_nil ha, ht, hv, readRequest_ok hw, if_true]

theorem exec_compress_command (ht : s.engine.tablesReady = true) (hv : s.params.view = .sequenced) (ha : s.line.args = [])
    (hw : requestWritten s.engine) : exec .compress s = .next (compressCommand (requestOf s.engine) s) := by
  simp only [exec, execCompress, compressArgs_of_nil ha, ht, hv, readRequest_ok hw, if_true]

theorem exec_compress_expand (ht : s.engine.tablesReady = true) (hv : s.params.view = .sequenced)
    (ha : compressArgs s = some (.request r)) : exec .compress s = .next (expandCompress r s) := by
  simp only [exec, execCompress, ha, ht, hv, if_true]

theorem compressTransaction_of_idle (hb : s.engine.status.busy = false) :
    compressTransaction r s = bindResult (.words (ofWords (compress r))) (setEngine (transactEngine r s.engine) s) := by
  simp [compressTransaction, hb]

theorem compressCommand_of_idle (hb : s.engine.status.busy = false) :
    compressCommand r s = setEngine (commandEngine r s.engine) s := by
  simp [compressCommand, hb]

end

/-- Settles O18: the micro-program leaves `transactEngine` of the request, which is what the one step writes, and binding its
result writes the bound names only. -/
theorem compressInOneStepIsTheMicroProgram : Obligations.CompressInOneStepIsTheMicroProgram := by
  intro s r ht hb hv hr
  have hmicro := execAll_microProgram (s := { s with engine := putRequest r s.engine }) (requestWritten_putRequest r _)
  rw [requestOf_putRequest] at hmicro
  have hexec := exec_compress_transaction ht hv hr
  rw [compressTransaction_of_idle hb] at hexec
  refine ⟨_, _, hexec, hmicro, ?_⟩
  simp only [bindResult_engine, liftHold_engine, setEngine_engine]
  refine ⟨rfl, rfl, rfl, rfl, rfl, rfl, rfl, rfl, rfl, rfl, boundResult_bindResult _ rfl rfl, ?_⟩
  simp

theorem hostSequence_h (w page : Nat) (r : VecRec) (dest : Option Nat) (i : Fin 8) :
    (hostSequence w page r dest)[i.val]? = some (.write w (256 * page + 4 * i.val) 4 r.h[i]) := by
  simp [hostSequence, List.getElem?_append]

theorem hostSequence_m (w page : Nat) (r : VecRec) (dest : Option Nat) (i : Fin 16) :
    (hostSequence w page r dest)[8 + i.val]? = some (.write w (256 * page + (0x20 + 4 * i.val)) 4 r.m[i]) := by
  simp [hostSequence, List.getElem?_append]

/-- Settles O19: the command is INIT's latch with STATUS and SEQ, and a request expands to `hostSequence`. -/
theorem compressCommandStartsTheSequencer : Obligations.CompressCommandStartsTheSequencer := by
  intro s ht hv
  refine ⟨fun hb ha hw => ⟨_, _, exec_compress_command ht hv ha hw, execInit_next_of_written hw, ?_⟩, fun r ha => ?_⟩
  · rw [compressCommand_of_idle hb]
    rfl
  · exact ⟨_, exec_compress_expand ht hv ha, hostSequence_h _ _ r _, hostSequence_m _ _ r _, rfl⟩

/-! ### A whole compression in the sequenced view (44 R214, 70 R362) -/

/-- The engine that has run the first `k` instructions after a command, about to run the next. -/
def runningEngine (r : VecRec) (k : Nat) (e : Engine) : Engine :=
  { mixEngine r k e with status := ⟨true, false⟩, seq := .at (BitVec.ofNat 4 (k + 1)) }

theorem engineStep_runningEngine {k : Nat} (r : VecRec) (e : Engine) (s : State) (hk : k < 13) :
    engineStep (setEngine (runningEngine r k e) s) =
      .next (setEngine (runningEngine r (k + 1) e) { s with line := sequencerLine }) := by
  have hn : (BitVec.ofNat 4 (k + 1)).toNat = k + 1 := by simp; omega
  have hsucc : BitVec.ofNat 4 (k + 1 + 1) = BitVec.ofNat 4 (k + 1) + 1 := BitVec.ofNat_add _ _
  rcases Nat.mod_two_eq_zero_or_one k with h | h
  · rw [engineStep_odd (s := setEngine (runningEngine r k e) s) rfl rfl (by omega) (by omega)]
    simp only [runningEngine, mixEngine_succ_of_even r e h, hsucc]
    rfl
  · rw [engineStep_even (s := setEngine (runningEngine r k e) s) rfl rfl (by omega) (by omega) (by omega)]
    simp only [runningEngine, mixEngine_succ_of_odd r e h, hsucc]
    rfl

/-- With nothing scheduled the instance addressed steps while it is not idle. -/
theorem step_of_running {s : State} (hh : s.hold = none) (ha : s.agenda = []) (hs : s.engine.seq ≠ .idle) :
    step s = engineStep s := by
  have hfind : (s.engine :: s.others).find? (fun e => e.seq != .idle) = some s.engine :=
    List.find?_cons_of_pos (by simpa using hs)
  rw [step_quiet hh ha, quietTurn, hfind]
  exact withEngine_self _ s _

/-- The last of some steps. -/
theorem run_succ_of_next {M : Host.Core} {k : Nat} {s t : M.State} (h : M.run k s = .next t) :
    M.run (k + 1) s = M.step t := by
  induction k generalizing s with
  | zero =>
    obtain rfl := Host.Outcome.next.inj h
    simp only [Host.Core.run]
    cases M.step s <;> rfl
  | succ k ih =>
    rw [Host.Core.run] at h ⊢
    cases hs : M.step s with
    | next u => rw [hs] at h; exact ih h
    | fault x => rw [hs] at h; cases h
    | refused x => rw [hs] at h; cases h

section
variable (r : VecRec) (e : Engine) {s : State} (hh : s.hold = none) (ha : s.agenda = [])
include hh ha

theorem step_runningEngine (k : Nat) :
    step (setEngine (runningEngine r k e) s) = engineStep (setEngine (runningEngine r k e) s) := by
  have hs : (setEngine (runningEngine r k e) s).engine.seq ≠ .idle := by simp [runningEngine]
  exact step_of_running hh ha hs

/-- Up to thirteen steps after a command, with nothing else scheduled. -/
theorem run_runningEngine {k : Nat} (hk : k ≤ 13) :
    ∃ l, Host.Core.run core k (setEngine (runningEngine r 0 e) s) =
      .next (setEngine (runningEngine r k e) { s with line := l }) := by
  induction k with
  | zero => exact ⟨s.line, rfl⟩
  | succ k ih =>
    obtain ⟨l, hl⟩ := ih (by omega)
    refine ⟨sequencerLine, (run_succ_of_next hl).trans ?_⟩
    exact (step_runningEngine r e (s := { s with line := l }) hh ha k).trans (engineStep_runningEngine r e _ hk)

/-- The step after those is FINALIZE's. -/
theorem step_runningEngine_last :
    step (setEngine (runningEngine r 13 e) s) =
      .next (liftHold (setEngine (transactEngine r e) { s with line := sequencerLine })) := by
  rw [step_runningEngine r e hh ha, engineStep_last rfl rfl, ← finalizeEngine_mixEngine]
  rfl

end

/-- Settles O22: a command leaves `runningEngine` at its first step, which goes through the thirteen to FINALIZE's, and that
leaves what the transaction does. -/
theorem sequencedRunGivesTheTransactionOutput : Obligations.SequencedRunGivesTheTransactionOutput := by
  intro s ht hb hargs hv hw hagenda hh
  have hexec := exec_compress_command ht hv hargs hw
  rw [compressCommand_of_idle hb] at hexec
  have hrun {k : Nat} (hk : k ≤ 13) := run_runningEngine (requestOf s.engine) s.engine hh hagenda hk
  obtain ⟨l, hthirteen⟩ := hrun le_rfl
  have hlast := step_runningEngine_last (requestOf s.engine) s.engine (s := { s with line := l }) hh hagenda
  refine ⟨_, _, hexec, (run_succ_of_next hthirteen).trans hlast, ?_⟩
  simp only [liftHold_engine, setEngine_engine]
  refine ⟨rfl, rfl, rfl, fun k hk => ?_⟩
  obtain ⟨l, hk⟩ := hrun (Nat.le_of_lt_succ hk)
  exact ⟨_, hk, rfl⟩

/-! ### Request writes during a compression (44 R218) -/

section
variable (r : WinReg) (v : Word) (e : Engine)

@[simp] theorem writeReg_seq : (writeReg r v e).seq = e.seq := by cases r <;> rfl
@[simp] theorem writeReg_latched : (writeReg r v e).latched = e.latched := by cases r <;> rfl

theorem writeReg_mapV (f : Vector Word 16 → Vector Word 16 → Vector Word 16) :
    writeReg r v { e with v := f e.ms e.v } =
      { writeReg r v e with v := f (writeReg r v e).ms (writeReg r v e).v } := by
  cases r <;> rfl

theorem writeReg_mapMs (f : Vector Word 16 → Vector Word 16) :
    writeReg r v { e with ms := f e.ms } = { writeReg r v e with ms := f (writeReg r v e).ms } := by
  cases r <;> rfl

theorem writeReg_setSeq (q : Seq) : writeReg r v { e with seq := q } = { writeReg r v e with seq := q } := by
  cases r <;> rfl

theorem writeReg_finalizeEngine : writeReg r v (finalizeEngine e) = finalizeEngine (writeReg r v e) := by
  cases r <;> simp only [writeReg, finalizeEngine]

theorem sequencerWords_writeReg : sequencerWords (writeReg r v e) = sequencerWords e := by
  simp only [sequencerWords, writeReg_seq]

theorem advanceSeq_writeReg (i : Instr) : advanceSeq i (writeReg r v e) = writeReg r v (advanceSeq i e) := by
  simp only [advanceSeq, writeReg_seq]
  split
  · rfl
  · split <;> exact (writeReg_setSeq r v e _).symm
  · split <;> exact (writeReg_setSeq r v e _).symm

theorem whenLatched_writeReg {x : Reg} {f : Engine → Engine} {s t : State}
    (hf : ∀ e, writeReg r v (f e) = f (writeReg r v e)) (h : whenLatched x s f = .next t) :
    whenLatched x (setEngine (writeReg r v s.engine) s) f = .next (setEngine (writeReg r v t.engine) t) := by
  obtain ⟨hl, rfl⟩ := whenLatched_next h
  simp [whenLatched, hl, hf]

theorem liftHold_setEngine {s : State} (h : e.page = s.engine.page) :
    liftHold (setEngine e s) = setEngine e (liftHold s) := by
  simp only [liftHold_eq, setEngine_engine, setEngine_hold, h]
  rfl

/-- A micro-operation but INIT reads and writes no request register. -/
theorem exec_micro_writeReg {i : Instr} {s t : State} (hc : i.opClass = .microOp) (hi : i ≠ .init)
    (h : exec i s = .next t) :
    exec i (setEngine (writeReg r v s.engine) s) = .next (setEngine (writeReg r v t.engine) t) := by
  cases i with
  | init => exact absurd rfl hi
  | g a b c d x y =>
    simp only [exec, execG] at h ⊢
    split
    · rename_i hlegal
      rw [if_pos hlegal] at h
      exact whenLatched_writeReg r v (fun e => writeReg_mapV r v e fun ms v => gCall ms v ⟨a, b, c, d, x, y⟩) h
    · rename_i hillegal
      rw [if_neg hillegal] at h
      cases h
  | round => exact whenLatched_writeReg r v (fun e => writeReg_mapV r v e roundV) h
  | permute => exact whenLatched_writeReg r v (fun e => writeReg_mapMs r v e permuteMs) h
  | finalize =>
    obtain ⟨hl, rfl⟩ := execFinalize_next h
    refine (execFinalize_next_of_latched ((writeReg_latched r v s.engine).trans hl)).trans ?_
    simp only [setEngine_engine, setEngine_setEngine, liftHold_engine, ← writeReg_finalizeEngine]
    rw [liftHold_setEngine (writeReg r v (finalizeEngine s.engine)) (by simp),
      liftHold_setEngine (finalizeEngine s.engine) (by simp), setEngine_setEngine]
  | compress => cases hc
  | lcgNew | lcgNext | toFixedBinary | fromBinary | buildVector | serializeVector | runSuite | runSingle | chainCv => cases hc

end

section
variable {s t : State} {w : Word}

theorem engineStep_of_head (hw : (sequencerWords s.engine).head? = some w) :
    engineStep s = issueWord sequencerLine w s := by
  rcases hs : s.engine.seq with _ | n | ⟨n, k⟩
  · simp [sequencerWords, hs] at hw
  · simp only [engineStep, hs, hw]
  · simp only [engineStep, hs, hw]

theorem engineStep_of_no_head (hs : s.engine.seq ≠ .idle) (hw : (sequencerWords s.engine).head? = none) :
    engineStep s = .refused .reservedSeq := by
  rcases hq : s.engine.seq with _ | n | ⟨n, k⟩
  · exact absurd hq hs
  · simp only [engineStep, hq, hw]
  · simp only [engineStep, hq, hw]

/-- The step of an engine that is not idle issues its first word in turn. -/
theorem engineStep_head (hs : s.engine.seq ≠ .idle) (h : engineStep s = .next t) :
    ∃ w i u, (sequencerWords s.engine).head? = some w ∧ decode w = .ok i ∧ i.opClass = .microOp ∧
      exec i { s with line := sequencerLine } = .next u ∧ t = setEngine (advanceSeq i u.engine) u := by
  cases hw : (sequencerWords s.engine).head? with
  | none => rw [engineStep_of_no_head hs hw] at h; cases h
  | some w =>
    rw [engineStep_of_head hw] at h
    obtain ⟨i, hd, hm, hi⟩ := issueWord_next h
    have hturn : sequencerIssue w i { s with line := sequencerLine } = .next t := hi
    obtain ⟨-, u, hu, rfl⟩ := sequencerIssue_next hturn
    exact ⟨w, i, u, rfl, hd, mayIssue_sequencer.mp hm, hu, rfl⟩

/-- INIT is in turn at SEQ 0 only. -/
theorem seq_of_init_turn {e : Engine} (hw : w ∈ sequencerWords e) (hd : decode w = .ok .init) : e.seq = .at 0 := by
  rcases sequencerWords_cases hw hd with ⟨n, hn, ⟨rfl, -⟩ | ⟨-, hi⟩ | ⟨-, hi | hi⟩ | ⟨-, -, -, hi⟩⟩ | ⟨n, k, -, -, hi⟩
  · exact hn
  all_goals cases hi

end

/-- Settles O23: past SEQ 0 the engine's step is a micro-operation but INIT, of the same word after the write as before it. -/
theorem requestWritesDoNotReachARunningCompression : Obligations.RequestWritesDoNotReachARunningCompression := by
  intro s t r v h0 h
  by_cases hs : s.engine.seq = .idle
  · rw [engineStep_idle hs] at h
    obtain rfl := Host.Outcome.next.inj h
    exact engineStep_idle ((writeReg_seq r v s.engine).trans hs)
  · obtain ⟨w, i, u, hw, hd, hc, hu, rfl⟩ := engineStep_head hs h
    have hi : i ≠ .init := by
      rintro rfl
      exact h0 (seq_of_init_turn (List.mem_of_head? hw) hd)
    have hw' : (sequencerWords (setEngine (writeReg r v s.engine) s).engine).head? = some w := by
      rw [setEngine_engine, sequencerWords_writeReg, hw]
    have hu' : exec i { setEngine (writeReg r v s.engine) s with line := sequencerLine } =
        .next (setEngine (writeReg r v u.engine) u) := exec_micro_writeReg r v hc hi hu
    rw [engineStep_eq hw' hd hc, hu']
    simp only [setEngine_engine, setEngine_setEngine, advanceSeq_writeReg]

end Sys2Proof.Machine
end

section
/-! PROOFS. External calls and the verdict of one vector (45_oracle.md R260, R262, R263, R267, R268, R271): what a call gives by
its attempts, and what is made of a circuit's answer. -/

namespace Sys2Proof.Machine

open Sys2Proof

/-! ### Attempts and calls (45 R267, R271) -/

section
variable {limit : Nat} {a : Attempt}

theorem classify_timeout (h : limit < a.elapsed) : classify limit a = .timeout := if_pos h

theorem classify_raised {msg : Text} (h : a.elapsed ≤ limit) (he : a.exit = .raised msg) :
    classify limit a = .toolFailure (.raised msg) a.stdout a.stderr := by
  simp [classify, Nat.not_lt_of_le h, he]

theorem classify_failed {code : Int} {out : ToolOutput} (h : a.elapsed ≤ limit) (he : a.exit = .exited code out)
    (hc : code ≠ 0) : classify limit a = .toolFailure (.exited code) a.stdout a.stderr := by
  simp [classify, Nat.not_lt_of_le h, he, hc]

theorem classify_value {out : ToolOutput} (h : a.elapsed ≤ limit) (he : a.exit = .exited 0 out) :
    classify limit a = .value out a.stdout a.stderr := by
  simp [classify, Nat.not_lt_of_le h, he]

end

section
variable {p : Params} {c : ExtCall} {x y : Inputs} {a : Attempt}

theorem callExternal_of_abort (h : drawAttempt c x = (none, y)) : callExternal p c x = (none, y) := by
  simp only [callExternal, h]

/-- An attempt that does not time out is the call's result. -/
theorem callExternal_of_final (h : drawAttempt c x = (some a, y)) (hc : classify (externalTimeout p) a ≠ .timeout) :
    callExternal p c x = (some (classify (externalTimeout p) a), y) := by
  cases hr : classify (externalTimeout p) a
  case timeout => exact absurd hr hc
  all_goals simp only [callExternal, h, hr]

/-- The first timeout is retried, and the retry is the call's result. -/
theorem callExternal_of_timeout (h : drawAttempt c x = (some a, y)) (hc : classify (externalTimeout p) a = .timeout) :
    callExternal p c x = ((drawAttempt c y).1.map (classify (externalTimeout p)), (drawAttempt c y).2) := by
  simp only [callExternal, h, hc]

end

section
variable {p : Params} {c : ExtCall} {x : Inputs} {a a1 a2 : Attempt} {r : CallResult} {rest : List Arrival}

theorem drawAttempt_answer :
    drawAttempt c { x with answers := .answer a :: rest } = (some a, { x with answers := rest }) := rfl

theorem drawAttempt_abort : drawAttempt c { x with answers := .abort :: rest } = (none, { x with answers := rest }) := rfl

theorem callExternal_abort :
    callExternal p c { x with answers := .abort :: rest } = (none, { x with answers := rest }) :=
  callExternal_of_abort drawAttempt_abort

theorem callExternal_answer (h : classify (externalTimeout p) a = r) (hr : r ≠ .timeout) :
    callExternal p c { x with answers := .answer a :: rest } = (some r, { x with answers := rest }) := by
  subst h
  exact callExternal_of_final drawAttempt_answer hr

theorem callExternal_retry (h1 : classify (externalTimeout p) a1 = .timeout) (h2 : classify (externalTimeout p) a2 = r) :
    callExternal p c { x with answers := .answer a1 :: .answer a2 :: rest } = (some r, { x with answers := rest }) := by
  subst h2
  exact callExternal_of_timeout drawAttempt_answer h1

theorem callExternal_retry_abort (h : classify (externalTimeout p) a = .timeout) :
    callExternal p c { x with answers := .answer a :: .abort :: rest } = (none, { x with answers := rest }) :=
  callExternal_of_timeout drawAttempt_answer h

end

/-- Settles O42: by what the first attempt counts as, and after a timeout by what the second one does. -/
theorem aTimeoutIsRetriedOnce : Obligations.ATimeoutIsRetriedOnce := by
  intro p c x a1 a2 rest gives killed tape
  refine ⟨callExternal_abort, fun h1 => ⟨?_, fun h2 => ?_, fun msg h2 he => ?_, fun code out h2 he hc => ?_,
    fun out h2 he => ?_⟩, fun h1 => ⟨fun msg he => ?_, fun code out he hc => ?_, fun out he => ?_⟩⟩
  · exact callExternal_retry_abort (classify_timeout h1)
  · exact callExternal_retry (classify_timeout h1) (classify_timeout h2)
  · exact callExternal_retry (classify_timeout h1) (classify_raised h2 he)
  · exact callExternal_retry (classify_timeout h1) (classify_failed h2 he hc)
  · exact callExternal_retry (classify_timeout h1) (classify_value h2 he)
  · exact callExternal_answer (classify_raised h1 he) nofun
  · exact callExternal_answer (classify_failed h1 he hc) nofun
  · exact callExternal_answer (classify_value h1 he) nofun

/-! ### Answers in bit strings (42 R166) -/

@[simp] theorem bitsOfText_textOfBits (bs : BitString) : bitsOfText (textOfBits bs) = some bs := by
  induction bs with
  | nil => rfl
  | cons b bs ih =>
    simp only [textOfBits, List.map_cons, bitsOfText] at ih ⊢
    cases b <;> simp [bitOfChar, ih]

theorem bitsOfText_of_mem {t : Text} {c : Char} (hc : c ∈ t) (h0 : c ≠ '0') (h1 : c ≠ '1') : bitsOfText t = none := by
  induction t with
  | nil => cases hc
  | cons d t ih =>
    rcases List.mem_cons.mp hc with rfl | hc
    · simp [bitsOfText, bitOfChar, h0, h1]
    · simp [bitsOfText, ih hc]

theorem parseBits_textOfBits {bss : List BitString} {xs : List Word} (h : bss.map fromBinary = xs.map Except.ok) :
    parseBits (bss.map textOfBits) = some (xs.map BitVec.toNat) := by
  induction bss generalizing xs with
  | nil => cases xs with
    | nil => rfl
    | cons x xs => cases h
  | cons bs bss ih => cases xs with
    | nil => cases h
    | cons x xs =>
      obtain ⟨hx, hxs⟩ := List.cons.inj h
      simp [parseBits, hx, ih hxs]

/-- One string that cannot be read makes the whole answer unreadable. -/
theorem parseBits_of_mem {ss : List Text} {t : Text} (ht : t ∈ ss)
    (h : bitsOfText t = none ∨ ∃ bs, t = textOfBits bs ∧ 2 ^ 32 ≤ bitsValue bs) : parseBits ss = none := by
  induction ss with
  | nil => cases ht
  | cons u ss ih =>
    rcases List.mem_cons.mp ht with rfl | ht
    · rcases h with h | ⟨bs, rfl, hv⟩
      · simp [parseBits, h]
      · cases hs : parseBits ss <;> simp [parseBits, hs, fromBinary_of_le hv]
    · cases hu : bitsOfText u <;> simp [parseBits, hu, ih ht]

/-! ### Answers in words (45 R260, R268) -/

/-- Sixteen numbers of 32 bits are sixteen words. -/
theorem exists_words {ws : List Nat} (h : ws.length = 16 ∧ ∀ w ∈ ws, w < 2 ^ 32) :
    ∃ a : Vector Word 16, ws = a.toList.map BitVec.toNat := by
  refine ⟨⟨(ws.map (BitVec.ofNat 32)).toArray, by simp [h.1]⟩, ?_⟩
  have hread : ∀ w ∈ ws, (BitVec.toNat ∘ BitVec.ofNat 32) w = w := fun w hw =>
    (BitVec.toNat_ofNat w 32).trans (Nat.mod_eq_of_lt (h.2 w hw))
  simp [List.map_congr_left hread]

theorem toWords_none {ws : List Nat} (h : ws.length ≠ 16 ∨ ∃ w ∈ ws, 2 ^ 32 ≤ w) : toWords 16 ws = none := by
  refine dif_neg fun ⟨hl, hw⟩ => ?_
  rcases h with h | ⟨w, hm, hge⟩
  · exact h hl
  · exact Nat.not_lt_of_le hge (hw w hm)

theorem toList_map_toNat_inj {n : Nat} {a b : Vector Word n} :
    a.toList.map BitVec.toNat = b.toList.map BitVec.toNat ↔ a = b := by
  rw [(List.map_injective_iff.mpr fun _ _ => BitVec.eq_of_toNat_eq).eq_iff, Vector.toList_inj]

theorem toList_map_toNat_getElem? {n : Nat} (a : Vector Word n) (i : Nat) :
    (a.toList.map BitVec.toNat)[i]? = a[i]?.map BitVec.toNat := by
  rw [List.getElem?_map, Vector.getElem?_toList]

section
variable {v : VecRec} {out : ToolOutput} {o e : Text}

theorem judge_of_unparsed (h : parseOutput out = none) :
    judge v (.value out o e) = .failed (.externalToolFailure v .malformed o e) := by
  simp only [judge, h]

/-- Sixteen words are compared with the engine's. -/
theorem judge_words (a : Vector Word 16) :
    judge v (.value (.words (a.toList.map BitVec.toNat)) o e) = compareOutputs v (compress v) a := by
  simp only [judge, parseOutput, toWords_toNat]

end

/-! ### The comparison (45 R260, R263) -/

section
variable (v : VecRec) (x y : Vector Word 16)

theorem diffIndices_ascending : ((diffIndices x y).map Fin.val).Pairwise (· < ·) :=
  List.pairwise_map.mpr ((List.pairwise_lt_finRange 16).filter _)

theorem mem_diffIndices (i : Nat) : i ∈ (diffIndices x y).map Fin.val ↔ i < 16 ∧ y[i]? ≠ x[i]? := by
  simp only [diffIndices, List.mem_map, List.mem_filter, List.mem_finRange, true_and, bne_iff_ne, Fin.exists_iff]
  constructor
  · rintro ⟨i, hi, hne, rfl⟩
    exact ⟨hi, by simpa [hi] using hne.symm⟩
  · rintro ⟨hi, hne⟩
    exact ⟨i, hi, by simpa [hi, eq_comm] using hne, rfl⟩

/-- The words at some indices, read by index. -/
theorem map_some_words (is : List (Fin 16)) : (is.map fun i => x[i]).map some = (is.map Fin.val).map fun i => x[i]? := by
  simp

theorem compareOutputs_mismatch (h : x ≠ y) :
    compareOutputs v x y = .failed (.outputMismatch v ((diffIndices x y).map Fin.val)
      ((diffIndices x y).map fun i => x[i]) ((diffIndices x y).map fun i => y[i])) :=
  if_neg fun hd => h ((diffIndices_nil x y).mp hd)

end

/-- Settles O41: by whether the answer can be read as sixteen words; those are compared with the engine's. -/
theorem verdictOfOneVector : Obligations.VerdictOfOneVector := by
  intro v ws o e st
  refine ⟨fun h => ?_, fun h => ⟨_, judge_of_unparsed (toWords_none h)⟩, fun bss xs h => ?_,
    fun ss ⟨t, ht, h⟩ => ?_, rfl, rfl⟩
  · obtain ⟨a, rfl⟩ := exists_words h
    rw [judge_words]
    refine ⟨?_, fun hne => ⟨_, _, _, compareOutputs_mismatch v (compress v) a fun h => hne (h ▸ rfl),
      diffIndices_ascending _ _, fun i => ?_, map_some_words _ _, ?_⟩⟩
    · rw [compareOutputs_pass, toList_map_toNat_inj, eq_comm]
    · rw [mem_diffIndices, toList_map_toNat_getElem?,
        (Option.map_injective fun _ _ => BitVec.eq_of_toNat_eq).ne_iff]
    · simp
  · simp only [judge, parseOutput, parseBits_textOfBits h, Option.bind_some]
  · have hbits : parseBits ss = none :=
      parseBits_of_mem ht (h.imp_left fun ⟨c, hc, h0, h1⟩ => bitsOfText_of_mem hc h0 h1)
    exact ⟨_, judge_of_unparsed (by rw [parseOutput, hbits]; rfl)⟩

end Sys2Proof.Machine
end

section
/-! PROOFS. RUN_SUITE as one step (45_oracle.md R260, R263 to R265, R271): its external calls one after another, and what it
answers by them. -/

namespace Sys2Proof.Machine

open Sys2Proof

/-! ### The calls of a suite, in index order (45 R260) -/

/-- The first `k` external calls of a suite on `vs`, one after another: call `j` is made on the inputs `x j`, gives `r j` and
leaves `x (j + 1)`. -/
def SuiteCalls (p : Params) (c : Nat) (vs : List VecRec) (k : Nat) (x : Nat → Inputs) (r : Nat → CallResult) : Prop :=
  ∀ j v, j < k → vs[j]? = some v → callExternal p (.circuit c v) (x j) = (some (r j), x (j + 1))

section
variable {p : Params} {c k : Nat} {v : VecRec} {vs : List VecRec} {y z : Inputs} {x : Nat → Inputs} {q : CallResult}
  {r : Nat → CallResult}

theorem suiteOutcomes_cons_none (h : callExternal p (.circuit c v) y = (none, z)) :
    suiteOutcomes p c (v :: vs) y = (none, z) := by
  simp only [suiteOutcomes, h]

theorem suiteOutcomes_cons_some (h : callExternal p (.circuit c v) y = (some q, z)) :
    suiteOutcomes p c (v :: vs) y = ((suiteOutcomes p c vs z).1.map (judge v q :: ·), (suiteOutcomes p c vs z).2) := by
  simp only [suiteOutcomes, h]

theorem SuiteCalls.head (h : SuiteCalls p c (v :: vs) (k + 1) x r) :
    callExternal p (.circuit c v) (x 0) = (some (r 0), x 1) :=
  h 0 v k.succ_pos rfl

theorem SuiteCalls.tail (h : SuiteCalls p c (v :: vs) (k + 1) x r) :
    SuiteCalls p c vs k (fun j => x (j + 1)) (fun j => r (j + 1)) :=
  fun j w hj hw => h (j + 1) w (Nat.succ_lt_succ hj) hw

/-- Where every call gives a result, every vector has the verdict of its own call. -/
theorem suiteOutcomes_of_calls (h : SuiteCalls p c vs vs.length x r) :
    suiteOutcomes p c vs (x 0) = (some (vs.mapIdx fun j v => judge v (r j)), x vs.length) := by
  induction vs generalizing x r with
  | nil => rfl
  | cons v vs ih =>
    rw [suiteOutcomes_cons_some h.head, ih h.tail, List.mapIdx_cons]
    rfl

/-- A suite abort that arrives during a call ends the suite there. -/
theorem suiteOutcomes_of_killed (h : SuiteCalls p c vs k x r) (hv : vs[k]? = some v)
    (hk : callExternal p (.circuit c v) (x k) = (none, y)) : suiteOutcomes p c vs (x 0) = (none, y) := by
  induction vs generalizing k x r with
  | nil => cases hv
  | cons w ws ih =>
    cases k with
    | zero =>
      obtain rfl : w = v := Option.some.inj hv
      exact suiteOutcomes_cons_none hk
    | succ k => rw [suiteOutcomes_cons_some h.head, ih h.tail hv hk, Option.map_none]

/-- Where no suite abort arrives, every call gives a result. -/
theorem suiteCalls_of_noAbort (h : .abort ∉ y.answers) : ∃ x r, x 0 = y ∧ SuiteCalls p c vs vs.length x r := by
  induction vs generalizing y with
  | nil => exact ⟨fun _ => y, fun _ => .timeout, rfl, fun j v hj => by cases hj⟩
  | cons v vs ih =>
    obtain ⟨q, z, hq, hz⟩ := callExternal_of_noAbort (p := p) (c := .circuit c v) h
    obtain ⟨x, r, rfl, hx⟩ := ih hz
    refine ⟨fun j => j.casesOn y x, fun j => j.casesOn q r, rfl, fun j w hj hw => ?_⟩
    cases j with
    | zero =>
      obtain rfl : v = w := Option.some.inj hw
      exact hq
    | succ j => exact hx j w (Nat.lt_of_succ_lt_succ hj) hw

end

/-! ### RUN_SUITE by its operands and its calls -/

/-- Binding a result after inputs were used writes the bound names and the inputs only. -/
theorem bindResult_inputs_frame (v : Value) (s : State) (x : Inputs) :
    { bindResult v { s with inputs := x } with env := s.env, inputs := s.inputs } = s :=
  congrArg (fun t : State => { t with inputs := s.inputs }) (bindResult_frame v { s with inputs := x } s.env)

section
variable {s : State} {a : SuiteArgs} {os : List SuiteOutcome} {y : Inputs} {x : Nat → Inputs} {r : Nat → CallResult}

theorem exec_runSuite_unready (ha : suiteArgs s = some a) (hv : a.vectors ≠ []) (hr : s.engine.tablesReady = false) :
    exec .runSuite s = .refused .tablesNotLoaded := by
  simp [exec, execRunSuite, ha, hv, hr]

theorem exec_runSuite_of_outcomes (ha : suiteArgs s = some a) (hr : a.vectors = [] ∨ s.engine.tablesReady = true)
    (h : suiteOutcomes s.params a.circuit a.vectors s.inputs = (some os, y)) :
    exec .runSuite s = .next (bindResult (.suite (suiteResult os)) { s with inputs := y }) := by
  simp [exec, execRunSuite, ha, hr.symm, h]

theorem exec_runSuite_of_killed (ha : suiteArgs s = some a) (hr : a.vectors = [] ∨ s.engine.tablesReady = true)
    (h : suiteOutcomes s.params a.circuit a.vectors s.inputs = (none, y)) :
    exec .runSuite s = .next (killExternal { s with inputs := y }) := by
  simp [exec, execRunSuite, ha, hr.symm, h]

theorem exec_runSuite_of_calls (ha : suiteArgs s = some a) (hr : a.vectors = [] ∨ s.engine.tablesReady = true)
    (h0 : x 0 = s.inputs) (h : SuiteCalls s.params a.circuit a.vectors a.vectors.length x r) :
    exec .runSuite s = .next (bindResult (.suite (suiteResult (a.vectors.mapIdx fun j v => judge v (r j))))
      { s with inputs := x a.vectors.length }) :=
  exec_runSuite_of_outcomes ha hr (h0 ▸ suiteOutcomes_of_calls h)

end

/-- The entry of a vector is its verdict under its index. -/
theorem suiteResult_mapIdx_getElem? {f : Nat → VecRec → SuiteOutcome} {vs : List VecRec} {j : Nat} {v : VecRec}
    (hv : vs[j]? = some v) : (suiteResult (vs.mapIdx f)).entries[j]? = some (j, f j v) := by
  simp only [suiteResult, indexFrom_getElem?, List.getElem?_mapIdx, hv, Option.map_some, Nat.zero_add]

/-- Settles O39: the suite's calls are one after another, and either all give a result or one is killed. -/
theorem runSuiteGivesEveryVectorOneOutcome : Obligations.RunSuiteGivesEveryVectorOneOutcome := by
  intro s a ha called returns
  refine ⟨exec_runSuite_unready ha, fun hr => ?_⟩
  have hreturns : ∀ x r, called a.vectors.length x r → returns x r := fun x r ⟨h0, h⟩ =>
    ⟨_, _, exec_runSuite_of_calls ha hr h0 h, boundResult_bindResult _ rfl rfl,
      (indexFrom_length 0 _).trans List.length_mapIdx, bindResult_inputs _ _, fun j v => suiteResult_mapIdx_getElem?,
      indexFrom_all 0 _, bindResult_inputs_frame _ s _⟩
  refine ⟨fun hn => ?_, hreturns, fun k x r v y ⟨h0, h⟩ hv hk => ?_⟩
  · obtain ⟨x, r, hc⟩ := suiteCalls_of_noAbort (p := s.params) (c := a.circuit) (vs := a.vectors) hn
    exact ⟨x, r, hc, hreturns x r hc⟩
  · exact exec_runSuite_of_killed ha hr (h0 ▸ suiteOutcomes_of_killed h hv hk)

/-! ### A circuit equal to `compress` (45 R273, R274) -/

/-- Each vector takes the next answer, and passes. -/
theorem suiteOutcomes_of_correct {p : Params} {c : Nat} {vs : List VecRec} {answers : List Attempt} (y : Inputs)
    (more : List Arrival) (hlen : answers.length = vs.length)
    (h : ∀ (j : Nat) (v : VecRec) (b : Attempt), vs[j]? = some v → answers[j]? = some b →
      b.elapsed ≤ externalTimeout p ∧ b.exit = .exited 0 (.words ((compress v).toList.map BitVec.toNat))) :
    suiteOutcomes p c vs { y with answers := answers.map .answer ++ more } =
      (some (List.replicate vs.length .pass), { y with answers := more }) := by
  induction vs generalizing answers with
  | nil =>
    obtain rfl := List.length_eq_zero_iff.mp hlen
    rfl
  | cons v vs ih =>
    obtain ⟨b, bs, rfl⟩ := List.exists_cons_of_length_eq_add_one hlen
    obtain ⟨ht, he⟩ := h 0 v b rfl rfl
    have hcall := callExternal_answer (p := p) (c := .circuit c v) (x := y) (rest := bs.map .answer ++ more)
      (classify_value ht he) nofun
    have hrest := ih (Nat.succ.inj hlen) fun j w d hw hd => h (j + 1) w d hw hd
    rw [List.map_cons, List.cons_append, suiteOutcomes_cons_some hcall, hrest, judge_of_compress]
    rfl

/-- The SuiteResult of outcomes that all are PASS. -/
theorem suiteResult_replicate_pass (n : Nat) :
    suiteResult (List.replicate n .pass) = ⟨(List.range n).map fun j => (j, .pass), true⟩ := by
  have hall : (List.replicate n SuiteOutcome.pass).all (· == .pass) = true := by simp
  have hentries : ∀ e ∈ indexFrom 0 (List.replicate n .pass), (e.1, .pass) = e := fun e he =>
    Prod.ext rfl ((indexFrom_all 0 _).mp hall e he).symm
  have hindices := indexFrom_fst 0 (List.replicate n .pass)
  rw [List.length_replicate, ← List.range_eq_range'] at hindices
  rw [suiteResult, hall, ← hindices, List.map_map]
  exact congrArg (SuiteResult.mk · true) ((List.map_congr_left hentries).trans (List.map_id' _)).symm

/-- Settles O40: every outcome is PASS, and so is every entry of the SuiteResult. -/
theorem suiteOfACorrectCircuitPasses : Obligations.SuiteOfACorrectCircuitPasses := by
  intro s a answers more ha hr hin hlen hgood
  have hall := suiteOutcomes_of_correct (c := a.circuit) s.inputs more hlen hgood
  rw [← hin] at hall
  rw [exec_runSuite_of_outcomes ha (.inr hr) hall, suiteResult_replicate_pass]
  exact ⟨_, rfl, boundResult_bindResult _ rfl rfl, bindResult_inputs _ _⟩

end Sys2Proof.Machine
end

section
/-! PROOFS. The interleaved view of RUN_SUITE and suite abort (45_oracle.md R265 to R267, R271): the events of external
processes, what the slot of one vector takes of the answers, and why every interleaving binds the SuiteResult of the one step. -/

namespace Sys2Proof.Machine

open Sys2Proof

/-! ### The events of a suite (45 R266) -/

section
variable {s : State} {l : Line} {args : SuiteArgs} {u : Suite} {j : Nat} {x : SuiteSlot} {a : Attempt} {y : Inputs}
  {os : List SuiteOutcome}

theorem suiteOpen_of_args (hs : s.suite = none) (ha : suiteArgs { s with line := l } = some args) :
    runEvent (.suiteOpen l) s = .next { s with
      line := l, suite := some ⟨args.circuit, args.vectors.map fun v => ⟨v, 0, false, none⟩, l.dest⟩ } := by
  rw [hs] at ha
  simp only [runEvent, suiteOpen, hs, ha]

theorem suiteLaunch_of_waiting (hu : s.suite = some u) (hx : u.slots[j]? = some x) (hr : x.running = false)
    (ho : x.outcome = none) (hl : liveProcesses u.slots < nWorkers s.params) (ht : s.engine.tablesReady = true) :
    runEvent (.suiteLaunch j) s = .next { s with suite := some (setSlot j { x with running := true } u) } := by
  simp only [runEvent, suiteLaunch, hu, hx, hr, ho, hl, ht, and_self, if_true]

theorem suiteAnswer_of_abort (hu : s.suite = some u) (hx : u.slots[j]? = some x) (hr : x.running = true)
    (hd : drawAttempt (.circuit u.circuit x.vec) s.inputs = (none, y)) :
    runEvent (.suiteAnswer j) s = .next (killExternal { s with inputs := y }) := by
  simp only [runEvent, suiteAnswer, hu, hx, hr, hd, if_true]

theorem suiteAnswer_of_attempt (hu : s.suite = some u) (hx : u.slots[j]? = some x) (hr : x.running = true)
    (hd : drawAttempt (.circuit u.circuit x.vec) s.inputs = (some a, y)) :
    runEvent (.suiteAnswer j) s = .next { s with
      suite := some (setSlot j (slotAfter (classify (externalTimeout s.params) a) x) u), inputs := y } := by
  simp only [runEvent, suiteAnswer, hu, hx, hr, hd, if_true]

theorem suiteClose_of_finished (hu : s.suite = some u) (ho : finishedOutcomes u.slots = some os) :
    runEvent .suiteClose s = .next (bindTo u.dest (.suite (suiteResult os)) { s with suite := none }) := by
  simp only [runEvent, suiteClose, hu, ho]

end

/-- A suite is finished when every slot has its outcome. -/
theorem finishedOutcomes_eq_some {xs : List SuiteSlot} {os : List SuiteOutcome} :
    finishedOutcomes xs = some os ↔ xs.map SuiteSlot.outcome = os.map some := by
  induction xs generalizing os with
  | nil => cases os <;> simp [finishedOutcomes]
  | cons x xs ih =>
    cases os with
    | nil => cases hx : x.outcome <;> cases hxs : finishedOutcomes xs <;> simp [finishedOutcomes, hx, hxs]
    | cons o os =>
      rw [List.map_cons, List.map_cons, List.cons.injEq, ← ih]
      cases hx : x.outcome <;> cases hxs : finishedOutcomes xs <;> simp [finishedOutcomes, hx, hxs]

theorem setSlot_getElem?_same {j : Nat} {x y : SuiteSlot} {u : Suite} (h : u.slots[j]? = some x) :
    (setSlot j y u).slots[j]? = some y :=
  List.getElem?_set_self (List.getElem?_eq_some_iff.mp h).1

theorem setSlot_getElem?_other {i j : Nat} {y : SuiteSlot} {u : Suite} (h : i ≠ j) :
    (setSlot j y u).slots[i]? = u.slots[i]? :=
  List.getElem?_set_ne h.symm

theorem setSlot_comm {j k : Nat} {x y : SuiteSlot} {u : Suite} (h : j ≠ k) :
    setSlot k y (setSlot j x u) = setSlot j x (setSlot k y u) :=
  congrArg (fun slots => { u with slots := slots }) (List.set_comm x y h)

/-- What holds of every slot and of a new one holds of every slot after the replacement. -/
theorem forall_setSlot {q : SuiteSlot → Prop} {j : Nat} {x : SuiteSlot} {u : Suite} (h : ∀ z ∈ u.slots, q z) (hx : q x) :
    ∀ z ∈ (setSlot j x u).slots, q z :=
  fun z hz => (List.mem_or_eq_of_mem_set hz).elim (h z) fun e => e ▸ hx

section
variable {r : CallResult} {x : SuiteSlot}

theorem slotAfter_retry (hr : r = .timeout) (h : x.retries = 0) :
    slotAfter r x = { x with running := false, retries := 1 } :=
  if_pos ⟨hr, h⟩

theorem slotAfter_final (h : r ≠ .timeout ∨ x.retries ≠ 0) :
    slotAfter r x = { x with running := false, outcome := some (judge x.vec r) } :=
  if_neg (not_and_or.mpr h)

@[simp] theorem slotAfter_running : (slotAfter r x).running = false := by
  unfold slotAfter
  split <;> rfl

end

/-! ### The end of a RUN_SINGLE's process -/

section
variable {s : State} {w : Nat} {x : SingleRun} {a : Attempt} {y : Inputs}

theorem singleAnswer_of_abort (hx : findSingle w s.singles = some x)
    (hd : drawAttempt (singleCall x) s.inputs = (none, y)) :
    runEvent (.singleAnswer w) s = .next (killExternal { s with inputs := y }) := by
  simp only [runEvent, singleAnswer, hx, hd]

theorem singleAnswer_of_retry (hx : findSingle w s.singles = some x)
    (hd : drawAttempt (singleCall x) s.inputs = (some a, y)) (hc : classify (externalTimeout s.params) a = .timeout)
    (hr : x.retries = 0) :
    runEvent (.singleAnswer w) s = .next { s with singles := setSingle { x with retries := 1 } s.singles, inputs := y } := by
  simp only [runEvent, singleAnswer, hx, hd, hc, hr, and_self, if_true]

theorem singleAnswer_of_final (hx : findSingle w s.singles = some x)
    (hd : drawAttempt (singleCall x) s.inputs = (some a, y))
    (h : classify (externalTimeout s.params) a ≠ .timeout ∨ x.retries ≠ 0) :
    runEvent (.singleAnswer w) s =
      .next (stageEnded x (endStage x.vec (classify (externalTimeout s.params) a) y).1
        { s with inputs := (endStage x.vec (classify (externalTimeout s.params) a) y).2 }) := by
  simp only [runEvent, singleAnswer, hx, hd, if_neg (not_and_or.mpr h)]

/-- A worker of a RUN_SINGLE under way has one. -/
theorem findSingle_of_mem {xs : List SingleRun} (h : x ∈ xs) : ∃ z, findSingle x.worker xs = some z :=
  Option.isSome_iff_exists.mp (List.find?_isSome.mpr ⟨x, h, beq_self_eq_true _⟩)

end

/-- Settles O44: a suite abort is `killExternal`, between two steps and in place of an answer. -/
theorem abortReturnsNoResult : Obligations.AbortReturnsNoResult := by
  intro s rest aborting killed
  refine ⟨rfl, fun u j x hu hx hr => ?_, fun x hx => ?_⟩
  · exact suiteAnswer_of_abort (s := aborting) hu hx hr drawAttempt_abort
  · obtain ⟨z, hz⟩ := findSingle_of_mem hx
    exact singleAnswer_of_abort (s := aborting) hz drawAttempt_abort

/-! ### Events one after another -/

/-- An event of a suite under way: a vector is launched, or its process ends. -/
def isSuiteStep (ev : Event) : Prop := ∃ j, ev = .suiteLaunch j ∨ ev = .suiteAnswer j

section
variable {ev : Event} {evs fs : List Event} {s t u : State}

theorem runEvents_cons_of_next (h : runEvent ev s = .next t) : runEvents (ev :: evs) s = runEvents evs t := by
  simp only [runEvents, h]

theorem runEvents_cons_next (h : runEvents (ev :: evs) s = .next u) :
    ∃ t, runEvent ev s = .next t ∧ runEvents evs t = .next u := by
  simp only [runEvents] at h
  cases he : runEvent ev s <;> simp only [he] at h
  · exact ⟨_, rfl, h⟩
  all_goals cases h

theorem runEvents_append_of_next (h : runEvents evs s = .next t) : runEvents (evs ++ fs) s = runEvents fs t := by
  rw [runEvents_append, h]

end

/-! ### An interleaving that gives what the one step gives (45 R266) -/

section
variable {s : State} {u : Suite} {j : Nat} {x : SuiteSlot} {v : VecRec} {a : Attempt} {r : CallResult} {y : Inputs}

/-- No process of a suite lives. -/
def suiteIdle (u : Suite) : Prop := ∀ z ∈ u.slots, z.running = false

theorem liveProcesses_of_idle (h : suiteIdle u) : liveProcesses u.slots = 0 :=
  List.countP_eq_zero.mpr fun z hz => by simp [h z hz]

/-- A vector launched while no other process lives takes the next attempt. -/
theorem runEvents_attempt (hu : s.suite = some u) (hi : suiteIdle u) (ht : s.engine.tablesReady = true)
    (hx : u.slots[j]? = some x) (ho : x.outcome = none)
    (hd : drawAttempt (.circuit u.circuit x.vec) s.inputs = (some a, y)) :
    runEvents [.suiteLaunch j, .suiteAnswer j] s = .next { s with
      suite := some (setSlot j (slotAfter (classify (externalTimeout s.params) a) x) u), inputs := y } := by
  have hl : liveProcesses u.slots < nWorkers s.params := liveProcesses_of_idle hi ▸ Nat.succ_pos _
  have hlaunch := suiteLaunch_of_waiting hu hx (hi x (List.mem_of_getElem? hx)) ho hl ht
  have hanswer := suiteAnswer_of_attempt (s := { s with suite := some (setSlot j { x with running := true } u) }) rfl
    (setSlot_getElem?_same hx) rfl hd
  rw [runEvents_cons_of_next hlaunch, runEvents_cons_of_next hanswer]
  simp only [setSlot, List.set_set]
  rfl

/-- A vector evaluated while no other process lives has the verdict of its call. -/
theorem runEvents_vector (hu : s.suite = some u) (hi : suiteIdle u) (ht : s.engine.tablesReady = true)
    (hx : u.slots[j]? = some ⟨v, 0, false, none⟩)
    (hc : callExternal s.params (.circuit u.circuit v) s.inputs = (some r, y)) :
    ∃ evs n, (∀ ev ∈ evs, isSuiteStep ev) ∧ runEvents evs s = .next { s with
      suite := some (setSlot j ⟨v, n, false, some (judge v r)⟩ u), inputs := y } := by
  have hsteps : ∀ ev ∈ [Event.suiteLaunch j, .suiteAnswer j], isSuiteStep ev := by simp [isSuiteStep]
  rcases callExternal_cases s.params (.circuit u.circuit v) s.inputs with
    ⟨z, -, h⟩ | ⟨a, z, hd, hf, h⟩ | ⟨a, z, hd, hf, h⟩
  · cases h.symm.trans hc
  · cases h.symm.trans hc
    have hrun := runEvents_attempt hu hi ht hx rfl hd
    rw [slotAfter_final (.inl hf)] at hrun
    exact ⟨_, 0, hsteps, hrun⟩
  · rcases hd2 : drawAttempt (.circuit u.circuit v) z with ⟨_ | b, w⟩ <;> rw [hd2] at h
    · cases h.symm.trans hc
    · cases h.symm.trans hc
      have hrun := runEvents_attempt hu hi ht hx rfl hd
      rw [slotAfter_retry hf rfl] at hrun
      have hrun2 := runEvents_attempt (s := { s with
        suite := some (setSlot j ⟨v, 1, false, none⟩ u), inputs := z }) rfl (forall_setSlot hi rfl) ht
        (setSlot_getElem?_same hx) rfl hd2
      rw [slotAfter_final (.inr Nat.one_ne_zero)] at hrun2
      refine ⟨_, 1, List.forall_mem_append.mpr ⟨hsteps, hsteps⟩, (runEvents_append_of_next hrun).trans (hrun2.trans ?_)⟩
      simp only [setSlot, List.set_set]

end

/-- The slot a suite opens with for a vector (10 R52). -/
def waitingSlot (v : VecRec) : SuiteSlot := ⟨v, 0, false, none⟩

/-- The outcomes of the rest of a suite, made on what its first call left. -/
theorem suiteOutcomes_cons_eq_some {p : Params} {c : Nat} {v : VecRec} {vs : List VecRec} {x y : Inputs}
    {os : List SuiteOutcome} (h : suiteOutcomes p c (v :: vs) x = (some os, y)) :
    ∃ r z rest, callExternal p (.circuit c v) x = (some r, z) ∧ suiteOutcomes p c vs z = (some rest, y) ∧
      os = judge v r :: rest := by
  rcases hc : callExternal p (.circuit c v) x with ⟨_ | r, z⟩
  · rw [suiteOutcomes_cons_none hc] at h
    cases h
  · rw [suiteOutcomes_cons_some hc, Prod.mk.injEq, Option.map_eq_some_iff] at h
    obtain ⟨⟨rest, hrest, rfl⟩, hy⟩ := h
    exact ⟨r, z, rest, rfl, Prod.ext hrest hy, rfl⟩

/-- The vectors evaluated one after another in index order, after those evaluated before: the outcomes of the one step. -/
theorem runEvents_vectors {c : Nat} {judged : List SuiteSlot} {vs : List VecRec} {dest : Option Nat} {s : State} {y : Inputs}
    {os : List SuiteOutcome} (hs : s.suite = some ⟨c, judged ++ vs.map waitingSlot, dest⟩)
    (hjudged : ∀ z ∈ judged, z.running = false) (ht : vs = [] ∨ s.engine.tablesReady = true)
    (h : suiteOutcomes s.params c vs s.inputs = (some os, y)) :
    ∃ evs slots, (∀ ev ∈ evs, isSuiteStep ev) ∧ slots.map SuiteSlot.outcome = os.map some ∧
      runEvents evs s = .next { s with suite := some ⟨c, judged ++ slots, dest⟩, inputs := y } := by
  induction vs generalizing judged s os with
  | nil =>
    cases h
    rw [List.map_nil] at hs
    exact ⟨[], [], nofun, rfl, by rw [← hs]; rfl⟩
  | cons v vs ih =>
    have ht : s.engine.tablesReady = true := ht.resolve_left nofun
    obtain ⟨r, z, rest, hc, hrest, rfl⟩ := suiteOutcomes_cons_eq_some h
    have hidle : suiteIdle ⟨c, judged ++ (v :: vs).map waitingSlot, dest⟩ := by
      intro x hx
      rcases List.mem_append.mp hx with hx | hx
      · exact hjudged x hx
      · obtain ⟨w, -, rfl⟩ := List.mem_map.mp hx
        rfl
    obtain ⟨evs, n, hev, hrun⟩ := runEvents_vector (j := judged.length) hs hidle ht (by simp [waitingSlot]) hc
    have hslots : setSlot judged.length ⟨v, n, false, some (judge v r)⟩ ⟨c, judged ++ (v :: vs).map waitingSlot, dest⟩ =
        ⟨c, (judged ++ [⟨v, n, false, some (judge v r)⟩]) ++ vs.map waitingSlot, dest⟩ := by
      simp [setSlot]
    rw [hslots] at hrun
    obtain ⟨fs, slots, hfs, hout, hrun2⟩ := ih (judged := judged ++ [⟨v, n, false, some (judge v r)⟩])
      (s := { s with
        suite := some ⟨c, (judged ++ [⟨v, n, false, some (judge v r)⟩]) ++ vs.map waitingSlot, dest⟩, inputs := z })
      rfl (List.forall_mem_append.mpr ⟨hjudged, by simp⟩) (.inr ht) hrest
    refine ⟨evs ++ fs, ⟨v, n, false, some (judge v r)⟩ :: slots, List.forall_mem_append.mpr ⟨hev, hfs⟩, ?_, ?_⟩
    · rw [List.map_cons, hout, List.map_cons]
    · refine (runEvents_append_of_next hrun).trans (hrun2.trans ?_)
      simp only [List.append_assoc, List.singleton_append]

/-- RUN_SUITE as one step has an interleaving that gives the same, whatever arrives but a suite abort. -/
theorem exists_interleaving {s : State} {a : SuiteArgs} (hs : s.suite = none) (ha : suiteArgs s = some a)
    (ht : a.vectors = [] ∨ s.engine.tablesReady = true) (hn : .abort ∉ s.inputs.answers) :
    ∃ evs, (∀ ev ∈ evs, isSuiteStep ev) ∧
      runEvents (.suiteOpen s.line :: (evs ++ [.suiteClose])) s = exec .runSuite s := by
  obtain ⟨x, r, h0, hc⟩ := suiteCalls_of_noAbort (p := s.params) (c := a.circuit) (vs := a.vectors) hn
  have hall := h0 ▸ suiteOutcomes_of_calls hc
  obtain ⟨evs, slots, hev, hout, hrun⟩ := runEvents_vectors (judged := []) (dest := s.line.dest)
    (s := { s with suite := some ⟨a.circuit, a.vectors.map waitingSlot, s.line.dest⟩ }) rfl nofun ht hall
  refine ⟨evs, hev, ?_⟩
  rw [runEvents_cons_of_next (suiteOpen_of_args hs ha)]
  refine (runEvents_append_of_next hrun).trans ?_
  rw [runEvents_cons_of_next (suiteClose_of_finished rfl (finishedOutcomes_eq_some.mpr hout)),
    exec_runSuite_of_outcomes ha ht hall]
  simp only [runEvents, bindResult, ← hs]

/-! ### Every interleaving that closes (45 R266) -/

/-- The slot of a vector takes the answers of its processes, each by a fresh process, until it has its outcome (45 R267). -/
inductive SlotTakes (limit : Nat) : SuiteSlot → List Arrival → SuiteOutcome → Prop where
  | done {x : SuiteSlot} {o : SuiteOutcome} : x.outcome = some o → SlotTakes limit x [] o
  | answer {x : SuiteSlot} {a : Attempt} {tape : List Arrival} {o : SuiteOutcome} : x.outcome = none →
      SlotTakes limit (slotAfter (classify limit a) x) tape o → SlotTakes limit x (.answer a :: tape) o

/-- A launch takes no answer. -/
theorem SlotTakes.of_running {limit : Nat} {x : SuiteSlot} {b : Bool} {tape : List Arrival} {o : SuiteOutcome}
    (h : SlotTakes limit { x with running := b } tape o) : SlotTakes limit x tape o := by
  cases h with
  | done ho => exact .done ho
  | answer ho h => exact .answer ho h

/-- A vector that no process has been started for takes the answers its external call takes, and its outcome is the call's
verdict. -/
theorem SlotTakes.callExternal {p : Params} {c : Nat} {v : VecRec} {tape rest : List Arrival} {o : SuiteOutcome}
    (h : SlotTakes (externalTimeout p) (waitingSlot v) tape o) (x : Inputs) :
    ∃ r, callExternal p (.circuit c v) { x with answers := tape ++ rest } = (some r, { x with answers := rest }) ∧
      o = judge v r := by
  cases h with
  | done ho => cases ho
  | @answer _ a _ _ _ h =>
    by_cases hc : classify (externalTimeout p) a = .timeout
    · rw [slotAfter_retry hc rfl] at h
      cases h with
      | done ho => cases ho
      | @answer _ b _ _ _ h =>
        rw [slotAfter_final (.inr Nat.one_ne_zero)] at h
        cases h with
        | done ho => exact ⟨_, callExternal_retry hc rfl, (Option.some.inj ho).symm⟩
        | answer ho => cases ho
    · rw [slotAfter_final (.inl hc)] at h
      cases h with
      | done ho => exact ⟨_, callExternal_answer rfl hc, (Option.some.inj ho).symm⟩
      | answer ho => cases ho

/-- On the answers of each vector after those of the vectors before it, the one step gives every vector the outcome its slot
took from its answers. -/
theorem suiteOutcomes_of_takes {p : Params} {c : Nat} {vs : List VecRec} {os : List SuiteOutcome} {tapes : Nat → List Arrival}
    (hlen : os.length = vs.length) (x : Inputs) (rest : List Arrival)
    (h : ∀ j v o, vs[j]? = some v → os[j]? = some o → SlotTakes (externalTimeout p) (waitingSlot v) (tapes j) o) :
    suiteOutcomes p c vs { x with answers := (List.range vs.length).flatMap tapes ++ rest } =
      (some os, { x with answers := rest }) := by
  induction vs generalizing os tapes with
  | nil =>
    obtain rfl := List.length_eq_zero_iff.mp hlen
    rfl
  | cons v vs ih =>
    obtain ⟨o, os, rfl⟩ := List.exists_cons_of_length_eq_add_one hlen
    obtain ⟨r, hc, rfl⟩ := (h 0 v o rfl rfl).callExternal (c := c)
      (rest := (List.range vs.length).flatMap (tapes ∘ Nat.succ) ++ rest) x
    have hrest := ih (tapes := tapes ∘ Nat.succ) (Nat.succ.inj hlen) fun j w q hw hq => h (j + 1) w q hw hq
    rw [List.length_cons, List.range_succ_eq_map, List.flatMap_cons, List.flatMap_map, List.append_assoc]
    refine (suiteOutcomes_cons_some hc).trans ?_
    rw [hrest]
    rfl

/-- Among some indices, one answer for each that is `i`. -/
theorem flatMap_answer_eq_replicate (is : List Nat) (i : Nat) (a : Arrival) :
    is.flatMap (fun j => if i = j then [a] else []) = List.replicate (is.count i) a := by
  induction is with
  | nil => rfl
  | cons j js ih =>
    rw [List.flatMap_cons, ih]
    by_cases h : i = j
    · simp [h, List.replicate_succ]
    · simp [h, List.count_cons_of_ne (Ne.symm h)]

/-- An answer more for vector `i` is one more of the answers of all vectors, wherever it stands among them. -/
theorem perm_cons_flatMap {n i : Nat} {a : Arrival} {used : List Arrival} {f : Nat → List Arrival} (hi : i < n)
    (h : used.Perm ((List.range n).flatMap f)) :
    (a :: used).Perm ((List.range n).flatMap fun j => (if i = j then [a] else []) ++ f j) := by
  have hone : (List.range n).flatMap (fun j => if i = j then [a] else []) = [a] := by
    rw [flatMap_answer_eq_replicate, List.count_eq_one_of_mem List.nodup_range (List.mem_range.mpr hi)]
    rfl
  refine .trans ?_ (List.flatMap_append_perm _ _ _)
  rw [hone]
  exact .cons a h

/-! ### Draws -/

theorem drawAttempt_cases {c : ExtCall} {x y : Inputs} {a : Attempt} (h : drawAttempt c x = (some a, y)) :
    (x.answers = .answer a :: y.answers ∧ y = { x with answers := y.answers }) ∨ y.draws = x.draws + 1 := by
  simp only [drawAttempt] at h
  split at h <;> cases h
  · exact .inl ⟨‹_›, rfl⟩
  · exact .inr rfl

theorem drawAttempt_draws_le (c : ExtCall) (x : Inputs) : x.draws ≤ (drawAttempt c x).2.draws := by
  simp only [drawAttempt]
  split
  · rfl
  · rfl
  · exact Nat.le_succ _

/-- No event of a suite under way gives a free draw back. -/
theorem runEvent_draws_le {ev : Event} {s t : State} (hev : isSuiteStep ev) (h : runEvent ev s = .next t) :
    s.inputs.draws ≤ t.inputs.draws := by
  obtain ⟨j, rfl | rfl⟩ := hev
  · obtain ⟨u, x, -, -, -, -, -, -, rfl⟩ := suiteLaunch_next h
    rfl
  · obtain ⟨u, x, -, -, -, ⟨y, hd, rfl⟩ | ⟨a, y, hd, rfl⟩⟩ := suiteAnswer_next h
    all_goals exact (drawAttempt_draws_le _ s.inputs).trans_eq (congrArg (·.2.draws) hd)

theorem runEvents_draws_le {evs : List Event} {s t : State} (hev : ∀ ev ∈ evs, isSuiteStep ev)
    (h : runEvents (evs ++ [.suiteClose]) s = .next t) : s.inputs.draws ≤ t.inputs.draws := by
  induction evs generalizing s with
  | nil =>
    obtain ⟨_, h, ⟨⟩⟩ := runEvents_cons_next h
    obtain ⟨u, os, -, -, rfl⟩ := suiteClose_next h
    rw [bindTo_inputs]
  | cons ev evs ih =>
    obtain ⟨hs, hevs⟩ := List.forall_mem_cons.mp hev
    obtain ⟨s1, h1, h2⟩ := runEvents_cons_next h
    exact (runEvent_draws_le hs h1).trans (ih hevs h2)

/-- Without a suite no event of a suite happens. -/
theorem runEvents_of_no_suite {evs : List Event} {s t : State} (hev : ∀ ev ∈ evs, isSuiteStep ev) (hs : s.suite = none) :
    runEvents (evs ++ [.suiteClose]) s ≠ .next t := by
  intro h
  have hnone : ∀ {u : Suite}, s.suite ≠ some u := by simp [hs]
  cases evs with
  | nil =>
    obtain ⟨_, h, -⟩ := runEvents_cons_next h
    obtain ⟨u, -, hu, -⟩ := suiteClose_next h
    exact hnone hu
  | cons ev evs =>
    obtain ⟨_, h, -⟩ := runEvents_cons_next h
    obtain ⟨j, rfl | rfl⟩ := hev ev List.mem_cons_self
    · obtain ⟨u, x, hu, -⟩ := suiteLaunch_next h
      exact hnone hu
    · obtain ⟨u, x, hu, -⟩ := suiteAnswer_next h
      exact hnone hu

/-! ### What an interleaving leaves -/

/-- The events `evs` and the closing of the suite `u` lead from `s` to `t`: they take the answers `used`, every slot takes its
own of them, and the outcomes `os` are bound. -/
structure SuiteCloses (evs : List Event) (s : State) (u : Suite) (used : List Arrival) (os : List SuiteOutcome) (t : State) :
    Prop where
  answers : s.inputs.answers = used ++ t.inputs.answers
  count : used.length = (evs.filterMap answeredVector).length
  perm : used.Perm ((List.range u.slots.length).flatMap (answersOf evs used))
  outcomes : os.length = u.slots.length
  takes : ∀ j x o, u.slots[j]? = some x → os[j]? = some o →
    SlotTakes (externalTimeout s.params) x (answersOf evs used j) o
  bound : t = bindTo u.dest (.suite (suiteResult os))
    { s with suite := none, inputs := { s.inputs with answers := t.inputs.answers } }

/-- A vector whose process lives has no outcome yet. -/
def liveUnjudged (u : Suite) : Prop := ∀ z ∈ u.slots, z.running = true → z.outcome = none

theorem SuiteCloses.of_close {s t : State} {u : Suite} (hu : s.suite = some u) (h : runEvent .suiteClose s = .next t) :
    ∃ os, SuiteCloses [] s u [] os t := by
  obtain ⟨u', os, hu', ho, rfl⟩ := suiteClose_next h
  obtain rfl : u = u' := Option.some.inj (hu.symm.trans hu')
  have hout := finishedOutcomes_eq_some.mp ho
  refine ⟨os, ?_, rfl, by simp, by simpa using (congrArg List.length hout).symm, fun j x o hx hj => .done ?_, ?_⟩
  · rw [bindTo_inputs]; rfl
  · have hat := congrArg (·[j]?) hout
    simpa [hx, hj] using hat
  · rw [bindTo_inputs]

section
variable {evs : List Event} {s t : State} {u : Suite} {used : List Arrival} {os : List SuiteOutcome} {j : Nat} {x : SuiteSlot}

theorem SuiteCloses.of_launch (hx : u.slots[j]? = some x)
    (h : SuiteCloses evs { s with suite := some (setSlot j { x with running := true } u) }
      (setSlot j { x with running := true } u) used os t) :
    SuiteCloses (.suiteLaunch j :: evs) s u used os t := by
  have hlen : (setSlot j { x with running := true } u).slots.length = u.slots.length := List.length_set
  refine ⟨h.answers, h.count, hlen ▸ h.perm, hlen ▸ h.outcomes, fun i z o hz ho => ?_, h.bound⟩
  by_cases hi : i = j
  · subst hi
    obtain rfl : x = z := Option.some.inj (hx.symm.trans hz)
    exact (h.takes i _ o (setSlot_getElem?_same hx) ho).of_running
  · exact h.takes i z o ((setSlot_getElem?_other hi).trans hz) ho

theorem SuiteCloses.of_answer {a : Attempt} {rest : List Arrival} (hx : u.slots[j]? = some x) (ho : x.outcome = none)
    (ha : s.inputs.answers = .answer a :: rest)
    (h : SuiteCloses evs
      { s with
        suite := some (setSlot j (slotAfter (classify (externalTimeout s.params) a) x) u)
        inputs := { s.inputs with answers := rest } }
      (setSlot j (slotAfter (classify (externalTimeout s.params) a) x) u) used os t) :
    SuiteCloses (.suiteAnswer j :: evs) s u (.answer a :: used) os t := by
  have hlen : (setSlot j (slotAfter (classify (externalTimeout s.params) a) x) u).slots.length = u.slots.length :=
    List.length_set
  have hanswers : ∀ i, answersOf (.suiteAnswer j :: evs) (.answer a :: used) i = _ :=
    answersOf_answer evs (.answer a) used j
  have hj : j < u.slots.length := (List.getElem?_eq_some_iff.mp hx).1
  refine ⟨?_, congrArg Nat.succ h.count, ?_, hlen ▸ h.outcomes, fun i z o hz hq => ?_, h.bound⟩
  · rw [ha, List.cons_append]
    exact congrArg _ h.answers
  · rw [funext hanswers]
    exact perm_cons_flatMap hj (hlen ▸ h.perm)
  · rw [hanswers]
    by_cases hi : i = j
    · subst hi
      obtain rfl : x = z := Option.some.inj (hx.symm.trans hz)
      rw [if_pos rfl]
      exact .answer ho (h.takes i _ o (setSlot_getElem?_same hx) hq)
    · rw [if_neg (Ne.symm hi)]
      exact h.takes i z o ((setSlot_getElem?_other hi).trans hz) hq

end

/-- Every interleaving that closes on answers that have arrived. -/
theorem suiteCloses_of_runEvents {evs : List Event} {s t : State} {u : Suite} (hev : ∀ ev ∈ evs, isSuiteStep ev)
    (hu : s.suite = some u) (hlive : liveUnjudged u) (h : runEvents (evs ++ [.suiteClose]) s = .next t)
    (hd : t.inputs.draws = s.inputs.draws) : ∃ used os, SuiteCloses evs s u used os t := by
  induction evs generalizing s u with
  | nil =>
    obtain ⟨_, h, ⟨⟩⟩ := runEvents_cons_next h
    obtain ⟨os, hc⟩ := SuiteCloses.of_close hu h
    exact ⟨[], os, hc⟩
  | cons ev evs ih =>
    obtain ⟨hs, hevs⟩ := List.forall_mem_cons.mp hev
    obtain ⟨s1, h1, h2⟩ := runEvents_cons_next h
    obtain ⟨j, rfl | rfl⟩ := hs
    · obtain ⟨u', x, hu', hx, -, ho, -, -, rfl⟩ := suiteLaunch_next h1
      obtain rfl : u = u' := Option.some.inj (hu.symm.trans hu')
      obtain ⟨used, os, hc⟩ := ih hevs rfl (forall_setSlot (x := { x with running := true }) hlive fun _ => ho) h2 hd
      exact ⟨used, os, hc.of_launch hx⟩
    · obtain ⟨u', x, hu', hx, hr, ⟨y, -, rfl⟩ | ⟨a, y, hy, rfl⟩⟩ := suiteAnswer_next h1
      · exact absurd h2 (runEvents_of_no_suite hevs rfl)
      · obtain rfl : u = u' := Option.some.inj (hu.symm.trans hu')
        rcases drawAttempt_cases hy with ⟨ha, he⟩ | hfree
        · rw [he] at h2
          obtain ⟨used, os, hc⟩ := ih hevs rfl (forall_setSlot hlive (by simp)) h2 hd
          exact ⟨.answer a :: used, os, hc.of_answer hx (hlive x (List.mem_of_getElem? hx) hr) ha⟩
        · have hle : s.inputs.draws + 1 ≤ t.inputs.draws := hfree ▸ runEvents_draws_le hevs h2
          exact absurd (hd ▸ hle) (Nat.not_succ_le_self _)

/-- A suite of some vector that closes has launched one, which needs the tables (70 R345). -/
theorem tablesReady_of_runEvents {evs : List Event} {s t : State} {u : Suite} {v : VecRec} {vs : List VecRec}
    (hev : ∀ ev ∈ evs, isSuiteStep ev) (h : runEvents (evs ++ [.suiteClose]) s = .next t) (hu : s.suite = some u)
    (hslots : u.slots = (v :: vs).map waitingSlot) : s.engine.tablesReady = true := by
  cases evs with
  | nil =>
    obtain ⟨_, h, -⟩ := runEvents_cons_next h
    obtain ⟨u', os, hu', ho, -⟩ := suiteClose_next h
    obtain rfl : u = u' := Option.some.inj (hu.symm.trans hu')
    rw [hslots] at ho
    cases ho
  | cons ev evs =>
    obtain ⟨_, h, -⟩ := runEvents_cons_next h
    obtain ⟨j, rfl | rfl⟩ := hev ev List.mem_cons_self
    · obtain ⟨_, _, -, -, -, -, -, ht, -⟩ := suiteLaunch_next h
      exact ht
    · obtain ⟨u', x, hu', hx, hr, -⟩ := suiteAnswer_next h
      obtain rfl : u = u' := Option.some.inj (hu.symm.trans hu')
      have hmem := hslots ▸ List.mem_of_getElem? hx
      obtain ⟨w, -, rfl⟩ := List.mem_map.mp hmem
      cases hr

/-- Every interleaving that closes gives what the one step gives on the same answers, vector by vector. -/
theorem exec_runSuite_of_interleaving {s t : State} {evs : List Event} (hev : ∀ ev ∈ evs, isSuiteStep ev)
    (h : runEvents (.suiteOpen s.line :: (evs ++ [.suiteClose])) s = .next t) (hd : t.inputs.draws = s.inputs.draws) :
    ∃ (a : SuiteArgs) (used : List Arrival), suiteArgs s = some a ∧ s.inputs.answers = used ++ t.inputs.answers ∧
      used.length = (evs.filterMap answeredVector).length ∧
      used.Perm ((List.range a.vectors.length).flatMap (answersOf evs used)) ∧
      exec .runSuite { s with inputs := { s.inputs with
        answers := (List.range a.vectors.length).flatMap (answersOf evs used) ++ t.inputs.answers } } = .next t := by
  obtain ⟨s1, hopen, hrun⟩ := runEvents_cons_next h
  obtain ⟨hs, a, ha, rfl⟩ := suiteOpen_next hopen
  have hlive : liveUnjudged ⟨a.circuit, a.vectors.map waitingSlot, s.line.dest⟩ := by
    intro z hz hr
    obtain ⟨v, -, rfl⟩ := List.mem_map.mp hz
    rfl
  obtain ⟨used, os, hc⟩ := suiteCloses_of_runEvents hev rfl hlive hrun hd
  have hlen : (a.vectors.map waitingSlot).length = a.vectors.length := List.length_map _
  have hready : a.vectors = [] ∨ s.engine.tablesReady = true := by
    rcases hv : a.vectors with _ | ⟨v, vs⟩
    · exact .inl rfl
    · have ht := tablesReady_of_runEvents hev hrun rfl (congrArg (List.map waitingSlot) hv)
      exact .inr ht
  have hall := suiteOutcomes_of_takes (p := s.params) (c := a.circuit) (hc.outcomes.trans hlen) s.inputs t.inputs.answers
    fun j v o hv ho => hc.takes j (waitingSlot v) o (by simp [hv]) ho
  refine ⟨a, used, ha, hc.answers, hc.count, hlen ▸ hc.perm, ?_⟩
  have hexec := exec_runSuite_of_outcomes (s := { s with inputs := { s.inputs with
    answers := (List.range a.vectors.length).flatMap (answersOf evs used) ++ t.inputs.answers } }) ha hready hall
  refine hexec.trans ?_
  refine congrArg _ (.trans ?_ hc.bound.symm)
  simp only [bindResult, ← hs]

/-- The processes of two vectors may end in either order, each with its own answer. -/
theorem suiteAnswers_comm {s : State} {u : Suite} {j k : Nat} {x y : SuiteSlot} {a b : Attempt} {rest : List Arrival}
    (hjk : j ≠ k) (hu : s.suite = some u) (hx : u.slots[j]? = some x) (hy : u.slots[k]? = some y) (hxr : x.running = true)
    (hyr : y.running = true) :
    ∃ t t1 t2,
      runEvent (.suiteAnswer j) { s with inputs := { s.inputs with answers := .answer a :: .answer b :: rest } } = .next t1 ∧
      runEvent (.suiteAnswer k) t1 = .next t ∧
      runEvent (.suiteAnswer k) { s with inputs := { s.inputs with answers := .answer b :: .answer a :: rest } } = .next t2 ∧
      runEvent (.suiteAnswer j) t2 = .next t := by
  refine ⟨_, _, _, suiteAnswer_of_attempt hu hx hxr drawAttempt_answer,
    suiteAnswer_of_attempt rfl ((setSlot_getElem?_other hjk.symm).trans hy) hyr drawAttempt_answer,
    suiteAnswer_of_attempt hu hy hyr drawAttempt_answer,
    (suiteAnswer_of_attempt rfl ((setSlot_getElem?_other hjk).trans hx) hxr drawAttempt_answer).trans ?_⟩
  rw [setSlot_comm hjk]

/-- Settles O43: the one step's own order is one interleaving, every other one gives each slot the same answers, and two slots
take theirs in either order. -/
theorem suiteAnswersCommute : Obligations.SuiteAnswersCommute :=
  ⟨fun _ _ => exists_interleaving, fun _ _ _ => exec_runSuite_of_interleaving,
    fun _ _ _ _ _ _ _ _ _ hjk hu hx hy hxr hyr => suiteAnswers_comm hjk hu hx hy hxr hyr⟩

end Sys2Proof.Machine
end

section
/-! PROOFS. RUN_SINGLE (45_oracle.md R267, R270, R271): what it answers by the calls of its two stages, as one step and in the
interleaved view. -/

namespace Sys2Proof.Machine

open Sys2Proof

/-! ### Stages (45 R270) -/

section
variable {p : Params} {v : VecRec} {c : ExtCall} {r q : CallResult} {x y z : Inputs} {a : SingleArgs}

theorem stageFailure_none : stageFailure v r = none ↔ callOk r := by
  cases r <;> simp [stageFailure, callOk]

/-- The stage of a call that ended reports it. -/
theorem reportsCall_endStage : reportsCall v r (endStage v r x).1 := by
  refine ⟨stageFailure_none, ?_, ?_⟩
  · rintro st o e rfl
    rfl
  · rintro rfl
    rfl

theorem wantsProof_endStage {prove : Bool} : wantsProof prove (endStage v r x).1 = true ↔ prove = true ∧ callOk r := by
  rw [wantsProof, Bool.and_eq_true, Option.isNone_iff_eq_none, ← stageFailure_none (v := v)]
  rfl

theorem runStage_of_abort (h : callExternal p c x = (none, y)) : runStage p v c x = (none, y) := by
  simp only [runStage, h]

theorem runStage_of_call (h : callExternal p c x = (some r, y)) :
    runStage p v c x = (some (endStage v r y).1, (endStage v r y).2) := by
  simp only [runStage, h]

/-! ### RUN_SINGLE by the calls of its stages -/

theorem runSingle_of_abort (h : callExternal p (.witness (vectorRecord a.vec)) x = (none, y)) :
    runSingle p a x = (none, y) := by
  simp only [runSingle, runStage_of_abort h]

theorem runSingle_of_witness (h : callExternal p (.witness (vectorRecord a.vec)) x = (some r, y))
    (hw : ¬ (a.prove = true ∧ callOk r)) :
    runSingle p a x = (some ⟨(endStage a.vec r y).1, none⟩, (endStage a.vec r y).2) := by
  simp only [runSingle, runStage_of_call h, if_neg (mt wantsProof_endStage.mp hw)]

theorem runSingle_of_proof_abort (h : callExternal p (.witness (vectorRecord a.vec)) x = (some r, y))
    (hw : a.prove = true ∧ callOk r)
    (hq : callExternal p (.proof (vectorRecord a.vec)) (endStage a.vec r y).2 = (none, z)) :
    runSingle p a x = (none, z) := by
  simp only [runSingle, runStage_of_call h, if_pos (wantsProof_endStage.mpr hw), runStage_of_abort hq, Option.map_none]

theorem runSingle_of_proof (h : callExternal p (.witness (vectorRecord a.vec)) x = (some r, y))
    (hw : a.prove = true ∧ callOk r)
    (hq : callExternal p (.proof (vectorRecord a.vec)) (endStage a.vec r y).2 = (some q, z)) :
    runSingle p a x =
      (some ⟨(endStage a.vec r y).1, some (endStage a.vec q z).1⟩, (endStage a.vec q z).2) := by
  simp only [runSingle, runStage_of_call h, if_pos (wantsProof_endStage.mpr hw), runStage_of_call hq, Option.map_some]

end

section
variable {s : State} {a : SingleArgs} {x : Inputs} {rep : SingleReport}

theorem exec_runSingle_of_killed (ha : singleArgs s = some a) (h : runSingle s.params a s.inputs = (none, x)) :
    exec .runSingle s = .next (killExternal { s with inputs := x }) := by
  simp only [exec, execRunSingle, ha, h]

theorem exec_runSingle_of_report (ha : singleArgs s = some a) (h : runSingle s.params a s.inputs = (some rep, x)) :
    exec .runSingle s = .next (bindResult (.single rep) { s with inputs := x }) := by
  simp only [exec, execRunSingle, ha, h]

/-- `s` with the report bound and the inputs used up. -/
theorem exec_runSingle_returns (ha : singleArgs s = some a) (h : runSingle s.params a s.inputs = (some rep, x)) :
    ∃ t, exec .runSingle s = .next t ∧ boundResult s t (.single rep) ∧ t.inputs = x ∧
      { t with env := s.env, inputs := s.inputs } = s :=
  ⟨_, exec_runSingle_of_report ha h, boundResult_bindResult _ rfl rfl, bindResult_inputs _ _,
    bindResult_inputs_frame _ s x⟩

end

/-- Where no suite abort arrives there is a report. -/
theorem runSingle_of_noAbort {p : Params} {a : SingleArgs} {x : Inputs} (h : .abort ∉ x.answers) :
    ∃ rep y, runSingle p a x = (some rep, y) := by
  obtain ⟨r, y, hr, hy⟩ := callExternal_of_noAbort (p := p) (c := .witness (vectorRecord a.vec)) h
  by_cases hw : a.prove = true ∧ callOk r
  · have hy' : .abort ∉ (endStage a.vec r y).2.answers := by
      simp only [endStage, drawClock]
      split <;> exact hy
    obtain ⟨q, z, hq, -⟩ := callExternal_of_noAbort (p := p) (c := .proof (vectorRecord a.vec)) hy'
    exact ⟨_, _, runSingle_of_proof hr hw hq⟩
  · exact ⟨_, _, runSingle_of_witness hr hw⟩

/-! ### One RUN_SINGLE beside those of other workers -/

/-- `s` with the RUN_SINGLE `x` under way beside the `others`, and the inputs `y` left. -/
def withSingle (others : List SingleRun) (x : SingleRun) (y : Inputs) (s : State) : State :=
  { s with singles := others ++ [x], inputs := y }

section
variable {others : List SingleRun} {x : SingleRun} {y z : Inputs} {s t : State} {r : CallResult} {a : Attempt} {st : Stage}
  (ho : ∀ z ∈ others, z.worker ≠ x.worker)
include ho

theorem findSingle_withSingle : findSingle x.worker (withSingle others x y s).singles = some x := by
  have hnone : others.find? (·.worker == x.worker) = none :=
    List.find?_eq_none.mpr fun z hz => by simpa using ho z hz
  simp [findSingle, withSingle, List.find?_append, hnone]

theorem setSingle_withSingle {x' : SingleRun} (hw : x'.worker = x.worker) :
    setSingle x' (withSingle others x y s).singles = others ++ [x'] := by
  have hothers : ∀ z ∈ others, (if z.worker = x'.worker then x' else z) = z := fun z hz => if_neg (hw ▸ ho z hz)
  rw [setSingle, withSingle, List.map_append, List.map_congr_left hothers, List.map_id']
  simp [hw]

theorem dropSingle_withSingle : dropSingle x.worker (withSingle others x y s).singles = others := by
  have hothers : others.filter (·.worker != x.worker) = others :=
    List.filter_eq_self.mpr fun z hz => by simpa using ho z hz
  simp [dropSingle, withSingle, hothers]

/-- After a good witness stage of a RUN_SINGLE that asked for a proof, its proof stage is under way. -/
theorem stageEnded_proofStage (hw : x.witness = none) (hp : wantsProof x.prove st = true) :
    stageEnded x st (withSingle others x y s) = withSingle others { x with witness := some st, retries := 0 } y s := by
  have hset := setSingle_withSingle (y := y) (s := s) ho (x' := { x with witness := some st, retries := 0 }) rfl
  simp only [stageEnded, hw, hp, if_true, hset]
  rfl

/-- After a witness stage with no proof stage to follow, the report is returned. -/
theorem stageEnded_witness (hw : x.witness = none) (hp : ¬ wantsProof x.prove st = true) :
    stageEnded x st (withSingle others x y s) =
      bindTo x.dest (.single ⟨st, none⟩) { s with singles := others, inputs := y } := by
  simp only [stageEnded, hw, if_neg hp, reportSingle, dropSingle_withSingle ho]
  rfl

/-- After a proof stage the report is returned. -/
theorem stageEnded_proof {w : Stage} (hw : x.witness = some w) :
    stageEnded x st (withSingle others x y s) =
      bindTo x.dest (.single ⟨w, some st⟩) { s with singles := others, inputs := y } := by
  simp only [stageEnded, hw, reportSingle, dropSingle_withSingle ho]
  rfl

/-- The end of a stage leaves nothing of its call's retry. -/
theorem stageEnded_retried (n : Nat) :
    stageEnded { x with retries := n } st (withSingle others { x with retries := n } y s) =
      stageEnded x st (withSingle others x y s) := by
  rcases Option.eq_none_or_eq_some x.witness with hw | ⟨w, hw⟩
  · by_cases hp : wantsProof x.prove st = true
    · rw [stageEnded_proofStage ho hw hp]
      exact stageEnded_proofStage (x := { x with retries := n }) ho hw hp
    · rw [stageEnded_witness ho hw hp]
      exact stageEnded_witness (x := { x with retries := n }) ho hw hp
  · rw [stageEnded_proof ho hw]
    exact stageEnded_proof (x := { x with retries := n }) ho hw

end

/-! ### RUN_SINGLE event by event (45 R267, R270) -/

/-- Some ends of this worker's processes, one after another, lead from `s` to `o`. -/
def singleRuns (worker : Nat) (s : State) (o : StepResult) : Prop :=
  ∃ n, runEvents (List.replicate n (.singleAnswer worker)) s = o

theorem singleRuns_of_answer {worker : Nat} {s t : State} (h : runEvent (.singleAnswer worker) s = .next t) :
    singleRuns worker s (.next t) :=
  ⟨1, runEvents_cons_of_next h⟩

theorem singleRuns.trans {worker : Nat} {s t : State} {o : StepResult} (h1 : singleRuns worker s (.next t))
    (h2 : singleRuns worker t o) : singleRuns worker s o := by
  obtain ⟨n, hn⟩ := h1
  obtain ⟨m, hm⟩ := h2
  exact ⟨n + m, by rw [← List.replicate_append_replicate, runEvents_append_of_next hn, hm]⟩

section
variable {others : List SingleRun} {x : SingleRun} {y z : Inputs} {s : State} {r : CallResult}
  (ho : ∀ z ∈ others, z.worker ≠ x.worker)
include ho

theorem singleRuns_abort (hd : drawAttempt (singleCall x) y = (none, z)) :
    singleRuns x.worker (withSingle others x y s) (.next (killExternal { s with inputs := z })) :=
  singleRuns_of_answer (singleAnswer_of_abort (s := withSingle others x y s) (findSingle_withSingle ho) hd)

/-- A first timeout starts a fresh process. -/
theorem singleRuns_retry {a : Attempt} (hr : x.retries = 0) (hd : drawAttempt (singleCall x) y = (some a, z))
    (hc : classify (externalTimeout s.params) a = .timeout) :
    singleRuns x.worker (withSingle others x y s) (.next (withSingle others { x with retries := 1 } z s)) := by
  have h := singleAnswer_of_retry (s := withSingle others x y s) (findSingle_withSingle ho) hd hc hr
  rw [setSingle_withSingle (x' := { x with retries := 1 }) ho rfl] at h
  exact singleRuns_of_answer h

/-- An attempt that is no first timeout ends the stage. -/
theorem singleRuns_final {a : Attempt} (hd : drawAttempt (singleCall x) y = (some a, z))
    (hc : classify (externalTimeout s.params) a ≠ .timeout ∨ x.retries ≠ 0)
    (hr : classify (externalTimeout s.params) a = r) :
    singleRuns x.worker (withSingle others x y s)
      (.next (stageEnded x (endStage x.vec r z).1 (withSingle others x (endStage x.vec r z).2 s))) := by
  subst hr
  exact singleRuns_of_answer (singleAnswer_of_final (s := withSingle others x y s) (findSingle_withSingle ho) hd hc)

/-- A suite abort during a call, event by event. -/
theorem singleRuns_killed (hr : x.retries = 0) (h : callExternal s.params (singleCall x) y = (none, z)) :
    singleRuns x.worker (withSingle others x y s) (.next (killExternal { s with inputs := z })) := by
  rcases callExternal_cases s.params (singleCall x) y with ⟨z1, hd, h1⟩ | ⟨a, z1, -, -, h1⟩ | ⟨a, z1, hd, hc, h1⟩
  · cases h1.symm.trans h
    exact singleRuns_abort ho hd
  · cases h1.symm.trans h
  · rcases hd2 : drawAttempt (singleCall x) z1 with ⟨_ | b, z2⟩ <;> rw [hd2] at h1
    · cases h1.symm.trans h
      exact (singleRuns_retry ho hr hd hc).trans (singleRuns_abort (x := { x with retries := 1 }) ho hd2)
    · cases h1.symm.trans h

/-- A call that gives a result, event by event: its stage ends. -/
theorem singleRuns_call (hr : x.retries = 0) (h : callExternal s.params (singleCall x) y = (some r, z)) :
    singleRuns x.worker (withSingle others x y s)
      (.next (stageEnded x (endStage x.vec r z).1 (withSingle others x (endStage x.vec r z).2 s))) := by
  rcases callExternal_cases s.params (singleCall x) y with ⟨z1, -, h1⟩ | ⟨a, z1, hd, hc, h1⟩ | ⟨a, z1, hd, hc, h1⟩
  · cases h1.symm.trans h
  · cases h1.symm.trans h
    exact singleRuns_final ho hd (.inl hc) rfl
  · rcases hd2 : drawAttempt (singleCall x) z1 with ⟨_ | b, z2⟩ <;> rw [hd2] at h1
    · cases h1.symm.trans h
    · cases h1.symm.trans h
      rw [← stageEnded_retried ho 1]
      exact (singleRuns_retry ho hr hd hc).trans
        (singleRuns_final (x := { x with retries := 1 }) ho hd2 (.inr Nat.one_ne_zero) rfl)

end

/-- The RUN_SINGLE of an operand record, its witness stage under way. -/
def startedSingle (l : Line) (a : SingleArgs) : SingleRun := ⟨l.worker, l.dest, a.vec, a.prove, none, 0⟩

theorem singleOpen_of_args {s : State} {a : SingleArgs} (hs : ∀ z ∈ s.singles, z.worker ≠ s.line.worker)
    (ha : singleArgs s = some a) :
    runEvent (.singleOpen s.line) s = .next (withSingle s.singles (startedSingle s.line a) s.inputs s) := by
  have hnone : findSingle s.line.worker s.singles = none :=
    List.find?_eq_none.mpr fun z hz => by simpa using hs z hz
  simp only [runEvent, singleOpen, hnone, ha]
  rfl

/-- Started and let run, a RUN_SINGLE gives what the one step gives. -/
theorem singleRuns_exec {s : State} {a : SingleArgs} (ha : singleArgs s = some a)
    (hs : ∀ z ∈ s.singles, z.worker ≠ s.line.worker) :
    singleRuns s.line.worker (withSingle s.singles (startedSingle s.line a) s.inputs s) (exec .runSingle s) := by
  have ho : ∀ z ∈ s.singles, z.worker ≠ (startedSingle s.line a).worker := hs
  rcases hc : callExternal s.params (.witness (vectorRecord a.vec)) s.inputs with ⟨_ | r, y⟩
  · rw [exec_runSingle_of_killed ha (runSingle_of_abort hc)]
    exact singleRuns_killed ho rfl hc
  have hcall := singleRuns_call ho rfl hc
  by_cases hw : a.prove = true ∧ callOk r
  · rw [stageEnded_proofStage ho rfl (wantsProof_endStage.mpr hw)] at hcall
    refine hcall.trans ?_
    rcases hq : callExternal s.params (.proof (vectorRecord a.vec)) (endStage a.vec r y).2 with ⟨_ | q, z⟩
    · rw [exec_runSingle_of_killed ha (runSingle_of_proof_abort hc hw hq)]
      exact singleRuns_killed (x := { startedSingle s.line a with witness := some _ }) ho rfl hq
    · rw [exec_runSingle_of_report ha (runSingle_of_proof hc hw hq)]
      have hproof := singleRuns_call (x := { startedSingle s.line a with witness := some (endStage a.vec r y).1 }) ho rfl hq
      rw [stageEnded_proof (x := { startedSingle s.line a with witness := some (endStage a.vec r y).1 }) ho rfl] at hproof
      exact hproof
  · rw [stageEnded_witness ho rfl (mt wantsProof_endStage.mp hw)] at hcall
    rw [exec_runSingle_of_report ha (runSingle_of_witness hc hw)]
    exact hcall

/-- Settles O45: by the calls of the two stages, and in the interleaved view by the ends of the two calls' processes. -/
theorem runSingleReportsItsStages : Obligations.RunSingleReportsItsStages := by
  intro s a ha killed returns w wt p pt
  refine ⟨fun hw => ?_, fun r hw => ⟨fun hnot => ?_, fun hprove hok => ⟨fun hp => ?_, fun q hp => ?_⟩⟩, fun hn => ?_,
    fun hs => ?_⟩
  · exact exec_runSingle_of_killed ha (runSingle_of_abort (Prod.ext hw rfl))
  · have hw' : ¬ (a.prove = true ∧ callOk r) := fun ⟨hprove, hok⟩ => hnot.elim (by simp [hprove]) fun h => h hok
    exact ⟨_, reportsCall_endStage, rfl, exec_runSingle_returns ha (runSingle_of_witness (Prod.ext hw rfl) hw')⟩
  · exact exec_runSingle_of_killed ha (runSingle_of_proof_abort (Prod.ext hw rfl) ⟨hprove, hok⟩ (Prod.ext hp rfl))
  · exact ⟨_, _, reportsCall_endStage, rfl, reportsCall_endStage, rfl,
      exec_runSingle_returns ha (runSingle_of_proof (Prod.ext hw rfl) ⟨hprove, hok⟩ (Prod.ext hp rfl))⟩
  · obtain ⟨rep, y, h⟩ := runSingle_of_noAbort hn
    exact ⟨rep, y, exec_runSingle_returns ha h⟩
  · obtain ⟨n, hn⟩ := singleRuns_exec ha hs
    exact ⟨n, (runEvents_cons_of_next (singleOpen_of_args hs ha)).trans hn⟩

end Sys2Proof.Machine
end

section
/-! PROOFS. Holds and frames (60_exceptions.md R312, R320, R321, R324): a COMPRESS that finds its engine busy, the step
of the machine while it waits, and what an instruction leaves of the instances. -/

namespace Sys2Proof.Machine

open Sys2Proof

/-! ### A COMPRESS on a busy engine (60 R321) -/

section
variable {s : State} {r : VecRec}

theorem compressTransaction_of_busy (hb : s.engine.status.busy = true) : compressTransaction r s = holdBusy s := if_pos hb

theorem compressCommand_of_busy (hb : s.engine.status.busy = true) : compressCommand r s = holdBusy s := if_pos hb

end

/-- Settles O20: in either view and in either form the request is handed to an engine that is busy. -/
theorem compressOnABusyEngineHolds : Obligations.CompressOnABusyEngineHolds := by
  intro s ht hb hform
  show exec .compress s = .next (holdBusy s)
  rcases hform with ⟨hv, r, ha⟩ | ⟨ha, hw⟩
  · rw [exec_compress_transaction ht hv (.inl ha), compressTransaction_of_busy hb]
  · cases hv : s.params.view with
    | transaction =>
      rw [exec_compress_transaction ht hv (.inr ⟨ha, hw, rfl⟩), compressTransaction_of_busy hb]
    | sequenced => rw [exec_compress_command ht hv ha hw, compressCommand_of_busy hb]

/-! ### The step under a hold (60 R321, R324) -/

section
variable {s t : State}

theorem heldStep_of_busy (hb : s.engine.status.busy = true) : heldStep s = engineStep s := if_pos hb

/-- Under a hold on the instance addressed. -/
theorem step_held_here (hh : s.hold = some (.cmdWhileBusy s.engine.page)) : step s = heldStep s :=
  (step_held hh).trans (withEngine_self _ s _)

/-- A step under a hold moves the instance addressed and leaves the others. -/
theorem heldStep_moves (h : heldStep s = .next t) : MovesHere s t := by
  unfold heldStep at h
  split at h
  · exact engineStep_moves h
  · obtain rfl := Host.Outcome.next.inj h
    exact .of_same rfl rfl

theorem liftHold_hold_of_page (h : s.hold = some (.cmdWhileBusy s.engine.page)) : (liftHold s).hold = none := by
  rw [liftHold_eq, if_pos h]

end

/-- Settles O21: under a hold the step is the engine's, on the instance addressed or on the one of its page. -/
theorem heldStepIsTheEnginesStep : Obligations.HeldStepIsTheEnginesStep := by
  intro s s0
  refine ⟨fun hh hb hl => ?_, fun pre post e t hd ho hh _ ht => ?_⟩
  · have hstep : step s = engineStep s := (step_held_here hh).trans (heldStep_of_busy hb)
    rw [hstep]
    refine ⟨fun n hs h1 => ⟨fun h13 hodd => ?_, fun h13 heven => ?_, ?_⟩, fun n k hs h13 hodd => ?_⟩
    · exact ⟨_, execRound_next_of_latched hl, rfl, rfl, engineStep_odd hs hl h13 hodd⟩
    · exact ⟨_, execPermute_next_of_latched hl, rfl, rfl, engineStep_even hs hl h1 h13 heven⟩
    · rintro rfl
      exact ⟨_, execFinalize_next_of_latched hl, liftHold_agenda _, liftHold_hold_of_page hh, engineStep_last hs hl⟩
    · rw [← callInstr_eq]
      have hr : isRoundStep n = true := (isRoundStep_iff n).mpr ⟨hodd, h13⟩
      exact ⟨_, exec_callInstr_of_latched k hl, rfl, rfl, engineStep_call hs hl hr⟩
  · rw [step_held_here hh] at ht
    obtain ⟨hothers, hmoves⟩ := heldStep_moves ht
    exact (step_held hh).trans (withEngine_other hd ho ht hmoves.1 hothers)

/-! ### What no instruction changes (60 R312, R324) -/

/-- Settles O60: a host operation keeps the engine, and every instruction the other instances and the page. -/
theorem hostOperationsLeaveTheEngines : Obligations.HostOperationsLeaveTheEngines := by
  intro i s t h
  obtain ⟨hothers, hpage, -⟩ := exec_moves h
  exact ⟨fun hc => exec_host_engine hc h, hothers, hpage⟩

end Sys2Proof.Machine
end

section
/-! PROOFS. What no step changes (60_exceptions.md R324, 92_eei_decisions.md D5): the OPEN parameters and the windows' pages,
through one relation that every agent's action keeps. -/

namespace Sys2Proof.Machine

open Sys2Proof

/-! ### Addressing an instance only reorders the instances (60 R324) -/

theorem swapIn_perm {page : Nat} {e x : Engine} {es es' : List Engine} (h : swapIn page e es = some (x, es')) :
    (x :: es').Perm (e :: es) := by
  induction es generalizing es' with
  | nil => cases h
  | cons y ys ih =>
    simp only [swapIn] at h
    split at h
    · cases h; exact .swap _ _ _
    · split at h
      · cases h
      · rename_i z zs hz
        cases h
        calc List.Perm (x :: y :: zs) (y :: x :: zs) := .swap ..
          List.Perm _ (y :: e :: ys) := (ih hz).cons y
          List.Perm _ (e :: y :: ys) := .swap ..

theorem focus_perm {page : Nat} {s t : State} (h : focus page s = some t) : (instances t).Perm (instances s) := by
  rcases focus_cases h with rfl | ⟨e, os, hs, rfl⟩
  · exact .refl _
  · exact swapIn_perm hs

/-! ### The relation -/

/-- From `s` to `t` the OPEN parameters, the number of instances and their pages stay. -/
structure FixedParts (s t : State) : Prop where
  params : t.params = s.params
  pages : ((instances t).map Engine.page).Perm ((instances s).map Engine.page)

namespace FixedParts

variable {s t u : State}

theorem trans (h : FixedParts s t) (h' : FixedParts t u) : FixedParts s u :=
  ⟨h'.params.trans h.params, h'.pages.trans h.pages⟩

theorem of_moves (hp : t.params = s.params) (hm : MovesHere s t) : FixedParts s t := ⟨hp, .of_eq hm.all.pages⟩

/-- What touches neither the parameters nor an engine. -/
theorem of_host (hp : t.params = s.params) (he : t.engine = s.engine) (ho : t.others = s.others) : FixedParts s t :=
  .of_moves hp (.of_same ho he)

theorem bindTo {d : Option Nat} {v : Value} (h : FixedParts s t) : FixedParts s (bindTo d v t) :=
  h.trans (.of_host (by simp) (by simp) (by simp))

theorem of_focus {page : Nat} (h : focus page s = some t) : FixedParts s t :=
  ⟨by rw [focus_frame h], (focus_perm h).map _⟩

/-- What an action keeps on every state it keeps when it is done on the instance at a page. -/
theorem of_withEngine {page : Nat} {a : Refusal} {f : State → StepResult} (h : withEngine page a s f = .next u)
    (hf : ∀ t w, f t = .next w → FixedParts t w) : FixedParts s u := by
  rcases withEngine_next h with h | ⟨t, w, ht, hw, rfl | hu⟩
  · exact hf _ _ h
  · exact (of_focus ht).trans (hf _ _ hw)
  · exact ((of_focus ht).trans (hf _ _ hw)).trans (of_focus hu)

end FixedParts

/-! ### Words and the engine agent -/

section
variable {s t : State}

theorem exec_fixed {i : Instr} (h : exec i s = .next t) : FixedParts s t :=
  .of_moves (exec_surroundings h).1 (exec_moves h)

theorem claim_fixed {w : Nat} (h : claim w s = .ok t) : FixedParts s t := by
  refine .of_moves ?_ (claim_moves h)
  obtain ⟨e, -, rfl⟩ := claim_ok h
  rfl

theorem issueAs_params {l : Line} {w : Word} {i : Instr} (h : issueAs l w i s = .next t) : t.params = s.params := by
  unfold issueAs at h
  cases hl : l.issuer <;> rw [hl] at h
  · rcases hostIssue_next h with h | ⟨u, -, hc, h⟩
    · exact (exec_fixed h).params
    · exact ((claim_fixed hc).trans (exec_fixed h)).params
  · obtain ⟨-, u, hu, rfl⟩ := sequencerIssue_next h
    exact (exec_fixed hu).params

theorem issueWord_fixed {l : Line} {w : Word} (h : issueWord l w s = .next t) : FixedParts s t := by
  obtain ⟨i, hd, hm, h⟩ := issueWord_next h
  have hissue : ∀ u v, issueAs l w i u = .next v → FixedParts u v := fun _ _ hv =>
    .of_moves (issueAs_params hv) (issueAs_moves hd hm hv)
  have hline : FixedParts s { s with line := l } := .of_host rfl rfl rfl
  refine hline.trans ?_
  cases hl : l.engine <;> rw [hl] at h
  · exact hissue _ _ h
  · exact .of_withEngine h hissue

theorem engineStep_fixed (h : engineStep s = .next t) : FixedParts s t := by
  refine .of_moves ?_ (engineStep_moves h)
  rcases engineStep_next h with ⟨-, rfl⟩ | ⟨w, i, u, -, -, -, hu, rfl⟩
  · rfl
  · exact (exec_fixed hu).params

theorem heldStep_fixed (h : heldStep s = .next t) : FixedParts s t := by
  unfold heldStep at h
  split at h
  · exact engineStep_fixed h
  · obtain rfl := Host.Outcome.next.inj h
    exact .of_host rfl rfl rfl

/-! ### The window, reset and tables -/

theorem windowWrite_fixed {w off size : Nat} {v : Word} (h : windowWrite w off size v s = .next t) : FixedParts s t := by
  refine .of_moves ?_ (windowWrite_moves h)
  obtain ⟨r, u, -, hu, ⟨-, -, hx⟩ | ⟨-, rfl⟩⟩ := windowWrite_next h
  · exact (exec_fixed hx).params.trans (claim_fixed hu).params
  · exact (claim_fixed hu).params

/-- A window read at a page keeps what is kept by what is done with the word. -/
theorem withEngine_readThen_fixed {page w off size : Nat} {a : Refusal} {g : Word → State → StepResult}
    (h : withEngine page a s (readThen w off size g) = .next t) (hg : ∀ v u y, g v u = .next y → FixedParts u y) :
    FixedParts s t := by
  refine .of_withEngine h fun u y hy => ?_
  obtain ⟨v, x, hr, hv⟩ := readThen_next hy
  obtain ⟨r, -, hc, -⟩ := windowRead_ok hr
  exact (claim_fixed hc).trans (hg v x y hv)

theorem resetEngine_fixed (h : resetEngine s = .next t) : FixedParts s t := by
  refine .of_moves ?_ (resetEngine_moves h)
  unfold resetEngine at h
  split at h
  · cases h
  · obtain rfl := Host.Outcome.next.inj h
    rfl

theorem loadTables_fixed {x : Tables} (h : loadTables x s = .next t) : FixedParts s t := by
  refine .of_moves ?_ (loadTables_moves h)
  obtain rfl := Host.Outcome.next.inj h
  rfl

theorem singleAnswer_fixed {w : Nat} (h : singleAnswer w s = .next t) : FixedParts s t := by
  obtain ⟨x, -, ⟨y, rfl⟩ | ⟨y, rfl⟩ | ⟨st, y, rfl⟩⟩ := singleAnswer_next h
  · exact .of_host rfl rfl rfl
  · exact .of_host rfl rfl rfl
  · rcases stageEnded_cases x st { s with inputs := y } with ⟨-, -, e⟩ | ⟨rep, e⟩ <;> rw [e]
    · exact .of_host rfl rfl rfl
    · exact .bindTo (.of_host rfl rfl rfl)

/-! ### Events and steps -/

theorem runEvent_fixed {ev : Event} (h : runEvent ev s = .next t) : FixedParts s t := by
  cases ev with
  | word l w => exact issueWord_fixed h
  | read w addr size dest =>
    refine withEngine_readThen_fixed ((memRead_eq ..).symm.trans h) fun v u y hy => ?_
    obtain rfl := Host.Outcome.next.inj hy
    exact .bindTo (.of_host rfl rfl rfl)
  | write w addr size v => exact .of_withEngine h fun _ _ => windowWrite_fixed
  | poll w addr =>
    refine withEngine_readThen_fixed ((pollStatus_eq ..).symm.trans h) fun v u y hy => ?_
    split at hy <;> obtain rfl := Host.Outcome.next.inj hy <;> exact .of_host rfl rfl rfl
  | readOut w page got dest =>
    refine withEngine_readThen_fixed ((readOut_eq ..).symm.trans h) fun v u y hy => ?_
    split at hy <;> obtain rfl := Host.Outcome.next.inj hy
    · exact .bindTo (.of_host rfl rfl rfl)
    · exact .of_host rfl rfl rfl
  | engine page => exact .of_withEngine h fun _ _ => engineStep_fixed
  | reset page => exact .of_withEngine h fun _ _ => resetEngine_fixed
  | loadTables page x => exact .of_withEngine h fun _ _ => loadTables_fixed
  | drawBegin w id => obtain ⟨g, -, -, rfl⟩ := drawBegin_next h; exact .of_host rfl rfl rfl
  | drawEnd w id dest => obtain ⟨g, -, -, rfl⟩ := drawEnd_next h; exact .bindTo (.of_host rfl rfl rfl)
  | suiteOpen l => obtain ⟨-, a, -, rfl⟩ := suiteOpen_next h; exact .of_host rfl rfl rfl
  | suiteLaunch j => obtain ⟨u, x, -, -, -, -, -, -, rfl⟩ := suiteLaunch_next h; exact .of_host rfl rfl rfl
  | suiteAnswer j =>
    obtain ⟨u, x, -, -, -, ⟨y, -, rfl⟩ | ⟨a, y, -, rfl⟩⟩ := suiteAnswer_next h <;> exact .of_host rfl rfl rfl
  | suiteClose => obtain ⟨u, os, -, -, rfl⟩ := suiteClose_next h; exact .bindTo (.of_host rfl rfl rfl)
  | suiteAbort => obtain rfl := Host.Outcome.next.inj h; exact .of_host rfl rfl rfl
  | singleOpen l => obtain ⟨-, a, -, rfl⟩ := singleOpen_next h; exact .of_host rfl rfl rfl
  | singleAnswer w => exact singleAnswer_fixed h
  | randomized w gen circuit base dest => obtain rfl := Host.Outcome.next.inj h; exact .of_host rfl rfl rfl

theorem step_fixed (h : step s = .next t) : FixedParts s t := by
  rcases step_cases h with ⟨⟨page⟩, -, h⟩ | ⟨-, -, h⟩ | ⟨ev, rest, u, -, -, h, ht⟩
  · exact .of_withEngine h fun _ _ => heldStep_fixed
  · rcases quietTurn_cases s with hq | ⟨page, hq⟩ <;> rw [hq] at h
    · obtain rfl := Host.Outcome.next.inj h
      exact .of_host rfl rfl rfl
    · exact .of_withEngine h fun _ _ => engineStep_fixed
  · have hagenda : FixedParts s { s with agenda := rest } := .of_host rfl rfl rfl
    have hevent : FixedParts s u := hagenda.trans (runEvent_fixed h)
    rcases ht with rfl | rfl
    · exact hevent
    · exact hevent.trans (.of_host rfl rfl rfl)

end

/-- Settles O58: a step, whichever agent takes it, keeps the `FixedParts`. -/
theorem parametersAndPagesNeverChange : Obligations.ParametersAndPagesNeverChange :=
  fun _ _ h => ⟨(step_fixed h).params, (step_fixed h).pages⟩

end Sys2Proof.Machine
end

section
/-! PROOFS. Operands outside their type (30_encoding.md R104, 60_exceptions.md R322, R332): which values are outside which
type, and that an operation whose record holds such an operand, or lacks one it needs, is refused. -/

namespace Sys2Proof.Machine

open Sys2Proof

/-! ### Values outside a type (30 R104) -/

section
variable {x : Value}

theorem asNat_none {w : Nat} (h : ∀ n, x = .int n → 2 ^ w ≤ n) : asNat w x = none := by
  cases x with
  | int n => exact if_neg (Nat.not_lt_of_le (h n rfl))
  | _ => rfl

theorem asWords_none {len : Nat} (h : ∀ ws, x = .words ws → ws.length ≠ len ∨ ∃ w ∈ ws, 2 ^ 32 ≤ w) :
    asWords len x = none := by
  cases x with
  | words ws =>
    refine dif_neg fun ⟨hlen, hfit⟩ => ?_
    rcases h ws rfl with hne | ⟨w, hw, hge⟩
    · exact hne hlen
    · exact Nat.not_lt_of_le hge (hfit w hw)
  | _ => rfl

theorem asBits_none (h : ∀ cs, x = .chars cs → ∃ c ∈ cs, c ≠ '0' ∧ c ≠ '1') : asBits x = none := by
  cases x with
  | chars cs =>
    obtain ⟨c, hc, h0, h1⟩ := h cs rfl
    exact bitsOfText_of_mem hc h0 h1
  | _ => rfl

theorem asGen_none {gens : List Gen} (h : ∀ id, x = .gen id → gens.length ≤ id) : asGen gens x = none := by
  cases x with
  | gen id => exact if_neg (Nat.not_lt_of_le (h id rfl))
  | _ => rfl

theorem asVec_none (h : ∀ v, x ≠ .vec v) : asVec x = none := by
  cases x with
  | vec v => exact absurd rfl (h v)
  | _ => rfl

theorem asForm_none (h : ∀ f, x ≠ .form f) : asForm x = none := by
  cases x with
  | form f => exact absurd rfl (h f)
  | _ => rfl

theorem asCircuit_none (h : ∀ c, x ≠ .circuit c) : asCircuit x = none := by
  cases x with
  | circuit c => exact absurd rfl (h c)
  | _ => rfl

theorem asBool_none (h : ∀ b, x ≠ .bool b) : asBool x = none := by
  cases x with
  | bool b => exact absurd rfl (h b)
  | _ => rfl

end

/-- One name that is bound to no vector spoils the list. -/
theorem resolveVecs_none {env : List (Nat × Value)} {ns : List Nat} {n : Nat} (hn : n ∈ ns)
    (h : ∀ v, envGet n env ≠ some (.vec v)) : resolveVecs env ns = none := by
  rw [Option.eq_none_iff_forall_ne_some]
  intro vs hvs
  induction ns generalizing vs with
  | nil => cases hn
  | cons m ns ih =>
    simp only [resolveVecs] at hvs
    split at hvs
    · rename_i v ws hv hws
      rcases List.mem_cons.mp hn with rfl | hn
      · exact h v hv
      · exact ih hn ws hws
    · cases hvs

/-! ### Operands by name (30 R104) -/

section
variable {α : Type} {s : State} {k : Key} {conv : Value → Option α} {default : Option α}

theorem typedArg_of_given {a : Arg} (h : findArg k s.line.args = some a) :
    typedArg k conv default s = (resolveArg s.env a).bind conv := by
  simp only [typedArg, h]

theorem typedArg_none_of_given {a : Arg} (h : findArg k s.line.args = some a)
    (hx : ∀ x, resolveArg s.env a = some x → conv x = none) : typedArg k conv default s = none :=
  (typedArg_of_given h).trans (Option.bind_eq_none_iff.mpr hx)

/-- No list of names of vectors: no list, or one of its names is bound to no vector. -/
theorem vectorsArg_of_given {a : Arg} (h : findArg .vectors s.line.args = some a)
    (hv : ∀ ns, a = .names ns → ∃ n ∈ ns, ∀ v, envGet n s.env ≠ some (.vec v)) : vectorsArg s = none := by
  simp only [vectorsArg, h]
  cases a with
  | names ns =>
    obtain ⟨n, hn, hvec⟩ := hv ns rfl
    exact resolveVecs_none hn hvec
  | lit l => rfl
  | name n => rfl

/-- A record that names only these operands gives only these. -/
theorem mem_of_keysOk {allowed : List Key} (h : keysOk allowed s.line.args = true) (hk : findArg k s.line.args ≠ none) :
    k ∈ allowed := by
  obtain ⟨hall, -⟩ := Bool.and_eq_true_iff.mp h
  generalize s.line.args = args at hall hk
  induction args with
  | nil => exact absurd rfl hk
  | cons p args ih =>
    obtain ⟨hp, hall⟩ := Bool.and_eq_true_iff.mp ((List.all_cons ..).symm.trans hall)
    by_cases hkp : p.1 = k
    · simpa [hkp] using hp
    · exact ih hall (by simpa [findArg, hkp] using hk)

/-- The operand `k` is given and of its type, which is the same in every operation that has it. -/
def operandOk (s : State) : Key → Bool
  | .seed => (typedArg .seed (asNat 64) none s).isSome
  | .gen => (typedArg .gen (asGen s.gens) none s).isSome
  | .value => (typedArg .value (asNat 32) none s).isSome
  | .width => (typedArg .width (asNat 32) none s).isSome
  | .bits => (typedArg .bits asBits none s).isSome
  | .b => (typedArg .b (asNat 8) none s).isSome
  | .d => (typedArg .d (asNat 8) none s).isSome
  | .t0 => (typedArg .t0 (asNat 32) none s).isSome
  | .t1 => (typedArg .t1 (asNat 32) none s).isSome
  | .h => (typedArg .h (asWords 8) none s).isSome
  | .m => (typedArg .m (asWords 16) none s).isSome
  | .vec => (typedArg .vec asVec none s).isSome
  | .form => (typedArg .form asForm none s).isSome
  | .out => (typedArg .out (asWords 16) none s).isSome
  | .vectors => (vectorsArg s).isSome
  | .circuit => (typedArg .circuit asCircuit none s).isSome
  | .prove => (typedArg .prove asBool none s).isSome

theorem operandOk_of_absent (h : findArg k s.line.args = none) : operandOk s k = false := by
  cases k <;> simp [operandOk, typedArg, vectorsArg, h]

/-- The default of an operand that is given plays no part. -/
theorem isSome_of_given {x : α} (hk : findArg k s.line.args ≠ none) (h : typedArg k conv default s = some x) :
    (typedArg k conv none s).isSome = true := by
  obtain ⟨a, ha⟩ := Option.ne_none_iff_exists'.mp hk
  rw [typedArg_of_given ha] at h ⊢
  rw [h]
  rfl

end

/-! ### The operands of each operation -/

/-- The operands an operation does not go without (30 R104). What COMPRESS needs depends on the form of its record. -/
def requiredKeys : Instr → List Key
  | .lcgNew => [.seed]
  | .lcgNext => [.gen]
  | .toFixedBinary => [.value]
  | .fromBinary => [.bits]
  | .buildVector => [.gen, .d]
  | .serializeVector => [.vec, .form]
  | .runSuite => [.vectors, .circuit]
  | .runSingle => [.vec]
  | .chainCv => [.out]
  | .compress | .init | .g _ _ _ _ _ _ | .round | .permute | .finalize => []

/-- A COMPRESS record that gives its request field by field (30 R109). -/
def fieldKeys : List Key := [.h, .m, .t0, .t1, .b, .d]

/-- The operands an operation may go without. -/
def optionalKeys : Instr → List Key
  | .toFixedBinary => [.width]
  | .buildVector => [.b, .t0, .t1, .h]
  | .runSingle => [.prove]
  | .compress => .vec :: fieldKeys
  | .lcgNew | .lcgNext | .fromBinary | .serializeVector | .runSuite | .chainCv => []
  | .init | .g _ _ _ _ _ _ | .round | .permute | .finalize => []

/-- The record is of its operation's type, operand by operand. -/
structure RecordOk (i : Instr) (s : State) : Prop where
  required : ∀ k ∈ requiredKeys i, operandOk s k = true
  optional : ∀ k ∈ optionalKeys i, findArg k s.line.args ≠ none → operandOk s k = true

section
variable {s : State}

theorem lcgNewArgs_ok {a : BitVec 64} (h : lcgNewArgs s = some a) : RecordOk .lcgNew s := by
  obtain ⟨-, h⟩ := Option.ite_none_right_eq_some.mp h
  exact ⟨by simp [requiredKeys, operandOk, h], nofun⟩

theorem lcgNextArgs_ok {a : Nat} (h : lcgNextArgs s = some a) : RecordOk .lcgNext s := by
  obtain ⟨-, h⟩ := Option.ite_none_right_eq_some.mp h
  exact ⟨by simp [requiredKeys, operandOk, h], nofun⟩

theorem fromBinaryArgs_ok {a : BitString} (h : fromBinaryArgs s = some a) : RecordOk .fromBinary s := by
  obtain ⟨-, h⟩ := Option.ite_none_right_eq_some.mp h
  exact ⟨by simp [requiredKeys, operandOk, h], nofun⟩

theorem chainArgs_ok {a : Vector Word 16} (h : chainArgs s = some a) : RecordOk .chainCv s := by
  obtain ⟨-, h⟩ := Option.ite_none_right_eq_some.mp h
  exact ⟨by simp [requiredKeys, operandOk, h], nofun⟩

theorem toFixedArgs_ok {a : FixedArgs} (h : toFixedArgs s = some a) : RecordOk .toFixedBinary s := by
  obtain ⟨-, h⟩ := Option.ite_none_right_eq_some.mp h
  split at h
  · rename_i v w hv hw
    exact ⟨by simp [requiredKeys, operandOk, hv],
      by simpa [optionalKeys, operandOk] using fun hk => isSome_of_given hk hw⟩
  · cases h

theorem buildArgs_ok {a : BuildArgs} (h : buildArgs s = some a) : RecordOk .buildVector s := by
  obtain ⟨-, h⟩ := Option.ite_none_right_eq_some.mp h
  split at h
  · rename_i g b d t0 t1 cv hg hb hd ht0 ht1 hcv
    refine ⟨by simp [requiredKeys, operandOk, hg, hd], ?_⟩
    simp only [optionalKeys, List.forall_mem_cons]
    exact ⟨fun hk => isSome_of_given hk hb, fun hk => isSome_of_given hk ht0, fun hk => isSome_of_given hk ht1,
      fun hk => isSome_of_given hk hcv, nofun⟩
  · cases h

theorem serializeArgs_ok {a : SerializeArgs} (h : serializeArgs s = some a) : RecordOk .serializeVector s := by
  obtain ⟨-, h⟩ := Option.ite_none_right_eq_some.mp h
  split at h
  · rename_i v f hv hf
    exact ⟨by simp [requiredKeys, operandOk, hv, hf], nofun⟩
  · cases h

theorem suiteArgs_ok {a : SuiteArgs} (h : suiteArgs s = some a) : RecordOk .runSuite s := by
  obtain ⟨-, h⟩ := Option.ite_none_right_eq_some.mp h
  split at h
  · rename_i vs c hvs hc
    exact ⟨by simp [requiredKeys, operandOk, hvs, hc], nofun⟩
  · cases h

theorem singleArgs_ok {a : SingleArgs} (h : singleArgs s = some a) : RecordOk .runSingle s := by
  obtain ⟨-, h⟩ := Option.ite_none_right_eq_some.mp h
  split at h
  · rename_i v p hv hp
    exact ⟨by simp [requiredKeys, operandOk, hv],
      by simpa [optionalKeys, operandOk] using fun hk => isSome_of_given hk hp⟩
  · cases h

/-- A COMPRESS record is empty, gives a vector, or gives the request field by field. -/
theorem compressArgs_cases {src : CompressSource} (h : compressArgs s = some src) :
    s.line.args = [] ∨ (keysOk [.vec] s.line.args = true ∧ operandOk s .vec = true) ∨
      (keysOk fieldKeys s.line.args = true ∧ ∀ k ∈ fieldKeys, operandOk s k = true) := by
  unfold compressArgs at h
  split at h
  · exact .inl ‹_›
  · split at h
    · rename_i hkeys
      obtain ⟨v, hv, -⟩ := Option.map_eq_some_iff.mp h
      exact .inr (.inl ⟨hkeys, by simp [operandOk, hv]⟩)
    · split at h
      · rename_i hkeys
        split at h
        · rename_i cv m t0 t1 b d hcv hm ht0 ht1 hb hd
          exact .inr (.inr ⟨hkeys, by simp [fieldKeys, operandOk, hcv, hm, ht0, ht1, hb, hd]⟩)
        · cases h
      · cases h

theorem compressArgs_ok {src : CompressSource} (h : compressArgs s = some src) : RecordOk .compress s := by
  refine ⟨nofun, fun k _ hk => ?_⟩
  rcases compressArgs_cases h with hnil | ⟨hkeys, hvec⟩ | ⟨hkeys, hfields⟩
  · exact absurd (by rw [hnil]; rfl) hk
  · rw [List.mem_singleton.mp (mem_of_keysOk hkeys hk)]
    exact hvec
  · exact hfields k (mem_of_keysOk hkeys hk)

/-- An operation that is refused where there is no typed operand record. -/
theorem refused_or_recordOk {α : Type} {i : Instr} (o : Option α) (hnone : o = none → exec i s = .refused .operandType)
    (hsome : ∀ {a}, o = some a → RecordOk i s) : exec i s = .refused .operandType ∨ RecordOk i s := by
  cases h : o with
  | none => exact .inl (hnone h)
  | some a => exact .inr (hsome h)

/-- An operation is refused for its operands, or its record is of its type. -/
theorem exec_refused_or_recordOk (i : Instr) (s : State) : exec i s = .refused .operandType ∨ RecordOk i s := by
  cases i with
  | init | g | round | permute | finalize => exact .inr ⟨nofun, nofun⟩
  | compress => exact refused_or_recordOk _ (fun h => by simp only [exec, execCompress, h]) compressArgs_ok
  | lcgNew => exact refused_or_recordOk _ (fun h => by simp only [exec, execLcgNew, h]) lcgNewArgs_ok
  | lcgNext => exact refused_or_recordOk _ (fun h => by simp only [exec, execLcgNext, h]) lcgNextArgs_ok
  | toFixedBinary => exact refused_or_recordOk _ (fun h => by simp only [exec, execToFixedBinary, h]) toFixedArgs_ok
  | fromBinary => exact refused_or_recordOk _ (fun h => by simp only [exec, execFromBinary, h]) fromBinaryArgs_ok
  | buildVector => exact refused_or_recordOk _ (fun h => by simp only [exec, execBuildVector, h]) buildArgs_ok
  | serializeVector => exact refused_or_recordOk _ (fun h => by simp only [exec, execSerializeVector, h]) serializeArgs_ok
  | runSuite => exact refused_or_recordOk _ (fun h => by simp only [exec, execRunSuite, h]) suiteArgs_ok
  | runSingle => exact refused_or_recordOk _ (fun h => by simp only [exec, execRunSingle, h]) singleArgs_ok
  | chainCv => exact refused_or_recordOk _ (fun h => by simp only [exec, execChainCv, h]) chainArgs_ok

variable {i : Instr} {k : Key}

/-- An operand of an operation given outside its type has the operation refused. -/
theorem exec_refused_of_given {a : Arg} (hi : k ∈ requiredKeys i ∨ k ∈ optionalKeys i)
    (hk : findArg k s.line.args = some a) (hx : operandOk s k = false) : exec i s = .refused .operandType := by
  refine (exec_refused_or_recordOk i s).resolve_right fun h => ?_
  have hok : operandOk s k = true := hi.elim (h.required k) fun hi => h.optional k hi (by simp [hk])
  exact Bool.false_ne_true (hx.symm.trans hok)

/-- So has a required one left out. -/
theorem exec_refused_of_missing (hi : k ∈ requiredKeys i) (hk : findArg k s.line.args = none) :
    exec i s = .refused .operandType :=
  (exec_refused_or_recordOk i s).resolve_right fun h =>
    Bool.false_ne_true ((operandOk_of_absent hk).symm.trans (h.required k hi))

/-- A COMPRESS that gives some of its request, and no vector, is refused where a field is left out. -/
theorem exec_compress_refused_of_missing (hi : k ∈ fieldKeys) (hk : findArg k s.line.args = none)
    (hne : s.line.args ≠ []) (hvec : findArg .vec s.line.args = none) : exec .compress s = .refused .operandType := by
  cases h : compressArgs s with
  | none => simp only [exec, execCompress, h]
  | some src =>
    exfalso
    rcases compressArgs_cases h with hnil | ⟨-, hok⟩ | ⟨-, hok⟩
    · exact hne hnil
    · exact Bool.false_ne_true ((operandOk_of_absent hvec).symm.trans hok)
    · exact Bool.false_ne_true ((operandOk_of_absent hk).symm.trans (hok k hi))

end

/-- Settles O38: each operation reads its operands by type, so it is refused for one given outside it, or left out with no
default. -/
theorem operandsOutsideTheirTypeAreRefused : Obligations.OperandsOutsideTheirTypeAreRefused := by
  intro s k a x isRefused noNumber noWords
  refine ⟨fun h => ?_, fun h => ?_⟩
  · have refuse : ∀ i, (k ∈ requiredKeys i ∨ k ∈ optionalKeys i) → operandOk s k = false → isRefused i :=
      fun i hi hx => exec_refused_of_given hi h hx
    have unread : ∀ {α : Type} (conv : Value → Option α), (∀ y, x = some y → conv y = none) →
        (typedArg k conv none s).isSome = false := fun conv hx => by rw [typedArg_none_of_given h hx]; rfl
    have notNat : ∀ w, noNumber (2 ^ w) → (typedArg k (asNat w) none s).isSome = false :=
      fun w hn => unread _ fun y hy => asNat_none fun n hx => hn n (hx ▸ hy)
    have notWords : ∀ len, noWords len → (typedArg k (asWords len) none s).isSome = false :=
      fun len hw => unread _ fun y hy => asWords_none fun ws hx => hw ws (hx ▸ hy)
    refine ⟨?seed, ?value, ?counter, ?byte, ?chaining, ?message, ?out, ?bits, ?vec, ?vectors, ?form, ?circuit, ?prove, ?gen⟩
    case seed => rintro rfl hn; exact refuse _ (by decide) (notNat 64 hn)
    case value => rintro (rfl | rfl) hn <;> exact refuse _ (by decide) (notNat 32 hn)
    case counter =>
      rintro (rfl | rfl) hn <;> exact ⟨refuse _ (by decide) (notNat 32 hn), refuse _ (by decide) (notNat 32 hn)⟩
    case byte =>
      rintro (rfl | rfl) hn <;> exact ⟨refuse _ (by decide) (notNat 8 hn), refuse _ (by decide) (notNat 8 hn)⟩
    case chaining => rintro rfl hw; exact ⟨refuse _ (by decide) (notWords 8 hw), refuse _ (by decide) (notWords 8 hw)⟩
    case message => rintro rfl hw; exact refuse _ (by decide) (notWords 16 hw)
    case out => rintro rfl hw; exact refuse _ (by decide) (notWords 16 hw)
    case bits =>
      rintro rfl hc
      exact refuse _ (by decide) (unread asBits fun y hy => asBits_none fun cs hx => hc cs (hx ▸ hy))
    case vec =>
      rintro rfl hv
      have hx := unread asVec fun y hy => asVec_none fun v hx => hv v (hx ▸ hy)
      exact ⟨refuse _ (by decide) hx, refuse _ (by decide) hx, refuse _ (by decide) hx⟩
    case vectors =>
      rintro rfl hv
      exact refuse _ (by decide) (congrArg Option.isSome (vectorsArg_of_given h hv))
    case form =>
      rintro rfl hf
      exact refuse _ (by decide) (unread asForm fun y hy => asForm_none fun f hx => hf f (hx ▸ hy))
    case circuit =>
      rintro rfl hc
      exact refuse _ (by decide) (unread asCircuit fun y hy => asCircuit_none fun c hx => hc c (hx ▸ hy))
    case prove =>
      rintro rfl hb
      exact refuse _ (by decide) (unread asBool fun y hy => asBool_none fun b hx => hb b (hx ▸ hy))
    case gen =>
      rintro rfl hg
      have hx := unread (asGen s.gens) fun y hy => asGen_none fun id hx => hg id (hx ▸ hy)
      exact ⟨refuse _ (by decide) hx, refuse _ (by decide) hx⟩
  · have refuse : ∀ i, k ∈ requiredKeys i → isRefused i := fun i hi => exec_refused_of_missing hi h
    refine ⟨?seed, ?value, ?bits, ?gen, ?flags, ?vec, ?form, ?suite, ?out, ?compress⟩
    case compress => exact fun hk hne hvec => exec_compress_refused_of_missing hk h hne hvec
    case gen => rintro rfl; exact ⟨refuse _ (by decide), refuse _ (by decide)⟩
    case vec => rintro rfl; exact ⟨refuse _ (by decide), refuse _ (by decide)⟩
    case suite => rintro (rfl | rfl) <;> exact refuse _ (by decide)
    case seed | value | bits | flags | form | out => rintro rfl; exact refuse _ (by decide)

end Sys2Proof.Machine
end

section
/-! PROOFS. Reset and tables (70_reset_and_hazards.md R340, R341, R345, R346): what a reset and a load of tables do to the
instance they name, wherever it stands, and the two self-checks. -/

namespace Sys2Proof.Machine

open Sys2Proof

/-! ### Reset (70 R340, R341) -/

/-- An instance after a reset event: as at reset, with its tables as they were (70 R340). -/
def Engine.afterReset (e : Engine) : Engine := { Engine.reset e.page with tablesReady := e.tablesReady }

theorem resetEngine_of_busy {s : State} (h : s.engine.status.busy = true) : resetEngine s = .refused .resetWhileBusy :=
  if_pos h

theorem resetEngine_of_not_busy {s : State} (h : s.engine.status.busy = false) :
    resetEngine s = .next { s with engine := s.engine.afterReset } :=
  if_neg (Bool.eq_false_iff.mp h)

/-- No request register has a value after a reset: the marks do not look at the tables. -/
theorem requestMarks_afterReset (e : Engine) : ∀ m ∈ requestMarks e.afterReset, m.2 = false :=
  requestMarks_reset (page := e.page)

/-! ### Tables (70 R345) -/

/-- An instance after a load of these tables (70 R345). -/
def Engine.afterLoad (t : Tables) (e : Engine) : Engine := { e with tablesReady := decide (t = theTables) }

/-- Tables are the right ones when each of the five is. -/
theorem eq_theTables_iff {t : Tables} :
    t = theTables ↔ t.iv = ivTable.toList ∧ t.perm = permTable.toList.map Fin.val ∧ t.rot = rotTable.toList ∧
      t.nRounds = nRounds ∧ t.gcall = gcallTable.toList := by
  cases t
  exact iff_of_eq (Tables.mk.injEq ..)

theorem afterLoad_tablesReady_iff {t : Tables} {e : Engine} : (e.afterLoad t).tablesReady = true ↔ t = theTables :=
  decide_eq_true_iff

/-! ### Both at any instance (60 R324) -/

namespace Place

variable {s : State} {put : Engine → State} {os : List Engine} {e : Engine} (P : Place s e.page put os)
include P

theorem reset_refused (h : e.status.busy = true) : runEvent (.reset e.page) (put e) = .refused .resetWhileBusy :=
  P.stop (x := .refused .resetWhileBusy) rfl (resetEngine_of_busy h)

theorem reset_next (h : e.status.busy = false) : runEvent (.reset e.page) (put e) = .next (put e.afterReset) := by
  rw [← P.put_eq e.afterReset]
  exact P.next rfl rfl (resetEngine_of_not_busy h)

theorem loadTables_next (t : Tables) : runEvent (.loadTables e.page t) (put e) = .next (put (e.afterLoad t)) := by
  rw [← P.put_eq (e.afterLoad t)]
  exact P.next rfl rfl rfl

end Place

/-- Settles O53: at its place among the instances, the reset leaves the instance `afterReset` and the load leaves it
`afterLoad`. -/
theorem resetOfAnEngine : Obligations.ResetOfAnEngine := by
  intro s t isReset isLoaded
  have hreset : ∀ e : Engine, isReset e e.afterReset := fun e => ⟨rfl, rfl, rfl, requestMarks_afterReset e, rfl, rfl⟩
  have hload : ∀ e : Engine, isLoaded e (e.afterLoad t) := fun e => ⟨rfl, afterLoad_tablesReady_iff.trans eq_theTables_iff⟩
  have key : ∀ {e : Engine} {put : Engine → State} {os : List Engine}, Place s e.page put os → put e = s →
      (e.status.busy = true → runEvent (.reset e.page) s = .refused .resetWhileBusy) ∧
      (e.status.busy = false → ∃ e', runEvent (.reset e.page) s = .next (put e') ∧ isReset e e') ∧
      ∃ e', runEvent (.loadTables e.page t) s = .next (put e') ∧ isLoaded e e' := by
    rintro e put os P rfl
    exact ⟨P.reset_refused, fun h => ⟨_, P.reset_next h, hreset e⟩, _, P.loadTables_next t, hload e⟩
  obtain ⟨hbusy, hfree, htables⟩ := key (place_engine s) rfl
  exact ⟨hbusy, hfree, htables, fun pre post e hd ho => key (place_others hd ho) (by rw [← ho])⟩

/-! ### The self-checks (70 R346) -/

/-- The block of zeros (95 section 1.1). -/
theorem compress_selfCheck1 : compress selfCheck1 = selfCheckOut1 := by decide +kernel

/-- The block of the words 0 to 15 (95 section 3.2). -/
theorem compress_selfCheck2 : compress selfCheck2 = selfCheckOut2 := by decide +kernel

/-- Settles O24: each check is one closed run of the transaction. -/
theorem selfChecksPass : Obligations.SelfChecksPass := ⟨compress_selfCheck1, compress_selfCheck2⟩

end Sys2Proof.Machine
end
